-- ==== Sys2Proof/Word.lean ====
section
/-!
DEFINITION. The words of the block: the bit-vector types the spec's registers, memories and bus use
(00_scope.md R10). Everything computed on them stands in files that can be mended.
-/
namespace Sys2Proof

/-- One byte: the unit of the address space and one component of an I/Q sample (R10, R50). -/
abbrev Byte := BitVec 8

/-- One entry of RES_RAM (R51). -/
abbrev Half := BitVec 16

/-- A host bus word, a host bus offset, a register, a command word (R10, R33, R110). -/
abbrev Word := BitVec 32

/-- The bit pattern of an IEEE-754 binary64 value (R10, R13, R52). -/
abbrev F64 := BitVec 64

end Sys2Proof
end

