-- ==== Sys2Proof/Config.lean ====
section
/-!
DEFINITION. What one build of the block fixes (00_scope.md R8), and the free values of the model:
constants without a body, so that nothing can evaluate them and no statement can rest on their value.
-/
namespace Sys2Proof

/-- Which Hann formula WIN_ROM holds (R8, R150): denominator `N - 1` or `N`. -/
inductive HannForm where
  | symmetric
  | periodic
  deriving DecidableEq, Repr

/-- FREE VALUE (R8, U14): the base address a platform gives the block. -/
opaque Config.platformBase : Word

/-- The parameters of R8 that differ between instances. The host can read the first four back in PARAM0
and PARAM1 (R36, R37); `BASE` is the platform's choice. `EPS_POWER` and `LOG10_IMPL` have one legal value
and stand where they are used; `LATENCY` is the place of a completion among the outside events. -/
structure Build where
  /-- log2 of the transform length, 2 to 16 -/
  log2n : Nat
  /-- log2 of the display width, 0 to LOG2N -/
  log2w : Nat
  /-- the display height `H`, 1 to 32767 -/
  height : Nat
  /-- the Hann formula of WIN_ROM -/
  hann : HannForm
  /-- `BASE`: the block's base address on the host bus -/
  base : Word
  deriving DecidableEq, Repr

/-- The reference build of R8: `N = 8192`, `W = 1024`, `H = 256`, SYMMETRIC, at whatever base the
platform chose. -/
def Build.reference : Build := ⟨13, 10, 256, .symmetric, Config.platformBase⟩

/-- FREE VALUE (R58, R271, U10 to U12): what the RAM byte at an offset holds after the reset with a
given number, until something writes it. -/
opaque Config.ramDraw (resets : Nat) (offset : Nat) : Byte

/-- FREE VALUE (R169, U23): the 64 bits from which the sign and the fraction of a NaN result are
taken, one draw for each transform run and each operation of it. -/
opaque Config.nanDraw (draws : Nat) (site : Nat) : F64

end Sys2Proof
end

