-- ==== Sys2Proof/Machine/Float.lean ====
section
/-!
DEFINITION. IEEE-754 binary64 on bit patterns (00_scope.md R13): round to nearest, ties to even, gradual
underflow, signed zeros, infinities and NaN; each operation rounds once and none is fused. A finite
value is an integer number of units, one unit being `2^-1074`, so sums and products are exact integers
before the one rounding.
-/
namespace Sys2Proof.Machine

/-- What a bit pattern stands for. -/
inductive Num where
  | nan
  | inf (neg : Bool)
  /-- the value `units * 2^-1074`, with its sign (also of a zero) -/
  | fin (neg : Bool) (units : Nat)
  deriving DecidableEq, Repr

/-- How many units the number 1 has. -/
def unitsPerOne : Nat := 2 ^ 1074

/-- The exponent field at its maximum with a zero fraction: the pattern of +Inf. -/
def infPattern : Nat := 0x7FF * 2 ^ 52

/-- Reading a bit pattern: sign in bit 63, biased exponent in bits 62:52, fraction in bits 51:0. -/
def classify (x : F64) : Num :=
  let neg := decide (2 ^ 63 ≤ x.toNat)
  let e := x.toNat / 2 ^ 52 % 2048
  let f := x.toNat % 2 ^ 52
  if e = 2047 then (if f = 0 then .inf neg else .nan)
  else if e = 0 then .fin neg f
  else .fin neg ((2 ^ 52 + f) * 2 ^ (e - 1))

/-- The integer nearest to `n / d`, ties to even. -/
def nearestEven (n d : Nat) : Nat :=
  let q := n / d
  let r := n % d
  if 2 * r < d then q else if d < 2 * r then q + 1 else q + q % 2

/-- A sign and the low 63 bits of a pattern. -/
def packSign (neg : Bool) (p : Nat) : F64 := BitVec.ofNat 64 ((if neg then 2 ^ 63 else 0) + p)

/-- How far the significand of `n / d` units lies above the 53 bits a binary64 value has: 0 in the
subnormal range and in the lowest binade. -/
def excessBits (n d : Nat) : Nat := Nat.log2 (n / d) - 52

/-- Round `n / d` units to nearest, ties to even, and pack. With `t` the excess, the significand is
`n / (d * 2^t)` rounded; `t * 2^52` added to it is the pattern, also where rounding carries into the
next binade; a pattern past the largest finite one is infinity. -/
def roundUnits (neg : Bool) (n d : Nat) : F64 :=
  let t := excessBits n d
  packSign neg (min (t * 2 ^ 52 + nearestEven n (d * 2 ^ t)) infPattern)

/-- `RN(x)` for a rational `x`; `RN(0) = +0.0` (R13). -/
def rnRat (x : Rat) : F64 := roundUnits (decide (x.num < 0)) (x.num.natAbs * unitsPerOne) x.den

/-- `f64(n)`: the binary64 value of an integer, exact for `|n| < 2^53` (R13). -/
def f64OfInt (n : Int) : F64 := roundUnits (decide (n < 0)) (n.natAbs * unitsPerOne) 1

/-- The number of units with its sign. -/
def signedUnits (neg : Bool) (u : Nat) : Int := if neg then -(u : Int) else u

/-- The sign of an exact sum: that of a nonzero sum; of a zero sum, negative only when both operands
are negative (round to nearest). -/
def sumSign (na nb : Bool) (sum : Int) : Bool := if sum = 0 then na && nb else decide (sum < 0)

/-- `add64(a, b)` (R13). A NaN result is the pattern `nan`, which the caller draws (R169). -/
def add64 (nan a b : F64) : F64 :=
  match classify a, classify b with
  | .nan, _ => nan
  | _, .nan => nan
  | .inf na, .inf nb => if na = nb then a else nan
  | .inf _, .fin _ _ => a
  | .fin _ _, .inf _ => b
  | .fin na ua, .fin nb ub =>
    let sum := signedUnits na ua + signedUnits nb ub
    roundUnits (sumSign na nb sum) sum.natAbs 1

/-- The operand with its sign flipped. -/
def neg64 (a : F64) : F64 := a ^^^ 0x8000000000000000

/-- `sub64(a, b)` (R13): the sum with the sign of `b` flipped. -/
def sub64 (nan a b : F64) : F64 := add64 nan a (neg64 b)

/-- `mul64(a, b)` (R13). -/
def mul64 (nan a b : F64) : F64 :=
  match classify a, classify b with
  | .nan, _ => nan
  | _, .nan => nan
  | .inf na, .inf nb => packSign (na != nb) infPattern
  | .inf na, .fin nb ub => if ub = 0 then nan else packSign (na != nb) infPattern
  | .fin na ua, .inf nb => if ua = 0 then nan else packSign (na != nb) infPattern
  | .fin na ua, .fin nb ub => roundUnits (na != nb) (ua * ub) unitsPerOne

/-- `isNaN(x)` (R13). -/
def isNaN (x : F64) : Bool :=
  match classify x with
  | .nan => true
  | .inf _ => false
  | .fin _ _ => false

/-- `a < b`, false when either is NaN; zeros of either sign are equal (R13). -/
def lt64 (a b : F64) : Bool :=
  match classify a, classify b with
  | .nan, _ => false
  | _, .nan => false
  | .inf na, .inf nb => na && !nb
  | .inf na, .fin _ _ => na
  | .fin _ _, .inf nb => !nb
  | .fin na ua, .fin nb ub => decide (signedUnits na ua < signedUnits nb ub)

/-- `a ≤ b`, false when either is NaN (R13). -/
def le64 (a b : F64) : Bool :=
  match classify a, classify b with
  | .nan, _ => false
  | _, .nan => false
  | .inf na, .inf nb => na || !nb
  | .inf na, .fin _ _ => na
  | .fin _ _, .inf nb => !nb
  | .fin na ua, .fin nb ub => decide (signedUnits na ua ≤ signedUnits nb ub)

/-- `trunc(x)` of a finite value that is at least 0 (R12); used only on those (R174). -/
def truncNat (x : F64) : Nat :=
  match classify x with
  | .nan => 0
  | .inf _ => 0
  | .fin _ u => u / unitsPerOne

/-- The NaN pattern with the sign and the fraction of a draw, the fraction made nonzero (R169: the
exponent all ones, the fraction nonzero, nothing else fixed). -/
def nanOfDraw (d : F64) : F64 :=
  packSign (decide (2 ^ 63 ≤ d.toNat)) (infPattern + (if d.toNat % 2 ^ 52 = 0 then 1 else d.toNat % 2 ^ 52))

/-- The free NaN pattern of one operation of one transform (R169, U23). -/
def freshNaN (draws site : Nat) : F64 := nanOfDraw (Config.nanDraw draws site)

end Sys2Proof.Machine
end

