-- ==== Sys2Proof/Machine/Numeric.lean ====
section
/-!
DEFINITION. The three real functions the spec rounds correctly: cosine and sine of a rational part of a
turn (41_spectral.md R150, R155) and the decimal logarithm (00_scope.md R8, R13: `LOG10`). Each is
enclosed between two rationals by interval arithmetic in integers scaled by `2^320`. Where both ends round
alike, the value is that rounding (rounding is monotone, so the real number between them rounds there
too). Where they do not, the two roundings are neighbours, and an exact comparison of the real number
with the point halfway between them decides. The comparisons are exact on every argument: of a cosine
by counting half turns of a rational rotation, of a logarithm by comparing integer powers.
-/
namespace Sys2Proof.Machine

/-- Two rationals that enclose a real number. -/
structure Enclosure where
  lo : Rat
  hi : Rat
  deriving DecidableEq, Repr

/-- The rational a finite pattern stands for. -/
def finiteValue (x : F64) : Rat :=
  match classify x with
  | .nan => 0
  | .inf _ => 0
  | .fin neg u => mkRat (signedUnits neg u) unitsPerOne

/-- Of two neighbours `a < b`, the one a number between them rounds to, ties to even: `versus m` is how
the number compares with the rational `m`. -/
def nearerOf (a b : F64) (versus : Rat → Ordering) : F64 :=
  match versus ((finiteValue a + finiteValue b) / 2) with
  | .lt => a
  | .gt => b
  | .eq => if a.getLsbD 0 then b else a

/-- The real number of an enclosure, rounded once (R13). -/
def rnBetween (e : Enclosure) (versus : Rat → Ordering) : F64 :=
  if rnRat e.lo = rnRat e.hi then rnRat e.lo else nearerOf (rnRat e.lo) (rnRat e.hi) versus

/-- The number 1 in the scaled integers. -/
def fixOne : Nat := 2 ^ 320

/-- Division rounded up. -/
def ceilDiv (n d : Nat) : Nat := (n + d - 1) / d

/-! ### Logarithms: `ln ((b + a) / (b - a)) = 2 atanh (a / b)` -/

/-- Bounds of `sum over j of (a/b)^(2j) / (2(i + j) + 1)`, of which `n` terms are taken; for
`a / b ≤ 1/3` the rest is between 0 and 1. -/
def atanhSum (a b : Nat) : Nat → Nat → Nat × Nat
  | 0, _ => (0, fixOne)
  | n + 1, i =>
    let r := atanhSum a b n (i + 1)
    (fixOne / (2 * i + 1) + a * a * r.1 / (b * b),
     ceilDiv fixOne (2 * i + 1) + ceilDiv (a * a * r.2) (b * b))

/-- Bounds of `ln ((b + a) / (b - a))` for `a / b ≤ 1/3`. -/
def lnBounds (a b : Nat) : Nat × Nat :=
  let r := atanhSum a b 110 0
  (2 * a * r.1 / b, ceilDiv (2 * a * r.2) b)

/-- Bounds of `ln 2`. -/
def ln2Bounds : Nat × Nat := lnBounds 1 3

/-- Bounds of `ln 10 = 3 ln 2 + ln (10 / 8)`. -/
def ln10Bounds : Nat × Nat :=
  (3 * ln2Bounds.1 + (lnBounds 1 9).1, 3 * ln2Bounds.2 + (lnBounds 1 9).2)

/-- Bounds of `ln x` for `x` of `u` units, `u > 0`: with `u = m * 2^t`, `m` of at most 53 bits and
`k = log2 m`, it is `ln (m / 2^k) + (k + t - 1074) ln 2`. -/
def lnUnits (u : Nat) : Int × Int :=
  let t := Nat.log2 u - 52
  let m := u / 2 ^ t
  let one := 2 ^ (Nat.log2 u - t)
  let e : Int := (Nat.log2 u : Int) - 1074
  let f := lnBounds (m - one) (m + one)
  (f.1 + e * (if 0 ≤ e then ln2Bounds.1 else ln2Bounds.2 : Nat),
   f.2 + e * (if 0 ≤ e then ln2Bounds.2 else ln2Bounds.1 : Nat))

/-- Enclosure of `log10 x = ln x / ln 10` for `x` of `u` units, `u > 0`. -/
def log10Enclosure (u : Nat) : Enclosure :=
  let n := lnUnits u
  { lo := mkRat n.1 (if 0 ≤ n.1 then ln10Bounds.2 else ln10Bounds.1)
    hi := mkRat n.2 (if 0 ≤ n.2 then ln10Bounds.1 else ln10Bounds.2) }

/-- How `log10 x` compares with `m = p / q`, for `x` of `u` units: as `x^q` compares with `10^p`. -/
def log10Versus (u : Nat) (m : Rat) : Ordering :=
  compare (u ^ m.den * 10 ^ (-m.num).toNat) (10 ^ m.num.toNat * unitsPerOne ^ m.den)

/-- `LOG10(x)` (R13): `RN(log10 x)` for finite `x > 0`, `+Inf` for `+Inf`. The converter asks for it
only from `2^-32` up (R174), so what it gives elsewhere reaches no result. -/
def log10F64 (x : F64) : F64 :=
  match classify x with
  | .nan => x
  | .inf _ => x
  | .fin _ u => rnBetween (log10Enclosure u) (log10Versus u)

/-! ### Pi: Machin's formula `pi = 16 atan (1/5) - 4 atan (1/239)` -/

/-- Bounds of `sum over j of (-1)^j (1/b)^(2j) / (2(i + j) + 1)`, `n` terms taken; the rest is between
0 and 1. -/
def atanSum (b : Nat) : Nat → Nat → Nat × Nat
  | 0, _ => (0, fixOne)
  | n + 1, i =>
    let r := atanSum b n (i + 1)
    (fixOne / (2 * i + 1) - ceilDiv r.2 (b * b), ceilDiv fixOne (2 * i + 1) - r.1 / (b * b))

/-- Bounds of `atan (1/b)`. -/
def atanBounds (b : Nat) : Nat × Nat :=
  let r := atanSum b 75 0
  (r.1 / b, ceilDiv r.2 b)

/-- Bounds of pi. -/
def piBounds : Nat × Nat :=
  (16 * (atanBounds 5).1 - 4 * (atanBounds 239).2, 16 * (atanBounds 5).2 - 4 * (atanBounds 239).1)

/-! ### Cosine and sine of `n / d` of a turn -/

/-- Bounds of the angle `2 pi n / d`. -/
def angleBounds (n d : Nat) : Nat × Nat :=
  (2 * piBounds.1 * n / d, ceilDiv (2 * piBounds.2 * n) d)

/-- Bounds of its square. -/
def squareBounds (x : Nat × Nat) : Nat × Nat := (x.1 * x.1 / fixOne, ceilDiv (x.2 * x.2) fixOne)

/-- Bounds of `sum over j of (-1)^j x^(2j) (2i + c)! / (2(i + j) + c)!`, `xx` bounding `x^2 ≤ 1`, `n`
terms taken; the rest is between 0 and 1. From `i = 0` on it is `cos x` for `c = 0` and `sin x / x`
for `c = 1`. -/
def taylorSum (c : Nat) (xx : Nat × Nat) : Nat → Nat → Nat × Nat
  | 0, _ => (0, fixOne)
  | n + 1, i =>
    let r := taylorSum c xx n (i + 1)
    let q := (2 * i + 1 + c) * (2 * i + 2 + c) * fixOne
    (fixOne - ceilDiv (xx.2 * r.2) q, fixOne - xx.1 * r.1 / q)

/-- Bounds of `cos (2 pi n / d)` for `n / d ≤ 1/8`. -/
def cosOctant (n d : Nat) : Nat × Nat := taylorSum 0 (squareBounds (angleBounds n d)) 40 0

/-- Bounds of `sin (2 pi n / d)` for `n / d ≤ 1/8`. -/
def sinOctant (n d : Nat) : Nat × Nat :=
  let x := angleBounds n d
  let r := taylorSum 1 (squareBounds x) 40 0
  (x.1 * r.1 / fixOne, ceilDiv (x.2 * r.2) fixOne)

/-- Bounds of `cos (2 pi n / d)` for `n / d ≤ 1/4`: past 1/8, the sine of the complement. -/
def cosQuadrant (n d : Nat) : Nat × Nat :=
  if 8 * n ≤ d then cosOctant n d else sinOctant (d - 4 * n) (4 * d)

/-- The enclosure that scaled bounds stand for. -/
def enclosureOf (r : Nat × Nat) : Enclosure := ⟨mkRat r.1 fixOne, mkRat r.2 fixOne⟩

/-- The enclosure of the opposite number. -/
def negEnclosure (e : Enclosure) : Enclosure := ⟨-e.hi, -e.lo⟩

/-- Enclosure of `cos (2 pi n / d)` for `n ≤ d`: even about half a turn, odd about a quarter. -/
def cosTurn (n d : Nat) : Enclosure :=
  let m := if 2 * n ≤ d then n else d - n
  if 4 * m ≤ d then enclosureOf (cosQuadrant m d)
  else negEnclosure (enclosureOf (cosQuadrant (d - 2 * m) (2 * d)))

/-- Enclosure of `sin (2 pi n / d)` for `n / d ≤ 1/2`: the cosine of the distance to a quarter turn. -/
def sinTurn (n d : Nat) : Enclosure :=
  cosTurn (if 4 * n ≤ d then d - 4 * n else 4 * n - d) (4 * d)

/-! ### Exact comparisons with a cosine -/

/-- What `j` turns by the angle `φ` with `cos φ = m` add up to: `cos (j φ)`, `sin (j φ) sin φ` and the
number of half turns in `j φ`. -/
structure Rotation where
  cosine : Rat
  sine : Rat
  halfTurns : Nat
  deriving DecidableEq, Repr

/-- Whether the angle lies in the second half of a full turn, seen from its cosine and sine: then the
number of half turns in it is odd. -/
def pastHalfTurn (cosine sine : Rat) : Bool := decide (sine < 0) || (decide (sine = 0) && decide (cosine < 0))

/-- `j` turns by the angle with cosine `m`, `|m| ≤ 1`. One turn is at most half a turn, so it adds a half
turn exactly when it changes the half the angle lies in. -/
def rotate (m : Rat) : Nat → Rotation
  | 0 => ⟨1, 0, 0⟩
  | j + 1 =>
    let r := rotate m j
    let c := m * r.cosine - r.sine
    let v := m * r.sine + (1 - m * m) * r.cosine
    ⟨c, v, if pastHalfTurn c v = pastHalfTurn r.cosine r.sine then r.halfTurns else r.halfTurns + 1⟩

/-- How `cos (2 pi n / d)` compares with `m`, for `2 n ≤ d`: as `d` times the angle of `m` compares with
`n` full turns. -/
def cosHalfVersus (n d : Nat) (m : Rat) : Ordering :=
  if 1 < m then .lt
  else if m < -1 then .gt
  else
    let r := rotate m d
    if r.halfTurns < 2 * n then .lt
    else if r.halfTurns = 2 * n ∧ r.sine = 0 then .eq
    else .gt

/-- How `cos (2 pi n / d)` compares with `m`, for `n ≤ d`: it is even about half a turn. -/
def cosVersus (n d : Nat) (m : Rat) : Ordering := cosHalfVersus (if 2 * n ≤ d then n else d - n) d m

/-- How `-sin (2 pi n / d)` compares with `m`, for `n / d ≤ 1/2`. -/
def negSinVersus (n d : Nat) (m : Rat) : Ordering :=
  (cosVersus (if 4 * n ≤ d then d - 4 * n else 4 * n - d) (4 * d) (-m)).swap

end Sys2Proof.Machine
end

