-- ==== Sys2Proof/Syntax.lean ====
section
/-!
DEFINITION. The nine commands of the SAC command set, version 1 (00_scope.md R2; 30_encoding.md R111):
one constructor per row of spec/opcode_table.json. No command has an operand field (R113).
-/
namespace Sys2Proof

/-- The commands, in the order of the opcode map (30_encoding.md R111). -/
inductive Instr where
  /-- accept, do nothing, complete (43_frame_commands.md R222) -/
  | nop
  /-- magnitude of every supplied sample into RES_RAM (40_magnitude.md R133) -/
  | mag
  /-- windowed samples into WORK_RAM (41_spectral.md R160) -/
  | win
  /-- in-place transform of WORK_RAM (41_spectral.md R165) -/
  | fft
  /-- clamped log-power of WORK_RAM into RES_RAM (41_spectral.md R175) -/
  | logp
  /-- swap the two halves of RES_RAM (41_spectral.md R181) -/
  | shift
  /-- stride subsampling of RES_RAM into FRAME_RAM (42_decimator.md R204) -/
  | decim
  /-- MAG then DECIM (43_frame_commands.md R224) -/
  | magFrame
  /-- WIN, FFT, LOGP, SHIFT, DECIM (43_frame_commands.md R226) -/
  | specFrame
  deriving DecidableEq, Repr

end Sys2Proof
end

