-- ==== Sys2Proof/WellFormed.lean ====
section
/-!
DEFINITION. Well-formedness. A command has no operand field (30_encoding.md R113), so every term of
`Instr` is well-formed; what can be ill-formed is a build (00_scope.md R8: "Legal values"; U15: builds
outside these ranges do not exist).
-/
namespace Sys2Proof

/-- Every command is well-formed: there is no operand to check (R113). -/
def Instr.wellFormed : Instr → Bool
  | .nop => true
  | .mag => true
  | .win => true
  | .fft => true
  | .logp => true
  | .shift => true
  | .decim => true
  | .magFrame => true
  | .specFrame => true

/-- `LOG2N` is from 2 to 16 (R8). -/
def Build.log2nLegal (b : Build) : Bool := decide (2 ≤ b.log2n) && decide (b.log2n ≤ 16)

/-- `LOG2W` is from 0 to `LOG2N` (R8). -/
def Build.log2wLegal (b : Build) : Bool := decide (b.log2w ≤ b.log2n)

/-- `H` is from 1 to 32767 (R8). -/
def Build.heightLegal (b : Build) : Bool := decide (1 ≤ b.height) && decide (b.height ≤ 32767)

/-- The builds that exist (R8, U15). -/
def Build.legal (b : Build) : Bool := b.log2nLegal && b.log2wLegal && b.heightLegal

end Sys2Proof
end

