-- ==== Sys2Proof/Decode.lean ====
section
/-!
DEFINITION. The byte order of a host word (20_memory.md R80), the decoder of a CTRL word
(30_encoding.md R110 to R112, R114) and the encoder.
-/
namespace Sys2Proof

/-- A word from its four bytes, the byte at the lowest offset first (R80). -/
def wordOfBytes (b0 b1 b2 b3 : Byte) : Word := b3 ++ b2 ++ b1 ++ b0

/-- The four bytes of a word, lowest offset first (R80). -/
def wordBytes (d : Word) : List Byte :=
  [d.extractLsb' 0 8, d.extractLsb' 8 8, d.extractLsb' 16 8, d.extractLsb' 24 8]

/-- Why a list of bytes or a word is not a command. -/
inductive DecodeError where
  /-- fewer than the four bytes of a CTRL word -/
  | tooShort (bytes : Nat)
  /-- `RSV`, bits 31:4, is not 0 (R110, R114) -/
  | reservedBits (d : Word)
  /-- `RSV` is 0 and `OP` is 0x7 or 0xA to 0xF (R111, R114) -/
  | reservedOpcode (op : BitVec 4)
  deriving DecidableEq, Repr

/-- The opcode map (R111). -/
def decodeOpcode (op : BitVec 4) : Option Instr :=
  match op.toNat with
  | 0x0 => some .nop
  | 0x1 => some .mag
  | 0x2 => some .win
  | 0x3 => some .fft
  | 0x4 => some .logp
  | 0x5 => some .shift
  | 0x6 => some .decim
  | 0x8 => some .magFrame
  | 0x9 => some .specFrame
  | _ => none

/-- The `OP` field of a CTRL word (R110). -/
def opField (d : Word) : BitVec 4 := d.extractLsb' 0 4

/-- The `RSV` field of a CTRL word (R110). -/
def rsvField (d : Word) : BitVec 28 := d.extractLsb' 4 28

/-- Decoding one CTRL word (R112): reserved bits first, then the opcode map. -/
def decodeWord (d : Word) : Except DecodeError Instr :=
  if rsvField d = 0#28 then
    match decodeOpcode (opField d) with
    | some i => .ok i
    | none => .error (.reservedOpcode (opField d))
  else .error (.reservedBits d)

/-- `valid(d)` of R112. -/
def validCommand (d : Word) : Bool :=
  match decodeWord d with
  | .ok _ => true
  | .error _ => false

/-- Decoding from bytes: the first four are one CTRL word (R80, R110); the rest is handed back. -/
def decode : List Byte → Except DecodeError (Instr × List Byte)
  | b0 :: b1 :: b2 :: b3 :: rest =>
    match decodeWord (wordOfBytes b0 b1 b2 b3) with
    | .ok i => .ok (i, rest)
    | .error e => .error e
  | short => .error (.tooShort short.length)

/-- The opcode of a command (R111). -/
def Instr.opcode : Instr → BitVec 4
  | .nop => 0x0
  | .mag => 0x1
  | .win => 0x2
  | .fft => 0x3
  | .logp => 0x4
  | .shift => 0x5
  | .decim => 0x6
  | .magFrame => 0x8
  | .specFrame => 0x9

/-- The CTRL word of a command (R111): its opcode in bits 3:0, zeros above. -/
def encodeWord (i : Instr) : Word := (0 : BitVec 28) ++ i.opcode

/-- The words of a command: one (R110). -/
def encode (i : Instr) : List Word := [encodeWord i]

/-- The bytes of a command in the order of the bus (R80). -/
def encodeBytes (i : Instr) : List Byte := (encode i).flatMap wordBytes

/-- The low `n` bytes of a number, lowest first. -/
def layoutBytes : Nat → Nat → List Byte
  | 0, _ => []
  | n + 1, w => BitVec.ofNat 8 w :: layoutBytes n (w / 256)

/-- What the decoder reads from a command whose bits are `w`, `nbits` of them given, zeros above:
the bytes are laid out in bus order and must be exactly one command (R110, R115). -/
def decodeTableWord (nbits w : Nat) : Option Instr :=
  match decode (layoutBytes (max 4 ((nbits + 7) / 8)) (w % 2 ^ nbits)) with
  | .ok (i, []) => some i
  | _ => none

end Sys2Proof
end

