-- ==== Sys2Proof/Machine/State.lean ====
section
/-!
DEFINITION. The state of the block, as plain data: every piece of state spec/10_state.md gives it, the
build parameters it is built for, and the model's own fields (the order of outside events, the bus
response, two counters that index free values). INVENTORY.md lists them with their rules.
-/
namespace Sys2Proof.Machine

/-- The fields of STATUS (R39). Reserved bits have no storage: they read 0 and ignore writes (R34).
The engine state of R32 is a view of this: `BUSY(op)` exactly when `busy`, with `op = curOp`. -/
structure Status where
  /-- bit 0 -/
  busy : Bool
  /-- bit 1 -/
  done : Bool
  /-- bit 2 -/
  illegal : Bool
  /-- bit 3 -/
  overrun : Bool
  /-- bits 11:8 -/
  curOp : BitVec 4
  deriving DecidableEq, Repr

/-- What the outside world can do to the block, one at a time (R16, R92, R270, R290). -/
inductive Event where
  /-- a host word read at a bus address (R85) -/
  | busRead (address : Word)
  /-- a host word write at a bus address (R86) -/
  | busWrite (address : Word) (data : Word)
  /-- the LATENCY of the command in flight ends: it is the Engine's turn (R8, R220) -/
  | engineTurn
  /-- the reset input is asserted and released (R270) -/
  | reset
  deriving DecidableEq, Repr

/-- The response of the bus port to one host transaction (R14). -/
inductive Response where
  /-- OKAY with the data of a read -/
  | okayData (data : Word)
  /-- OKAY to a write -/
  | okay
  /-- ERROR: the transaction changed nothing (R243) -/
  | error
  deriving DecidableEq, Repr

/-- RAM contents: the bytes written since reset, addresses (offsets from BASE) strictly rising. A byte
that is not listed has not been written since reset and holds its reset draw. -/
abbrev Memory := List Host.Cell

/-- The state of one instance of the block (R59). -/
structure State where
  /-- the parameters of R8: those read back in PARAM0 and PARAM1, and BASE -/
  build : Build
  /-- STATUS (R39) and with it the engine state (R32) -/
  status : Status
  /-- IRQ_EN bit 0 (R41) -/
  doneIe : Bool
  /-- IRQ_EN bit 1 (R41) -/
  errIe : Bool
  /-- IN_COUNT (R42) -/
  inCount : Word
  /-- GAIN (R43) -/
  gain : Word
  /-- BASELINE (R44) -/
  baseline : Word
  /-- FRAME_COUNT (R45) -/
  frameCount : Word
  /-- ERR_CMD (R46) -/
  errCmd : Word
  /-- IN_RAM, RES_RAM, FRAME_RAM and WORK_RAM (R49 to R53) -/
  mem : Memory
  /-- MODEL's own: how many reset pulses there have been; indexes `Config.ramDraw` -/
  resets : Nat
  /-- MODEL's own: how many transforms have run; indexes `Config.nanDraw` -/
  draws : Nat
  /-- MODEL's own: the outside events still to come, first one next -/
  inputs : List Event
  /-- MODEL's own: the bus port's response to the last host transaction -/
  resp : Option Response
  deriving DecidableEq, Repr

/-- STATUS after reset: 0x00000000 (R58). -/
def Status.reset : Status := ⟨false, false, false, false, 0⟩

/-- The block of a given build right after reset (R58): nothing written, the counters and the event
list as given. -/
def State.resetOf (b : Build) (resets draws : Nat) (inputs : List Event) : State where
  build := b
  status := Status.reset
  doneIe := false
  errIe := false
  inCount := 0x00000000
  gain := 0x00010000
  baseline := 0x00000000
  frameCount := 0x00000000
  errCmd := 0x00000000
  mem := []
  resets := resets
  draws := draws
  inputs := inputs
  resp := none

/-- The reference build right after reset (R8, R58), with no outside event to come. -/
def State.reset : State := State.resetOf Build.reference 0 0 []

/-- Why a step stops the machine. -/
inductive Fault where
  /-- Raised by the Engine's turn when it is BUSY with an opcode outside the opcode map (R111). SAFE:
  no accepted command has such an opcode (R112, R240), so no run from reset raises it. -/
  | noSuchCommand (op : BitVec 4)
  deriving DecidableEq, Repr

/-- Why the model gives an instruction no meaning. -/
inductive Refusal where
  /-- Raised by `exec` for an instruction that has no meaning yet. SAFE: nothing follows from it. -/
  | notModelled (mnemonic : String)
  deriving DecidableEq, Repr

/-- What a meaning and a step answer. -/
abbrev Result := Host.Outcome State Fault Refusal

end Sys2Proof.Machine
end

