-- ==== Sys2Proof/Machine/Flags.lean ====
section
/-!
DEFINITION. The flags of the block: the STATUS fields, who writes each (10_state.md R39, R40, R48), the
words STATUS and IRQ_EN read as, and the interrupt level (R41, R57, 60_exceptions.md R250). There are
no arithmetic flags (R48).
-/
namespace Sys2Proof.Machine

/-- The engine state of R32. -/
inductive Engine where
  | idle
  | busy (op : BitVec 4)
  deriving DecidableEq, Repr

/-- `engine = BUSY(op)` exactly when STATUS.BUSY is 1, `op` being CUR_OP (R32, R39). -/
def engineOf (st : Status) : Engine := if st.busy then .busy st.curOp else .idle

/-- STATUS as it reads: BUSY, DONE, ILLEGAL, OVERRUN in bits 0 to 3, CUR_OP in bits 11:8, the rest 0
(R39). -/
def statusWord (st : Status) : Word :=
  (0 : BitVec 20) ++ st.curOp ++ (0 : BitVec 4) ++ BitVec.ofBool st.overrun ++
    BitVec.ofBool st.illegal ++ BitVec.ofBool st.done ++ BitVec.ofBool st.busy

/-- Acceptance of a command: BUSY set, DONE cleared, CUR_OP loaded (R39, R240). -/
def acceptStatus (op : BitVec 4) (st : Status) : Status :=
  { st with busy := true, done := false, curOp := op }

/-- Completion of a command: BUSY cleared, DONE set, CUR_OP kept (R220, R244). -/
def completeStatus (st : Status) : Status := { st with busy := false, done := true }

/-- A host write of `d` to STATUS: write 1 to clear DONE, ILLEGAL, OVERRUN; all else ignored (R40). -/
def clearStatus (d : Word) (st : Status) : Status :=
  { st with
    done := st.done && !d.getLsbD 1
    illegal := st.illegal && !d.getLsbD 2
    overrun := st.overrun && !d.getLsbD 3 }

/-- IRQ_EN as it reads (R41). -/
def irqEnWord (doneIe errIe : Bool) : Word :=
  (0 : BitVec 30) ++ BitVec.ofBool errIe ++ BitVec.ofBool doneIe

/-- The interrupt output (R41, R57, R250). -/
def irq (s : State) : Bool :=
  (s.status.done && s.doneIe) || ((s.status.illegal || s.status.overrun) && s.errIe)

end Sys2Proof.Machine
end

