-- ==== Sys2Proof/Machine/Ops.lean ====
section
/-!
DEFINITION. The named operations over the state: memory (read one byte, store a block), the update of
each field, the rejection events of a CTRL write, command issue, completion and reset. The block takes
no traps and has no return instruction (60_exceptions.md R249, R251): the two recorded error events,
ILLEGAL and OVERRUN, share one operation, `rejectCommand`.
-/
namespace Sys2Proof.Machine

/-! ### Memory -/

/-- The written byte at an address, `none` where nothing has written since reset. -/
def memFind : Memory → Nat → Option Byte
  | [], _ => none
  | c :: m, a => if c.1 = a then some c.2 else memFind m a

/-- The cells of a run of bytes that begins at `a`. -/
def cellsAt : Nat → List Byte → Memory
  | _, [] => []
  | a, b :: bs => (a, b) :: cellsAt (a + 1) bs

/-- Store a run of bytes at consecutive addresses from `a` on; every other byte stays (R82). -/
def memStore (m : Memory) (a : Nat) (bs : List Byte) : Memory :=
  m.filter (fun c => decide (c.1 < a)) ++ cellsAt a bs ++
    m.filter (fun c => decide (a + bs.length ≤ c.1))

/-- The canonical form: addresses strictly rising. An unlisted address has no written value, so no
entry can equal what an unlisted address reads as. -/
def memWf : Memory → Bool
  | [] => true
  | c :: m => m.all (fun c' => decide (c.1 < c'.1)) && memWf m

/-- One RAM byte as it reads: the written byte, else the reset draw of that byte (R58, R276). -/
def ramByte (s : State) (a : Nat) : Byte :=
  match memFind s.mem a with
  | some b => b
  | none => Config.ramDraw s.resets a

/-- The RAM word at an address, little-endian (R80). -/
def ramWord (s : State) (a : Nat) : Word :=
  wordOfBytes (ramByte s a) (ramByte s (a + 1)) (ramByte s (a + 2)) (ramByte s (a + 3))

/-! ### One update per field -/

/-- STATUS <- st. -/
def State.setStatus (s : State) (st : Status) : State := { s with status := st }

/-- IRQ_EN <- (doneIe, errIe). -/
def State.setIrqEn (s : State) (doneIe errIe : Bool) : State := { s with doneIe := doneIe, errIe := errIe }

/-- IN_COUNT <- d. -/
def State.setInCount (s : State) (d : Word) : State := { s with inCount := d }

/-- GAIN <- d. -/
def State.setGain (s : State) (d : Word) : State := { s with gain := d }

/-- BASELINE <- d. -/
def State.setBaseline (s : State) (d : Word) : State := { s with baseline := d }

/-- FRAME_COUNT <- d. -/
def State.setFrameCount (s : State) (d : Word) : State := { s with frameCount := d }

/-- ERR_CMD <- d. -/
def State.setErrCmd (s : State) (d : Word) : State := { s with errCmd := d }

/-- Store a run of RAM bytes. -/
def State.store (s : State) (a : Nat) (bs : List Byte) : State := { s with mem := memStore s.mem a bs }

/-- Move on to fresh NaN draws. -/
def State.nextDraws (s : State) : State := { s with draws := s.draws + 1 }

/-- The outside events still to come. -/
def State.setInputs (s : State) (es : List Event) : State := { s with inputs := es }

/-- What the bus port answers. -/
def State.setResp (s : State) (r : Response) : State := { s with resp := some r }

/-! ### Command issue, rejection, completion, reset -/

/-- The two error events of a CTRL write that the block records (R245). -/
inductive Rejection where
  /-- cause code 1 (R241) -/
  | illegal
  /-- cause code 2 (R242) -/
  | overrun
  deriving DecidableEq, Repr

/-- `raise ILLEGAL(d)` and `raise OVERRUN(d)`: the STATUS bit is set and ERR_CMD holds the word;
nothing else changes (R241, R242). -/
def rejectCommand (why : Rejection) (d : Word) (s : State) : State :=
  match why with
  | .illegal => (s.setStatus { s.status with illegal := true }).setErrCmd d
  | .overrun => (s.setStatus { s.status with overrun := true }).setErrCmd d

/-- `IssueCommand(d)` (R240): the busy check first, then validity (R247). -/
def issueCommand (d : Word) (s : State) : State :=
  if s.status.busy then rejectCommand .overrun d s
  else if validCommand d then s.setStatus (acceptStatus (opField d) s.status)
  else rejectCommand .illegal d s

/-- The end of every command (R220): BUSY <- 0, DONE <- 1, the engine IDLE, CUR_OP kept. -/
def completeCommand (s : State) : State := s.setStatus (completeStatus s.status)

/-- The reset input (R270, R271, R58): every register at its reset value, the engine IDLE, all four
RAMs unspecified (fresh draws). The build does not change; the events after the reset stay. -/
def resetPulse (s : State) : State := State.resetOf s.build (s.resets + 1) s.draws s.inputs

end Sys2Proof.Machine
end

