-- ==== Sys2Proof/Machine/Operands.lean ====
section
/-!
DEFINITION. The operands. Every operand of a command is implicit, fixed by its opcode (30_encoding.md
R113): the derived constants of the build (00_scope.md R8, R9), the elements of the four RAMs as a
command reads them and the runs of elements it writes (10_state.md R49 to R53, 20_memory.md R80 to
R82), and the supplied pair count (40_magnitude.md R130).
-/
namespace Sys2Proof.Machine

/-! ### Derived constants of a build (R8, R9) -/

/-- The transform length `N = 2^LOG2N`. -/
def transformLength (b : Build) : Nat := 2 ^ b.log2n

/-- The display width `W = 2^LOG2W`. -/
def displayWidth (b : Build) : Nat := 2 ^ b.log2w

/-- `stride = N / W` (R201). -/
def stride (b : Build) : Nat := transformLength b / displayWidth b

/-- `COUNT = floor(N / stride)` (R201). -/
def pointCount (b : Build) : Nat := transformLength b / stride b

/-! ### Region starts (R49, R89) -/

/-- Start of IN_RAM. -/
def inBase : Nat := 0x00100000
/-- Start of RES_RAM. -/
def resBase : Nat := 0x00200000
/-- Start of FRAME_RAM. -/
def frameBase : Nat := 0x00300000
/-- Start of WORK_RAM. -/
def workBase : Nat := 0x00400000
/-- Start of WIN_ROM. -/
def winBase : Nat := 0x00500000
/-- Start of TW_ROM. -/
def twBase : Nat := 0x00600000

/-! ### Elements as a command reads them -/

/-- `IN[j]` (R50). -/
def inByte (s : State) (j : Nat) : Byte := ramByte s (inBase + j)

/-- `I_k` (R50, R131). -/
def sampleI (s : State) (k : Nat) : Int := (inByte s (2 * k)).toInt

/-- `Q_k` (R50, R131). -/
def sampleQ (s : State) (k : Nat) : Int := (inByte s (2 * k + 1)).toInt

/-- `RES[i]`, a 16-bit pattern (R51). -/
def resEntry (s : State) (i : Nat) : Half :=
  ramByte s (resBase + 2 * i + 1) ++ ramByte s (resBase + 2 * i)

/-- A binary64 value in two consecutive words, the low word first (R81). -/
def ramF64 (s : State) (a : Nat) : F64 := ramWord s (a + 4) ++ ramWord s a

/-- `WORK[k] = (re, im)` (R52). -/
def workEntry (s : State) (k : Nat) : F64 × F64 :=
  (ramF64 s (workBase + 16 * k), ramF64 s (workBase + 16 * k + 8))

/-- `X_j` (R53). -/
def frameX (s : State) (j : Nat) : Word := ramWord s (frameBase + 8 * j)

/-- `Y_j` (R53). -/
def frameY (s : State) (j : Nat) : Word := ramWord s (frameBase + 8 * j + 4)

/-- All of RES_RAM as a command reads it. -/
def resList (s : State) : List Half := (List.range (transformLength s.build)).map (resEntry s)

/-- All of WORK_RAM as a command reads it. -/
def workList (s : State) : List (F64 × F64) :=
  (List.range (transformLength s.build)).map (workEntry s)

/-- The supplied pair count `P = min(IN_COUNT >> 1, N)` (R130). -/
def pairCount (s : State) : Nat := min (s.inCount.toNat >>> 1) (transformLength s.build)

/-! ### Runs of elements as a command writes them -/

/-- The bytes of a RES entry (R80, R81). -/
def halfBytes (h : Half) : List Byte := [h.extractLsb' 0 8, h.extractLsb' 8 8]

/-- The bytes of a binary64 value: the low word, then the high word (R81). -/
def f64Bytes (x : F64) : List Byte :=
  wordBytes (x.extractLsb' 0 32) ++ wordBytes (x.extractLsb' 32 32)

/-- The bytes of a WORK entry: re, then im (R52). -/
def workBytes (z : F64 × F64) : List Byte := f64Bytes z.1 ++ f64Bytes z.2

/-- The bytes of a frame point: X, then Y (R53). -/
def pointBytes (p : Word × Word) : List Byte := wordBytes p.1 ++ wordBytes p.2

/-- Write RES entries 0, 1, ... -/
def State.writeRes (s : State) (hs : List Half) : State := s.store resBase (hs.flatMap halfBytes)

/-- Write WORK entries 0, 1, ... -/
def State.writeWork (s : State) (zs : List (F64 × F64)) : State :=
  s.store workBase (zs.flatMap workBytes)

/-- Write frame points 0, 1, ... -/
def State.writeFrame (s : State) (ps : List (Word × Word)) : State :=
  s.store frameBase (ps.flatMap pointBytes)

end Sys2Proof.Machine
end

