-- ==== Sys2Proof/Machine/Rom.lean ====
section
/-!
DEFINITION. The contents of the two coefficient ROMs, fixed by the build and never changed:
`hann_window_rom` (41_spectral.md R150) and `twiddle_coefficients` (R155).
-/
namespace Sys2Proof.Machine

/-- The denominator `D` of the window formula (R150). -/
def hannDenominator (b : Build) : Nat :=
  match b.hann with
  | .symmetric => transformLength b - 1
  | .periodic => transformLength b

/-- Enclosure of `1/2 - (1/2) cos (2 pi k / D)` (R150). -/
def winEnclosure (b : Build) (k : Nat) : Enclosure :=
  let c := cosTurn k (hannDenominator b)
  ⟨(1 - c.hi) / 2, (1 - c.lo) / 2⟩

/-- How `1/2 - (1/2) cos (2 pi k / D)` compares with `m`. -/
def winVersus (b : Build) (k : Nat) (m : Rat) : Ordering := (cosVersus k (hannDenominator b) (1 - 2 * m)).swap

/-- `WIN[k]` (R150). -/
def winRom (b : Build) (k : Nat) : F64 := rnBetween (winEnclosure b k) (winVersus b k)

/-- `TW[k] = (RN(cos (2 pi k / N)), RN(-sin (2 pi k / N)))` (R155). -/
def twRom (b : Build) (k : Nat) : F64 × F64 :=
  (rnBetween (cosTurn k (transformLength b)) (cosVersus k (transformLength b)),
   rnBetween (negEnclosure (sinTurn k (transformLength b))) (negSinVersus k (transformLength b)))

end Sys2Proof.Machine
end

