-- ==== Sys2Proof/Machine/Bus.lean ====
section
/-!
DEFINITION. Host bus accesses: the address map (20_memory.md R89), the registers (10_state.md R33 to
R47), `MemRead` and `MemWrite` (20_memory.md R85, R86) with the busy lock (R90). `none` is the ERROR
response.
-/
namespace Sys2Proof.Machine

/-- The regions of the address map (R89); offsets in no region are `none` of `regionOf`. -/
inductive Region where
  | regs
  | inRam
  | resRam
  | frameRam
  | workRam
  | winRom
  | twRom
  deriving DecidableEq, Repr

/-- `region(a)` (R89). -/
def regionOf (a : Word) : Option Region :=
  match a.toNat / 0x00100000 with
  | 0 => if a.toNat < 0x100 then some .regs else none
  | 1 => some .inRam
  | 2 => some .resRam
  | 3 => some .frameRam
  | 4 => some .workRam
  | 5 => some .winRom
  | 6 => some .twRom
  | _ => none

/-- The offset from `BASE` of a host bus address (R8, R85, R86). On a 32-bit bus every address has one
and every offset is reached; an address below `BASE` has an offset that is in no region, unless the
block's own offsets wrap around there (log entry 8). -/
def busOffset (b : Build) (address : Word) : Word := address - b.base

/-- The bus address of an offset from `BASE`. -/
def busAddress (b : Build) (offset : Word) : Word := b.base + offset

/-- The place of an offset within its 1 MiB region. -/
def regionOffset (a : Word) : Nat := a.toNat % 0x00100000

/-- `bytes(r)` (R49, R89). -/
def regionBytes (b : Build) : Region → Nat
  | .regs => 0x100
  | .inRam => 2 * transformLength b
  | .resRam => 2 * transformLength b
  | .frameRam => 8 * displayWidth b
  | .workRam => 16 * transformLength b
  | .winRom => 8 * transformLength b
  | .twRom => 8 * transformLength b

/-- The regions the busy lock covers (R90). -/
def Region.isRam : Region → Bool
  | .regs => false
  | .inRam => true
  | .resRam => true
  | .frameRam => true
  | .workRam => true
  | .winRom => false
  | .twRom => false

/-- ID (R35). -/
def idWord : Word := 0x53414331

/-- PARAM0 (R36): LOG2N in bits 4:0, LOG2W in bits 12:8, HANN_FORM in bit 16. -/
def param0Word (b : Build) : Word :=
  (0 : BitVec 15) ++ (match b.hann with | .symmetric => 0#1 | .periodic => 1#1) ++ (0 : BitVec 3) ++
    BitVec.ofNat 5 b.log2w ++ (0 : BitVec 3) ++ BitVec.ofNat 5 b.log2n

/-- PARAM1 (R37): H in bits 15:0. -/
def param1Word (b : Build) : Word := (0 : BitVec 16) ++ BitVec.ofNat 16 b.height

/-- `RegRead(a)` (R85, R33). -/
def regRead (s : State) (a : Word) : Option Word :=
  match a.toNat with
  | 0x000 => some idWord
  | 0x004 => some (param0Word s.build)
  | 0x008 => some (param1Word s.build)
  | 0x00C => some 0
  | 0x010 => some (statusWord s.status)
  | 0x014 => some (irqEnWord s.doneIe s.errIe)
  | 0x018 => some s.inCount
  | 0x01C => some s.gain
  | 0x020 => some s.baseline
  | 0x024 => some s.frameCount
  | 0x028 => some s.errCmd
  | _ => none

/-- The word of a binary64 value at byte 0 or 4 of it (R81). -/
def f64Word (x : F64) (off : Nat) : Word :=
  if off % 8 < 4 then x.extractLsb' 0 32 else x.extractLsb' 32 32

/-- The word of WIN_ROM at a region offset (R54). -/
def winRomWord (b : Build) (off : Nat) : Word := f64Word (winRom b (off / 8)) off

/-- The word of TW_ROM at a region offset (R55): the cosine, then the sine component. -/
def twRomWord (b : Build) (off : Nat) : Word :=
  f64Word (if off % 16 < 8 then (twRom b (off / 16)).1 else (twRom b (off / 16)).2) off

/-- The word a region holds at an aligned offset of it (R85). -/
def regionRead (s : State) (r : Region) (a : Word) : Option Word :=
  match r with
  | .regs => regRead s a
  | .inRam => some (ramWord s a.toNat)
  | .resRam => some (ramWord s a.toNat)
  | .frameRam => some (ramWord s a.toNat)
  | .workRam => some (ramWord s a.toNat)
  | .winRom => some (winRomWord s.build (regionOffset a))
  | .twRom => some (twRomWord s.build (regionOffset a))

/-- `MemRead(a, 4)` (R85). -/
def memRead (s : State) (a : Word) : Option Word :=
  if a.toNat % 4 ≠ 0 then none
  else
    match regionOf a with
    | none => none
    | some r =>
      if regionBytes s.build r ≤ regionOffset a then none
      else if r.isRam && s.status.busy then none
      else regionRead s r a

/-- A configuration register write, refused while BUSY (R34, R86). -/
def configWrite (s t : State) : Option State := if s.status.busy then none else some t

/-- `RegWrite(a, d)` (R86). -/
def regWrite (s : State) (a d : Word) : Option State :=
  match a.toNat with
  | 0x00C => some (issueCommand d s)
  | 0x010 => some (s.setStatus (clearStatus d s.status))
  | 0x014 => some (s.setIrqEn (d.getLsbD 0) (d.getLsbD 1))
  | 0x018 => configWrite s (s.setInCount d)
  | 0x01C => configWrite s (s.setGain d)
  | 0x020 => configWrite s (s.setBaseline d)
  | _ => none

/-- `MemWrite(a, 4, d)` (R86): the state after an OKAY write, `none` for ERROR. -/
def memWrite (s : State) (a d : Word) : Option State :=
  if a.toNat % 4 ≠ 0 then none
  else
    match regionOf a with
    | none => none
    | some .regs => regWrite s a d
    | some r =>
      if regionBytes s.build r ≤ regionOffset a then none
      else if !r.isRam then none
      else if s.status.busy then none
      else some (s.store a.toNat (wordBytes d))

/-- A host read transaction: no state changes but the response (R85, R88). -/
def busRead (s : State) (a : Word) : State :=
  match memRead s a with
  | some d => s.setResp (.okayData d)
  | none => s.setResp .error

/-- A host write transaction: an ERROR response means the write changed nothing (R86). -/
def busWrite (s : State) (a d : Word) : State :=
  match memWrite s a d with
  | some t => t.setResp .okay
  | none => s.setResp .error

end Sys2Proof.Machine
end

