-- ==== Sys2Proof/Machine/Decimator.lean ====
section
/-!
DEFINITION. `frame_decimator`: DECIM (42_decimator.md R200 to R204).
-/
namespace Sys2Proof.Machine

/-- Point `j` (R202): `X = j`, `Y = H - sext_16(RES[j * stride])`, no clamp. -/
def framePoint (s : State) (j : Nat) : Word × Word :=
  (BitVec.ofNat 32 j,
   BitVec.ofInt 32 ((s.build.height : Int) - (resEntry s (j * stride s.build)).toInt))

/-- The pseudocode of DECIM (R203, R204). -/
def runDecim (s : State) : State :=
  (s.writeFrame ((List.range (pointCount s.build)).map (framePoint s))).setFrameCount
    (BitVec.ofNat 32 (pointCount s.build))

/-- DECIM (R204, R220). -/
def execDecim (s : State) : Result := .next (completeCommand (runDecim s))

end Sys2Proof.Machine
end

