-- ==== Sys2Proof/Machine/Magnitude.lean ====
section
/-!
DEFINITION. `magnitude_approximator`: MAG (40_magnitude.md R130 to R135).
-/
namespace Sys2Proof.Machine

/-- `mag(I, Q)`: alpha-max-beta-min (R132). -/
def magnitude (i q : Int) : Nat :=
  let a := i.natAbs
  let b := q.natAbs
  if a > b then a + (b >>> 1) else b + (a >>> 1)

/-- The RES entry MAG computes for index `i` (R133): 0 past the supplied pairs. -/
def magEntry (s : State) (i : Nat) : Half :=
  if i < pairCount s then BitVec.ofNat 16 (magnitude (sampleI s i) (sampleQ s i)) else 0

/-- The pseudocode of MAG (R133). -/
def runMag (s : State) : State :=
  s.writeRes ((List.range (transformLength s.build)).map (magEntry s))

/-- MAG (R133, R220). -/
def execMag (s : State) : Result := .next (completeCommand (runMag s))

end Sys2Proof.Machine
end

