-- ==== Sys2Proof/Machine/Fft.lean ====
section
/-!
DEFINITION. The transform of 41_spectral.md R165, R166: radix-2 decimation in time on a bit-reversed
input, loop for loop as the spec writes it. It is written over any arithmetic, so that what the block
computes (binary64) and what it would compute without rounding (R168) are one algorithm.
-/
namespace Sys2Proof.Machine

/-- The arithmetic of a transform: the value an element outside the list stands for, and the three
operations; each takes the number of its place in the transform (41_spectral.md R169 leaves the
pattern of a NaN result open, one place at a time). -/
structure Arith (α : Type) where
  zero : α
  add : Nat → α → α → α
  sub : Nat → α → α → α
  mul : Nat → α → α → α

/-- `bitrev(i)`: the reversal of the low `bits` bits of `i` (R166). -/
def bitrev : Nat → Nat → Nat
  | 0, _ => 0
  | bits + 1, i => i % 2 * 2 ^ bits + bitrev bits (i / 2)

/-- Exchange two elements. -/
def swapAt {α : Type} (d : α) (l : List α) (i j : Nat) : List α :=
  (l.set i (l.getD j d)).set j (l.getD i d)

/-- The swap loop of R165, step 1. -/
def bitrevSwaps {α : Type} (d : α) (bits : Nat) (l : List α) : List α :=
  (List.range (2 ^ bits)).foldl
    (fun l i => if i < bitrev bits i then swapAt d l i (bitrev bits i) else l) l

/-- One butterfly (R165, R167): `t = v * w`, then `u + t` and `u - t`, every operation rounded by
itself. `site` numbers its ten operations. -/
def butterfly {α : Type} (A : Arith α) (site : Nat) (w u v : α × α) : (α × α) × (α × α) :=
  let tr := A.sub (site + 2) (A.mul site v.1 w.1) (A.mul (site + 1) v.2 w.2)
  let ti := A.add (site + 5) (A.mul (site + 3) v.1 w.2) (A.mul (site + 4) v.2 w.1)
  ((A.add (site + 6) u.1 tr, A.add (site + 7) u.2 ti),
   (A.sub (site + 8) u.1 tr, A.sub (site + 9) u.2 ti))

/-- The butterfly on elements `i` and `i + h`, in place. -/
def butterflyAt {α : Type} (A : Arith α) (site : Nat) (w : α × α) (i h : Nat) (l : List (α × α)) :
    List (α × α) :=
  let r := butterfly A site w (l.getD i (A.zero, A.zero)) (l.getD (i + h) (A.zero, A.zero))
  (l.set i r.1).set (i + h) r.2

/-- The number of the first operation of the butterfly at element `i` of stage `s`. -/
def siteOf (s i : Nat) : Nat := (s * 2 ^ 16 + i) * 10

/-- One group of stage `s` (R165): `h = 2^(s-1)` butterflies from `base` on. -/
def fftGroup {α : Type} (A : Arith α) (bits : Nat) (tw : Nat → α × α) (s base : Nat)
    (l : List (α × α)) : List (α × α) :=
  (List.range (2 ^ s / 2)).foldl
    (fun l j => butterflyAt A (siteOf s (base + j)) (tw (j * (2 ^ bits / 2 ^ s))) (base + j) (2 ^ s / 2) l) l

/-- Stage `s` (R165): the groups at 0, m, 2m, ..., N - m, with `m = 2^s`. -/
def fftStage {α : Type} (A : Arith α) (bits : Nat) (tw : Nat → α × α) (l : List (α × α)) (s : Nat) :
    List (α × α) :=
  (List.range (2 ^ bits / 2 ^ s)).foldl (fun l g => fftGroup A bits tw s (g * 2 ^ s) l) l

/-- The whole transform (R165): the swap loop, then stages 1 to LOG2N. -/
def transform {α : Type} (A : Arith α) (bits : Nat) (tw : Nat → α × α) (l : List (α × α)) :
    List (α × α) :=
  (List.range bits).foldl (fun l s => fftStage A bits tw l (s + 1)) (bitrevSwaps (A.zero, A.zero) bits l)

end Sys2Proof.Machine
end

