-- ==== Sys2Proof/Machine/Spectral.lean ====
section
/-!
DEFINITION. The spectral path: WIN, FFT, LOGP, SHIFT (41_spectral.md R160 to R182).
-/
namespace Sys2Proof.Machine

/-- The NaN argument of the operations whose NaN result no rule lets anyone see: WIN multiplies finite
values only (R160), and LOGP treats every NaN alike (R174). FFT's NaN results, which stay in WORK, are
free values (R169, log entry 4). -/
def quietNaN : F64 := 0x7FF8000000000000

/-! ### WIN (R160) -/

/-- The WORK entry WIN computes for index `k` (R160): `(+0.0, +0.0)` past the supplied pairs. -/
def winEntry (s : State) (k : Nat) : F64 × F64 :=
  if k < pairCount s then
    (mul64 quietNaN (f64OfInt (sampleI s k)) (winRom s.build k),
     mul64 quietNaN (f64OfInt (sampleQ s k)) (winRom s.build k))
  else (0, 0)

/-- The pseudocode of WIN (R160). -/
def runWin (s : State) : State :=
  s.writeWork ((List.range (transformLength s.build)).map (winEntry s))

/-- WIN (R160, R220). -/
def execWin (s : State) : Result := .next (completeCommand (runWin s))

/-! ### FFT (R165) -/

/-- The block's arithmetic: binary64, each operation rounded once (R13, R167), a NaN result free at
each place of each transform (R169). -/
def blockArith (draws : Nat) : Arith F64 where
  zero := 0
  add := fun site a b => add64 (freshNaN draws site) a b
  sub := fun site a b => sub64 (freshNaN draws site) a b
  mul := fun site a b => mul64 (freshNaN draws site) a b

/-- The pseudocode of FFT (R165). -/
def runFft (s : State) : State :=
  (s.writeWork (transform (blockArith s.draws) s.build.log2n (twRom s.build) (workList s))).nextDraws

/-- FFT (R165, R220). -/
def execFft (s : State) : Result := .next (completeCommand (runFft s))

/-! ### LOGP (R172 to R175) -/

/-- `2^-16` in binary64. -/
def twoPowMinus16 : F64 := 0x3EF0000000000000

/-- `EPS_POWER = 2^-32` in binary64 (R8). -/
def epsPower : F64 := 0x3DF0000000000000

/-- `10.0` in binary64. -/
def ten64 : F64 := 0x4024000000000000

/-- A signed Q16.16 register as the exact binary64 it is read as (R172). -/
def q16Value (nan : F64) (d : Word) : F64 := mul64 nan (f64OfInt d.toInt) twoPowMinus16

/-- The power of a work element (R173). -/
def power (nan : F64) (z : F64 × F64) : F64 :=
  add64 nan (mul64 nan z.1 z.1) (mul64 nan z.2 z.2)

/-- `logpower(p)` with gain `g` and baseline `b` (R174). -/
def logPower (nan g b p : F64) : F64 :=
  if isNaN p then nan
  else
    let q := if lt64 p epsPower then epsPower else p
    let l := mul64 nan ten64 (log10F64 q)
    sub64 nan (mul64 nan g l) b

/-- `toDisplay(v)` (R174): NaN and `v ≤ 0` give 0, `v ≥ H` gives `H`, else truncation. -/
def toDisplay (h : Nat) (v : F64) : Nat :=
  if isNaN v || le64 v 0 then 0
  else if le64 (f64OfInt h) v then h
  else truncNat v

/-- The RES entry LOGP computes from a work element (R175). Whatever NaN arises in between gives the
same entry (R174). -/
def logEntry (s : State) (i : Nat) : Half :=
  BitVec.ofNat 16 (toDisplay s.build.height
    (logPower quietNaN (q16Value quietNaN s.gain) (q16Value quietNaN s.baseline)
      (power quietNaN (workEntry s i))))

/-- The pseudocode of LOGP (R175). -/
def runLogp (s : State) : State :=
  s.writeRes ((List.range (transformLength s.build)).map (logEntry s))

/-- LOGP (R175, R220). -/
def execLogp (s : State) : Result := .next (completeCommand (runLogp s))

/-! ### SHIFT (R180, R181) -/

/-- `perm(i) = (i + N/2) mod N` (R56, R180). -/
def perm (b : Build) (i : Nat) : Nat := (i + transformLength b / 2) % transformLength b

/-- The loop of R181: `RES[perm(i)] <- old[i]` for each `i` in order, from a copy. -/
def shiftList (b : Build) (old : List Half) : List Half :=
  (List.range (transformLength b)).foldl (fun res i => res.set (perm b i) (old.getD i 0)) old

/-- The pseudocode of SHIFT (R181). -/
def runShift (s : State) : State := s.writeRes (shiftList s.build (resList s))

/-- SHIFT (R181, R220). -/
def execShift (s : State) : Result := .next (completeCommand (runShift s))

end Sys2Proof.Machine
end

