-- ==== Sys2Proof/Machine/FrameCommands.lean ====
section
/-!
DEFINITION. NOP and the two frame commands (43_frame_commands.md R221 to R227): sequential compositions
of the primitives inside one engine step, STATUS updated once at the end.
-/
namespace Sys2Proof.Machine

/-- NOP (R222): only the completion update of STATUS. -/
def execNop (s : State) : Result := .next (completeCommand s)

/-- The pseudocode of MAG_FRAME (R224). -/
def runMagFrame (s : State) : State := runDecim (runMag s)

/-- MAG_FRAME (R224, R220). -/
def execMagFrame (s : State) : Result := .next (completeCommand (runMagFrame s))

/-- The pseudocode of SPEC_FRAME (R226). -/
def runSpecFrame (s : State) : State := runDecim (runShift (runLogp (runFft (runWin s))))

/-- SPEC_FRAME (R226, R220). -/
def execSpecFrame (s : State) : Result := .next (completeCommand (runSpecFrame s))

end Sys2Proof.Machine
end

