-- ==== Sys2Proof/Machine/Dispatch.lean ====
section
/-!
DEFINITION. One arm per command: what the Engine's step does with it (43_frame_commands.md R220).
-/
namespace Sys2Proof.Machine

def exec (i : Instr) (s : State) : Host.Outcome State Fault Refusal :=
  match i with
  | .nop => Sys2Proof.Machine.execNop s
  | .mag => Sys2Proof.Machine.execMag s
  | .win => Sys2Proof.Machine.execWin s
  | .fft => Sys2Proof.Machine.execFft s
  | .logp => Sys2Proof.Machine.execLogp s
  | .shift => Sys2Proof.Machine.execShift s
  | .decim => Sys2Proof.Machine.execDecim s
  | .magFrame => Sys2Proof.Machine.execMagFrame s
  | .specFrame => Sys2Proof.Machine.execSpecFrame s

end Sys2Proof.Machine
end

