-- ==== Sys2Proof/Machine/Engine.lean ====
section
/-!
DEFINITION. The Engine's turn (43_frame_commands.md R220): it decodes the opcode latched in CUR_OP at
acceptance (the block fetches nothing else, 10_state.md R31, 20_memory.md R96) and runs that command.
-/
namespace Sys2Proof.Machine

/-- EngineStep (R220): enabled only when the engine is BUSY; when IDLE the Engine has no step. -/
def engineStep (s : State) : Result :=
  match engineOf s.status with
  | .idle => .next s
  | .busy op =>
    match decodeOpcode op with
    | some i => exec i s
    | none => .fault (.noSuchCommand op)

/-- What one outside event does. -/
def serveEvent (e : Event) (s : State) : Result :=
  match e with
  | .busRead x => .next (busRead s (busOffset s.build x))
  | .busWrite x d => .next (busWrite s (busOffset s.build x) d)
  | .engineTurn => engineStep s
  | .reset => .next (resetPulse s)

/-- A command word put where the Engine takes its next command from: accepted at CTRL (R240) and the
end of its LATENCY first in line. A word that is no command cannot be accepted: it is first in line as
the CTRL write that will be rejected. -/
def loadCommand (d : Word) (s : State) : State :=
  if validCommand d then
    (s.setStatus (acceptStatus (opField d) s.status)).setInputs (.engineTurn :: s.inputs)
  else
    (s.setStatus { s.status with busy := false }).setInputs (.busWrite (busAddress s.build 0x00C) d :: s.inputs)

end Sys2Proof.Machine
end

