-- ==== Sys2Proof/Machine/Step.lean ====
section
/-!
DEFINITION. One step of the block: the next outside event, or, when none is left, the Engine's turn
(weak fairness, 70_reset_and_hazards.md R290).
-/
namespace Sys2Proof.Machine

/-- One step in the single order of 20_memory.md R92. -/
def step (s : State) : Host.Outcome State Fault Refusal :=
  match s.inputs with
  | [] => engineStep s
  | e :: rest => serveEvent e (s.setInputs rest)

/-- `s` with a command word stored where `step` takes its next command from. -/
def State.withFetchWord (s : State) (nbits w : Nat) : State :=
  loadCommand (BitVec.ofNat 32 (w % 2 ^ nbits)) s

end Sys2Proof.Machine
end

