-- ==== Sys2Proof/Safety.lean ====
section
/-!
DEFINITION. The words claims are stated in: the invariant of the block, what a command may change, the
real number a bit pattern stands for, and correct rounding. Nothing here is part of the machine.
-/
namespace Sys2Proof.Machine

/-! ### Addresses -/

/-- `a` lies in the `size` bytes from `base` on. -/
abbrev inRange (base size a : Nat) : Prop := base ≤ a ∧ a < base + size

/-- `a` is the offset of a RAM byte that the build has (10_state.md R49). -/
abbrev ramAddress (b : Build) (a : Nat) : Prop :=
  inRange inBase (2 * transformLength b) a ∨ inRange resBase (2 * transformLength b) a ∨
    inRange frameBase (8 * displayWidth b) a ∨ inRange workBase (16 * transformLength b) a

/-- `a` is the offset of a ROM byte that the build has (R49). -/
abbrev romAddress (b : Build) (a : Nat) : Prop :=
  inRange winBase (8 * transformLength b) a ∨ inRange twBase (8 * transformLength b) a

/-- `a` is the offset of a register (R33). -/
abbrev registerAddress (a : Nat) : Prop := a % 4 = 0 ∧ a ≤ 0x028

/-! ### The invariant -/

/-- What holds of the block at reset and after every step: the build exists (R8), RAM is in its
canonical form and lists only bytes the build has (R49), CUR_OP is the opcode of a command (R39), and
FRAME_COUNT is 0 or `W` (R45). -/
structure State.Inv (s : State) : Prop where
  buildLegal : s.build.legal = true
  memCanonical : memWf s.mem = true
  memInside : ∀ c ∈ s.mem, ramAddress s.build c.1
  opLegal : (decodeOpcode s.status.curOp).isSome = true
  frameCountLegal : s.frameCount = 0 ∨ s.frameCount = BitVec.ofNat 32 (displayWidth s.build)

/-! ### What a command changes -/

/-- Everything but STATUS, RAM, FRAME_COUNT and the counter of NaN draws is the same. -/
structure SameSettings (s t : State) : Prop where
  build : t.build = s.build
  doneIe : t.doneIe = s.doneIe
  errIe : t.errIe = s.errIe
  inCount : t.inCount = s.inCount
  gain : t.gain = s.gain
  baseline : t.baseline = s.baseline
  errCmd : t.errCmd = s.errCmd
  resets : t.resets = s.resets
  inputs : t.inputs = s.inputs
  resp : t.resp = s.resp

/-- Every RAM byte outside the `n` bytes from `a` on reads as before. -/
def SameBytesOutside (s t : State) (a n : Nat) : Prop :=
  ∀ x, ¬ inRange a n x → ramByte t x = ramByte s x

/-- Every RAM byte reads as before. -/
def SameBytes (s t : State) : Prop := ∀ x, ramByte t x = ramByte s x

/-- STATUS after a completion (R220): BUSY 0, DONE 1, the rest kept. -/
def Completed (s t : State) : Prop :=
  t.status.busy = false ∧ t.status.done = true ∧ t.status.illegal = s.status.illegal ∧
    t.status.overrun = s.status.overrun ∧ t.status.curOp = s.status.curOp

/-- The command `i` is issued by a CTRL write of `w` (R240): when idle it is accepted, BUSY 1, DONE 0,
CUR_OP `op`; while BUSY it is an OVERRUN (R242). Nothing else changes. -/
def IssuedBy (i : Instr) (w : Word) (op : BitVec 4) : Prop :=
  decodeOpcode op = some i ∧
  ∀ s : State,
    (s.status.busy = false → memWrite s 0x00C w =
      some (s.setStatus ⟨true, false, s.status.illegal, s.status.overrun, op⟩)) ∧
    (s.status.busy = true → memWrite s 0x00C w =
      some ((s.setStatus ⟨true, s.status.done, s.status.illegal, true, s.status.curOp⟩).setErrCmd w))

/-- The supplied pair count in the spec's words (R130). -/
def suppliedPairs (s : State) : Nat := min (s.inCount.toNat / 2) (2 ^ s.build.log2n)

/-! ### Numbers -/

/-- The bit pattern is finite and stands for the real `x` (00_scope.md R13). -/
def HasValue (v : F64) (x : ℝ) : Prop :=
  ∃ neg u, classify v = .fin neg u ∧ x = (signedUnits neg u : ℝ) / 2 ^ 1074

/-- The bit pattern is finite. -/
def IsFinite (v : F64) : Prop := ∃ neg u, classify v = .fin neg u

/-- `v` is `x` rounded to the nearest binary64, ties to even (R13), for `x` that does not overflow. -/
def IsRounded (x : ℝ) (v : F64) : Prop :=
  ∃ y, HasValue v y ∧ (∀ w z, HasValue w z → |y - x| ≤ |z - x|) ∧
    (∀ w z, HasValue w z → z ≠ y → |z - x| = |y - x| → v.getLsbD 0 = false)

/-- The two ends of the enclosure lie about `x`, no further apart than `2^-250` of it. -/
def EnclosesClosely (e : Enclosure) (x : ℝ) : Prop :=
  (e.lo : ℝ) ≤ x ∧ x ≤ (e.hi : ℝ) ∧ (e.hi : ℝ) - e.lo ≤ |x| / 2 ^ 250

/-- The reals that round to a finite binary64: below the largest finite value by less than half a
unit in its last place. -/
def InRoundingRange (x : ℝ) : Prop := |x| < 2 ^ 1024 - 2 ^ 970

/-- Real arithmetic, exact: the reading of R168. -/
noncomputable def exactArith : Arith ℝ where
  zero := 0
  add := fun _ a b => a + b
  sub := fun _ a b => a - b
  mul := fun _ a b => a * b

/-- The two states show the same RES, FRAME and FRAME_COUNT. -/
def SameFrame (t t' : State) : Prop :=
  t'.frameCount = t.frameCount ∧
  (∀ i, i < transformLength t.build → resEntry t' i = resEntry t i) ∧
  ∀ j, j < displayWidth t.build → frameX t' j = frameX t j ∧ frameY t' j = frameY t j

end Sys2Proof.Machine
end

