-- ==== Sys2Proof/Certificates/Slice0/Obligations.lean ====
section
/-!
DEFINITION. The statements for the provers. Each docstring names the rules of spec/ it formalises; a
statement that rests on the model's own choice names the log entry.
-/
open Sys2Proof Sys2Proof.Machine

/-! ### Encoding -/

/-- R112: the valid words are those with RSV = 0 and OP one of the nine, and each is read as the one
command whose word it is (R111). -/
def Obligations.ValidWordsAreTheNineCommandWords : Prop :=
  ∀ d : Word,
    (validCommand d = true ↔
      d.extractLsb' 4 28 = 0 ∧
        d.extractLsb' 0 4 ∈ ([0x0, 0x1, 0x2, 0x3, 0x4, 0x5, 0x6, 0x8, 0x9] : List (BitVec 4))) ∧
    (∀ i : Instr, decodeWord d = .ok i ↔ d = encodeWord i)

/-- R80, R110, R115: decoding bytes gives a command exactly when the bytes begin with that command's
encoding, and hands the rest back. -/
def Obligations.DecodeAndEncodeAgreeOnBytes : Prop :=
  ∀ (bytes rest : List Byte) (i : Instr),
    i.wellFormed = true → (decode bytes = .ok (i, rest) ↔ bytes = encodeBytes i ++ rest)

/-- R111: the nine words of the opcode map, and words of R114 that are none. -/
def Obligations.OpcodeMapWordsDecode : Prop :=
  [0x0, 0x1, 0x2, 0x3, 0x4, 0x5, 0x6, 0x8, 0x9].map (decodeTableWord 32) =
    [some Instr.nop, some .mag, some .win, some .fft, some .logp, some .shift, some .decim,
      some .magFrame, some .specFrame] ∧
  [0x7, 0xA, 0xB, 0xC, 0xD, 0xE, 0xF, 0x10, 0x80000009].map (decodeTableWord 32) =
    List.replicate 9 none

/-! ### The step -/

/-- R220, R240, R16, R92: a BUSY engine whose latched opcode is that of a command runs exactly that
command when its LATENCY ends; a host transaction at a bus address is served at its offset from BASE
(R85, R86), a reset as it comes. The model's choices: the list of outside events (log entry 1), bus
addresses of 32 bits (log entry 8), that an empty list is the Engine's turn (log entry 7), and that an
Engine's turn while IDLE changes nothing but the list (log entry 15; R220 gives the idle Engine no step). -/
def Obligations.StepServesEventsAndRunsTheDecodedCommand : Prop :=
  ∀ (s : State) (rest : List Event),
    (∀ i : Instr, i.wellFormed = true → s.status.busy = true → decodeOpcode s.status.curOp = some i →
      (s.inputs = [] → step s = exec i s) ∧
      (s.inputs = .engineTurn :: rest → step s = exec i (s.setInputs rest))) ∧
    (s.status.busy = false →
      (s.inputs = [] → step s = .next s) ∧
      (s.inputs = .engineTurn :: rest → step s = .next (s.setInputs rest))) ∧
    (∀ a, s.inputs = .busRead (s.build.base + a) :: rest →
      step s = .next (busRead (s.setInputs rest) a)) ∧
    (∀ a d, s.inputs = .busWrite (s.build.base + a) d :: rest →
      step s = .next (busWrite (s.setInputs rest) a d)) ∧
    (s.inputs = .reset :: rest → step s = .next (resetPulse (s.setInputs rest)))

/-- R220, R290: every accepted command completes. From a state of the invariant that is BUSY, if no
reset comes, within one step for each outside event and one more there is a state that is IDLE with
DONE set and CUR_OP kept (the event list is the model's, log entries 1 and 7). -/
def Obligations.EveryAcceptedCommandCompletes : Prop :=
  ∀ s : State, s.Inv → s.status.busy = true → Event.reset ∉ s.inputs →
    ∃ k, k ≤ s.inputs.length + 1 ∧ ∃ t, Sys2Proof.core.run k s = .next t ∧
      t.status.busy = false ∧ t.status.done = true ∧ t.status.curOp = s.status.curOp

/-- R32, R90, R242, R282: while a command is in flight, whatever the host does leaves the command, RAM,
the build, IN_COUNT, GAIN, BASELINE and FRAME_COUNT as they are. -/
def Obligations.HostCannotDisturbCommandInFlight : Prop :=
  ∀ (s : State) (a d : Word), s.status.busy = true →
    ∀ t, (t = busRead s a ∨ t = busWrite s a d) →
      t.status.busy = true ∧ t.status.curOp = s.status.curOp ∧ t.mem = s.mem ∧
        t.resets = s.resets ∧ t.draws = s.draws ∧ t.build = s.build ∧ t.inCount = s.inCount ∧
        t.gain = s.gain ∧ t.baseline = s.baseline ∧ t.frameCount = s.frameCount

/-! ### Command issue -/

/-- R240 with R241, R242, R247: a CTRL write is always answered OKAY; busy is checked first; nothing
changes but what the rule names. -/
def Obligations.CtrlWriteIssuesOrRejects : Prop :=
  ∀ (s : State) (d : Word),
    (s.status.busy = true → memWrite s 0x00C d =
      some ((s.setStatus { s.status with overrun := true }).setErrCmd d)) ∧
    (s.status.busy = false → validCommand d = false → memWrite s 0x00C d =
      some ((s.setStatus { s.status with illegal := true }).setErrCmd d)) ∧
    (s.status.busy = false → validCommand d = true → memWrite s 0x00C d =
      some (s.setStatus { s.status with busy := true, done := false, curOp := d.extractLsb' 0 4 }))

/-- R40: a STATUS write is answered OKAY at any time; in the word STATUS reads as, each of DONE, ILLEGAL
and OVERRUN is cleared where the data has a 1, and every other bit stays. -/
def Obligations.StatusWriteClearsTheWrittenOnes : Prop :=
  ∀ (s : State) (d : Word), ∃ t, memWrite s 0x010 d = some t ∧
    t = s.setStatus t.status ∧
    ∀ i, (statusWord t.status).getLsbD i =
      ((statusWord s.status).getLsbD i && !((i == 1 || i == 2 || i == 3) && d.getLsbD i))

/-- R41, R57, R250: the interrupt level as a function of the words STATUS and IRQ_EN read as. -/
def Obligations.InterruptLevelFollowsStatusAndEnables : Prop :=
  ∀ s : State, ∃ st ie, memRead s 0x010 = some st ∧ memRead s 0x014 = some ie ∧
    irq s = ((st.getLsbD 1 && ie.getLsbD 0) || ((st.getLsbD 2 || st.getLsbD 3) && ie.getLsbD 1))

/-- R41, R250: an IRQ_EN write is answered OKAY at any time, keeps bits 1:0, drops the rest and takes
effect at once; nothing else changes. -/
def Obligations.IrqEnableWriteTakesEffectAtOnce : Prop :=
  ∀ (s : State) (d : Word), ∃ t, memWrite s 0x014 d = some t ∧
    t = s.setIrqEn (d.getLsbD 0) (d.getLsbD 1) ∧ memRead t 0x014 = some (d &&& 0x3) ∧
    irq t = ((s.status.done && d.getLsbD 0) || ((s.status.illegal || s.status.overrun) && d.getLsbD 1))

/-! ### The bus -/

/-- R33 to R46: what a read of each register offset gives, BUSY or not, with the place of each field of
STATUS and IRQ_EN, reserved bits 0; R47: the other offsets below 0x100 give ERROR. -/
def Obligations.RegisterMapReads : Prop :=
  ∀ s : State, s.build.legal = true →
    (∃ st, memRead s 0x010 = some st ∧ ∀ i, st.getLsbD i =
      if i = 0 then s.status.busy
      else if i = 1 then s.status.done
      else if i = 2 then s.status.illegal
      else if i = 3 then s.status.overrun
      else if 8 ≤ i ∧ i < 12 then s.status.curOp.getLsbD (i - 8)
      else false) ∧
    (∃ ie, memRead s 0x014 = some ie ∧ ∀ i, ie.getLsbD i =
      if i = 0 then s.doneIe else if i = 1 then s.errIe else false) ∧
    memRead s 0x000 = some 0x53414331 ∧
    memRead s 0x004 = some (BitVec.ofNat 32 (s.build.log2n + s.build.log2w * 2 ^ 8 +
      (if s.build.hann = .periodic then 2 ^ 16 else 0))) ∧
    memRead s 0x008 = some (BitVec.ofNat 32 s.build.height) ∧
    memRead s 0x00C = some 0 ∧
    memRead s 0x018 = some s.inCount ∧
    memRead s 0x01C = some s.gain ∧
    memRead s 0x020 = some s.baseline ∧
    memRead s 0x024 = some s.frameCount ∧
    memRead s 0x028 = some s.errCmd ∧
    (∀ a : Word, 0x28 < a.toNat → a.toNat < 0x100 → memRead s a = none)

/-- R42, R43, R44, R34: an idle write of IN_COUNT, GAIN or BASELINE stores all 32 bits and reads back; a
write while BUSY gets ERROR. -/
def Obligations.ConfigurationRegistersReadBackAsWritten : Prop :=
  ∀ (s : State) (d : Word),
    (s.status.busy = false →
      memWrite s 0x018 d = some (s.setInCount d) ∧ memRead (s.setInCount d) 0x018 = some d ∧
      memWrite s 0x01C d = some (s.setGain d) ∧ memRead (s.setGain d) 0x01C = some d ∧
      memWrite s 0x020 d = some (s.setBaseline d) ∧ memRead (s.setBaseline d) 0x020 = some d) ∧
    (s.status.busy = true →
      memWrite s 0x018 d = none ∧ memWrite s 0x01C d = none ∧ memWrite s 0x020 d = none)

/-- R243: a read gets ERROR in exactly the cases the rule lists for a read. -/
def Obligations.ReadErrorsAreExactlyTheListedCases : Prop :=
  ∀ (s : State) (a : Word), s.build.legal = true →
    (memRead s a = none ↔
      a.toNat % 4 ≠ 0 ∨
      ¬ (registerAddress a.toNat ∨ ramAddress s.build a.toNat ∨ romAddress s.build a.toNat) ∨
      (ramAddress s.build a.toNat ∧ s.status.busy = true))

/-- R243: a write gets ERROR in exactly the cases the rule lists for a write. -/
def Obligations.WriteErrorsAreExactlyTheListedCases : Prop :=
  ∀ (s : State) (a d : Word), s.build.legal = true →
    (memWrite s a d = none ↔
      a.toNat % 4 ≠ 0 ∨
      ¬ (registerAddress a.toNat ∨ ramAddress s.build a.toNat ∨ romAddress s.build a.toNat) ∨
      romAddress s.build a.toNat ∨
      a.toNat ∈ [0x000, 0x004, 0x008, 0x024, 0x028] ∨
      (s.status.busy = true ∧ (ramAddress s.build a.toNat ∨ a.toNat ∈ [0x018, 0x01C, 0x020])))

/-- R86, R88, R243: a read changes nothing but the response of the bus port, and an ERROR response to a
write means the write changed nothing else (the recorded response is the model's, log entry 10). -/
def Obligations.ReadsAndRefusedWritesChangeNothing : Prop :=
  ∀ (s : State) (a d : Word),
    (∃ r, busRead s a = s.setResp r) ∧
    ((busWrite s a d).resp = some .error → busWrite s a d = s.setResp .error)

/-- R82, R85, R86, R80: an idle write of an aligned word of RAM is OKAY, reads back, changes exactly the
four bytes it covers, each to its part of the word, and no register. -/
def Obligations.RamWriteChangesExactlyItsFourBytes : Prop :=
  ∀ (s : State) (a d : Word), s.build.legal = true → s.status.busy = false → a.toNat % 4 = 0 →
    ramAddress s.build a.toNat →
    ∃ t, memWrite s a d = some t ∧ memRead t a = some d ∧
      ramByte t a.toNat = d.extractLsb' 0 8 ∧ ramByte t (a.toNat + 1) = d.extractLsb' 8 8 ∧
      ramByte t (a.toNat + 2) = d.extractLsb' 16 8 ∧ ramByte t (a.toNat + 3) = d.extractLsb' 24 8 ∧
      SameBytesOutside s t a.toNat 4 ∧ SameSettings s t ∧ t.status = s.status ∧
      t.frameCount = s.frameCount ∧ t.draws = s.draws

/-- R50 to R53, R81: which element bytes and words of RAM an idle read of a word gives. -/
def Obligations.RamWordsAreTheElementsOfTheRams : Prop :=
  ∀ s : State, s.build.legal = true → s.status.busy = false →
    (∀ m, 4 * m < 2 * transformLength s.build →
      memRead s (BitVec.ofNat 32 (0x00100000 + 4 * m)) =
        some (inByte s (4 * m + 3) ++ inByte s (4 * m + 2) ++ inByte s (4 * m + 1) ++ inByte s (4 * m))) ∧
    (∀ m, 2 * m < transformLength s.build →
      memRead s (BitVec.ofNat 32 (0x00200000 + 4 * m)) =
        some (resEntry s (2 * m + 1) ++ resEntry s (2 * m))) ∧
    (∀ j, j < displayWidth s.build →
      memRead s (BitVec.ofNat 32 (0x00300000 + 8 * j)) = some (frameX s j) ∧
      memRead s (BitVec.ofNat 32 (0x00300000 + 8 * j + 4)) = some (frameY s j)) ∧
    (∀ k, k < transformLength s.build →
      memRead s (BitVec.ofNat 32 (0x00400000 + 16 * k)) = some ((workEntry s k).1.extractLsb' 0 32) ∧
      memRead s (BitVec.ofNat 32 (0x00400000 + 16 * k + 4)) = some ((workEntry s k).1.extractLsb' 32 32) ∧
      memRead s (BitVec.ofNat 32 (0x00400000 + 16 * k + 8)) = some ((workEntry s k).2.extractLsb' 0 32) ∧
      memRead s (BitVec.ofNat 32 (0x00400000 + 16 * k + 12)) = some ((workEntry s k).2.extractLsb' 32 32))

/-- R54, R55, R81: the words of the two ROMs, served whether the engine is BUSY or not (R90). -/
def Obligations.RomWordsAreServedAtAnyTime : Prop :=
  ∀ s : State, s.build.legal = true →
    (∀ k, k < transformLength s.build →
      memRead s (BitVec.ofNat 32 (0x00500000 + 8 * k)) = some ((winRom s.build k).extractLsb' 0 32) ∧
      memRead s (BitVec.ofNat 32 (0x00500000 + 8 * k + 4)) = some ((winRom s.build k).extractLsb' 32 32)) ∧
    (∀ k, k < transformLength s.build / 2 →
      memRead s (BitVec.ofNat 32 (0x00600000 + 16 * k)) = some ((twRom s.build k).1.extractLsb' 0 32) ∧
      memRead s (BitVec.ofNat 32 (0x00600000 + 16 * k + 4)) = some ((twRom s.build k).1.extractLsb' 32 32) ∧
      memRead s (BitVec.ofNat 32 (0x00600000 + 16 * k + 8)) = some ((twRom s.build k).2.extractLsb' 0 32) ∧
      memRead s (BitVec.ofNat 32 (0x00600000 + 16 * k + 12)) = some ((twRom s.build k).2.extractLsb' 32 32))

/-- R54, R55, R272: no step, a reset included, changes what a read of a ROM word gives. -/
def Obligations.RomReadsNeverChange : Prop :=
  ∀ (s t : State) (a : Word), step s = .next t → romAddress s.build a.toNat →
    memRead t a = memRead s a

/-! ### NOP and MAG -/

/-- R222: NOP is issued by word 0 and changes nothing but STATUS, which shows the completion. -/
def Obligations.NopOnlyCompletes : Prop :=
  IssuedBy .nop 0x00000000 0x0 ∧
  ∀ s : State, ∃ t, exec .nop s = .next t ∧ Completed s t ∧ t = s.setStatus t.status

/-- R136, R137, R139, R134: the closed form of the approximation, its symmetry, its range on samples, and
that it is non-decreasing in the absolute value of either argument. -/
def Obligations.MagnitudeClosedFormAndMonotone : Prop :=
  (∀ i i' q q' : Int, i.natAbs ≤ i'.natAbs → q.natAbs ≤ q'.natAbs → magnitude i q ≤ magnitude i' q') ∧
  ∀ i q : Int,
    magnitude i q = max i.natAbs q.natAbs + min i.natAbs q.natAbs / 2 ∧
    magnitude i q = magnitude q i ∧ magnitude (-i) q = magnitude i q ∧
    magnitude i (-q) = magnitude i q ∧
    (-128 ≤ i → i ≤ 127 → -128 ≤ q → q ≤ 127 → magnitude i q ≤ 192)

/-- R138: the bounds of the approximation against the true magnitude; the unfloored value is never
below it, the floored one is at `(1, 1)`. -/
def Obligations.MagnitudeErrorBounds : Prop :=
  magnitude 1 1 = 1 ∧ ((magnitude 1 1 : Nat) : ℝ) < Real.sqrt 2 ∧
  ∀ i q : Int,
    let z : ℝ := Real.sqrt ((i : ℝ) ^ 2 + (q : ℝ) ^ 2)
    max i.natAbs q.natAbs ≤ magnitude i q ∧ z - 1 / 2 ≤ (magnitude i q : ℝ) ∧
    (magnitude i q : ℝ) ≤ Real.sqrt 5 / 2 * z ∧
    z ≤ ((max i.natAbs q.natAbs : Nat) : ℝ) + ((min i.natAbs q.natAbs : Nat) : ℝ) / 2

/-- R133 (with R130, R132, R134, R135): MAG is issued by word 1 and completes with every RES entry the
magnitude of its sample pair, 0 past the supplied pairs; every other byte and register stays. -/
def Obligations.MagWritesEveryResult : Prop :=
  IssuedBy .mag 0x00000001 0x1 ∧
  ∀ s : State, ∃ t, exec .mag s = .next t ∧ Completed s t ∧ SameSettings s t ∧
    t.frameCount = s.frameCount ∧ t.draws = s.draws ∧
    SameBytesOutside s t 0x00200000 (2 * transformLength s.build) ∧
    ∀ i, i < transformLength s.build →
      (i < suppliedPairs s → (resEntry t i).toInt =
        (max (inByte s (2 * i)).toInt.natAbs (inByte s (2 * i + 1)).toInt.natAbs +
          min (inByte s (2 * i)).toInt.natAbs (inByte s (2 * i + 1)).toInt.natAbs / 2 : Nat)) ∧
      (suppliedPairs s ≤ i → resEntry t i = 0)

/-! ### Binary64 -/

/-- R13: `RN` rounds a rational to the nearest binary64, ties to even; 0 gives +0.0. What lies past the
largest finite value by half a unit or more gives infinity: that is IEEE-754's rounding, which R13 names
and does not spell out (PRESUMED, log entry 14). -/
def Obligations.RoundingIsToNearestEven : Prop :=
  ∀ x : Rat,
    (InRoundingRange (x : ℝ) → IsRounded (x : ℝ) (rnRat x)) ∧
    (¬ InRoundingRange (x : ℝ) → classify (rnRat x) = .inf (decide (x < 0))) ∧
    (x = 0 → rnRat x = 0)

/-- R13: the sum, difference and product of finite values are the exact result rounded once. The sign of a
zero result is IEEE-754's, which R13 names and does not spell out (PRESUMED, log entry 14): an exact zero
sum is +0.0 but for two negative operands, a zero product has the sign of its operands. -/
def Obligations.ArithmeticRoundsTheExactResultOnce : Prop :=
  ∀ (nan a b : F64) (na nb : Bool) (ua ub : Nat),
    classify a = .fin na ua → classify b = .fin nb ub →
    let x : Rat := signedUnits na ua / (2 ^ 1074 : Nat)
    let y : Rat := signedUnits nb ub / (2 ^ 1074 : Nat)
    (x + y ≠ 0 → add64 nan a b = rnRat (x + y)) ∧
    (x + y = 0 → add64 nan a b = packSign (na && nb) 0) ∧
    (x - y ≠ 0 → sub64 nan a b = rnRat (x - y)) ∧
    (x - y = 0 → sub64 nan a b = packSign (na && !nb) 0) ∧
    (x * y ≠ 0 → mul64 nan a b = rnRat (x * y)) ∧
    (x * y = 0 → mul64 nan a b = packSign (na != nb) 0)

/-- R13: sums and products with infinities and NaN, by the rules of IEEE-754, which R13 names and does not
spell out (PRESUMED, log entry 14). -/
def Obligations.InfinitiesAndNaNsFollowIEEE : Prop :=
  ∀ nan a b : F64, isNaN nan = true →
    (isNaN a = true ∨ isNaN b = true → isNaN (add64 nan a b) = true ∧ isNaN (mul64 nan a b) = true) ∧
    (∀ na nb, classify a = .inf na → classify b = .inf nb →
      (na = nb → add64 nan a b = a) ∧ (na ≠ nb → isNaN (add64 nan a b) = true) ∧
      classify (mul64 nan a b) = .inf (na != nb)) ∧
    (∀ na nb u, classify a = .inf na → classify b = .fin nb u →
      add64 nan a b = a ∧ add64 nan b a = a ∧
      (u = 0 → isNaN (mul64 nan a b) = true ∧ isNaN (mul64 nan b a) = true) ∧
      (u ≠ 0 → classify (mul64 nan a b) = .inf (na != nb) ∧ classify (mul64 nan b a) = .inf (na != nb)))

/-! ### The coefficient ROMs -/

/-- R152, R156: the examples of WIN_ROM and of TW_ROM, whatever the base address. -/
def Obligations.RomExamples : Prop :=
  ∀ base : Word,
  (List.range 4).map (winRom ⟨2, 0, 1, .symmetric, base⟩) =
    [0x0000000000000000, 0x3FE8000000000000, 0x3FE8000000000000, 0x0000000000000000] ∧
  (List.range 4).map (winRom ⟨2, 0, 1, .periodic, base⟩) =
    [0x0000000000000000, 0x3FE0000000000000, 0x3FF0000000000000, 0x3FE0000000000000] ∧
  (List.range 8).map (winRom ⟨3, 0, 1, .symmetric, base⟩) =
    [0x0000000000000000, 0x3FC818BE3AE8245D, 0x3FE38F721C6048B0, 0x3FEE6A5E54E5AE38,
      0x3FEE6A5E54E5AE38, 0x3FE38F721C6048B0, 0x3FC818BE3AE8245D, 0x0000000000000000] ∧
  (List.range 8).map (winRom ⟨3, 0, 1, .periodic, base⟩) =
    [0x0000000000000000, 0x3FC2BEC333018867, 0x3FE0000000000000, 0x3FEB504F333F9DE6,
      0x3FF0000000000000, 0x3FEB504F333F9DE6, 0x3FE0000000000000, 0x3FC2BEC333018867] ∧
  (List.range 2).map (twRom ⟨2, 0, 1, .symmetric, base⟩) =
    [(0x3FF0000000000000, 0x0000000000000000), (0x0000000000000000, 0xBFF0000000000000)] ∧
  (List.range 4).map (twRom ⟨3, 0, 1, .symmetric, base⟩) =
    [(0x3FF0000000000000, 0x0000000000000000), (0x3FE6A09E667F3BCD, 0xBFE6A09E667F3BCD),
      (0x0000000000000000, 0xBFF0000000000000), (0xBFE6A09E667F3BCD, 0xBFE6A09E667F3BCD)]

/-- R150: each window coefficient is `1/2 - (1/2) cos(2 pi k / D)` rounded once to nearest, ties to even.
The model gets it from two rationals that enclose the real number, no further apart than `2^-250` of it,
and takes the rounding of one of them (log entry 5). -/
def Obligations.WindowRomIsTheRoundedHannWindow : Prop :=
  ∀ (b : Build) (k : Nat), b.legal = true → k < transformLength b →
    let d : ℝ := if b.hann = .symmetric then (transformLength b : ℝ) - 1 else (transformLength b : ℝ)
    let x : ℝ := 1 / 2 - 1 / 2 * Real.cos (2 * Real.pi * k / d)
    let e := winEnclosure b k
    EnclosesClosely e x ∧ (winRom b k = rnRat e.lo ∨ winRom b k = rnRat e.hi) ∧ IsRounded x (winRom b k)

/-- R155: each twiddle component is the cosine, or minus the sine, of `2 pi k / N` rounded once to nearest,
ties to even. The model gets each from two rationals that enclose the real number, no further apart than
`2^-250` of it, and takes the rounding of one of them (log entry 5). -/
def Obligations.TwiddleRomIsTheRoundedRotation : Prop :=
  ∀ (b : Build) (k : Nat), b.legal = true → k < transformLength b / 2 →
    let θ : ℝ := 2 * Real.pi * k / (transformLength b : ℝ)
    let c := cosTurn k (transformLength b)
    let e := negEnclosure (sinTurn k (transformLength b))
    (EnclosesClosely c (Real.cos θ) ∧ ((twRom b k).1 = rnRat c.lo ∨ (twRom b k).1 = rnRat c.hi) ∧
      IsRounded (Real.cos θ) (twRom b k).1) ∧
    (EnclosesClosely e (-Real.sin θ) ∧ ((twRom b k).2 = rnRat e.lo ∨ (twRom b k).2 = rnRat e.hi) ∧
      IsRounded (-Real.sin θ) (twRom b k).2)

/-- R151, R155: window coefficients lie in [0, 1] with the symmetries of their form and exact end
values; twiddle components lie in [-1, 1] and TW[0] and TW[N/4] are exact. -/
def Obligations.RomEntriesAreBoundedAndSymmetric : Prop :=
  ∀ b : Build, b.legal = true →
    (∀ k, k < transformLength b → ∃ x, HasValue (winRom b k) x ∧ 0 ≤ x ∧ x ≤ 1) ∧
    winRom b 0 = 0 ∧
    (b.hann = .symmetric → winRom b (transformLength b - 1) = 0 ∧
      ∀ k, k < transformLength b → winRom b k = winRom b (transformLength b - 1 - k)) ∧
    (b.hann = .periodic → winRom b (transformLength b / 2) = 0x3FF0000000000000 ∧
      ∀ k, 1 ≤ k → k < transformLength b → winRom b k = winRom b (transformLength b - k)) ∧
    (∀ k, k < transformLength b / 2 →
      (∃ x, HasValue (twRom b k).1 x ∧ |x| ≤ 1) ∧ (∃ x, HasValue (twRom b k).2 x ∧ |x| ≤ 1)) ∧
    twRom b 0 = (0x3FF0000000000000, 0) ∧
    twRom b (transformLength b / 4) = (0, 0xBFF0000000000000)

/-! ### WIN -/

/-- R160 (with R130, R131): WIN is issued by word 2 and completes with every WORK entry the sample pair
times its window coefficient, each product rounded once and never NaN, (+0.0, +0.0) past the supplied pairs. -/
def Obligations.WinWritesEveryWorkEntry : Prop :=
  IssuedBy .win 0x00000002 0x2 ∧
  ∀ s : State, s.build.legal = true → ∃ t, exec .win s = .next t ∧ Completed s t ∧ SameSettings s t ∧
    t.frameCount = s.frameCount ∧ t.draws = s.draws ∧
    SameBytesOutside s t 0x00400000 (16 * transformLength s.build) ∧
    ∀ k, k < transformLength s.build →
      (k < suppliedPairs s → ∀ nan : F64,
        workEntry t k = (mul64 nan (f64OfInt (inByte s (2 * k)).toInt) (winRom s.build k),
          mul64 nan (f64OfInt (inByte s (2 * k + 1)).toInt) (winRom s.build k))) ∧
      (suppliedPairs s ≤ k → workEntry t k = (0, 0))

/-! ### FFT -/

/-- R165: FFT is issued by word 3 and completes with WORK what the swap loop and the stages 1 to LOG2N make
of the WORK before, with the twiddle ROM. Each operation is the block's `add64`, `sub64` or `mul64`, with
a NaN pattern of its own for each place of the transform (free, log entry 4). -/
def Obligations.FftTransformsWorkInPlace : Prop :=
  IssuedBy .fft 0x00000003 0x3 ∧
  ∀ s : State,
    let A := blockArith s.draws
    let z : F64 × F64 := (0x0000000000000000, 0x0000000000000000)
    (∀ site : Nat, ∃ nan, isNaN nan = true ∧ ∀ a b : F64, A.add site a b = add64 nan a b ∧
      A.sub site a b = sub64 nan a b ∧ A.mul site a b = mul64 nan a b) ∧
    ∃ t, exec .fft s = .next t ∧ Completed s t ∧ SameSettings s t ∧ t.frameCount = s.frameCount ∧
      SameBytesOutside s t 0x00400000 (16 * transformLength s.build) ∧
      workList t = (List.range s.build.log2n).foldl
        (fun l i => fftStage A s.build.log2n (twRom s.build) l (i + 1))
        (bitrevSwaps z s.build.log2n (workList s))

/-- R166: bit `b` of `bitrev(i)` is bit `LOG2N - 1 - b` of `i`, and `bitrev` is an involution; the swap
loop moves element `bitrev(i)` to place `i`. -/
def Obligations.BitReversalSwapsEachPairOnce : Prop :=
  ∀ (bits i : Nat), i < 2 ^ bits →
    bitrev bits i < 2 ^ bits ∧ bitrev bits (bitrev bits i) = i ∧
    (∀ b, b < bits → (bitrev bits i).testBit b = i.testBit (bits - 1 - b)) ∧
    (∀ (α : Type) (d : α) (l : List α), l.length = 2 ^ bits →
      (bitrevSwaps d bits l).getD i d = l.getD (bitrev bits i) d)

/-- R93, R165, R167: what one stage leaves in each place: the two outputs of the butterfly on the elements
that stood there before the stage, each group and each butterfly independent of the others. The butterfly
is written out: four products, one difference, one sum and four outputs, each one operation of the
arithmetic. The number `k` of an operation only picks the pattern of its NaN (log entry 4). -/
def Obligations.StageAppliesEachButterflyOnce : Prop :=
  ∀ (α : Type) (A : Arith α) (bits s : Nat) (tw : Nat → α × α) (l : List (α × α)),
    l.length = 2 ^ bits → 1 ≤ s → s ≤ bits →
    ∀ g j, g < 2 ^ (bits - s) → j < 2 ^ (s - 1) →
      let z : α × α := (A.zero, A.zero)
      let i := g * 2 ^ s + j
      let h := 2 ^ (s - 1)
      let w := tw (j * 2 ^ (bits - s))
      let u := l.getD i z
      let v := l.getD (i + h) z
      let k := siteOf s i
      let tr := A.sub (k + 2) (A.mul k v.1 w.1) (A.mul (k + 1) v.2 w.2)
      let ti := A.add (k + 5) (A.mul (k + 3) v.1 w.2) (A.mul (k + 4) v.2 w.1)
      (fftStage A bits tw l s).getD i z = (A.add (k + 6) u.1 tr, A.add (k + 7) u.2 ti) ∧
      (fftStage A bits tw l s).getD (i + h) z = (A.sub (k + 8) u.1 tr, A.sub (k + 9) u.2 ti)

/-- R168: in exact arithmetic with the exact rotations, the algorithm of R165 is the unnormalised
forward DFT, in natural order. -/
def Obligations.ExactTransformIsTheForwardDft : Prop :=
  ∀ (bits : Nat) (x : List (ℝ × ℝ)), x.length = 2 ^ bits →
    let tw : Nat → ℝ × ℝ := fun k =>
      (Real.cos (2 * Real.pi * k / 2 ^ bits), -Real.sin (2 * Real.pi * k / 2 ^ bits))
    ∀ i, i < 2 ^ bits →
      let y := (transform exactArith bits tw x).getD i (0, 0)
      (⟨y.1, y.2⟩ : ℂ) = ∑ n ∈ Finset.range (2 ^ bits),
        (⟨(x.getD n (0, 0)).1, (x.getD n (0, 0)).2⟩ : ℂ) *
          Complex.exp (-(2 * Real.pi * Complex.I * i * n / 2 ^ bits))

/-- R169: after WIN, every component of the transform is finite: no overflow and no NaN. -/
def Obligations.TransformOfWindowedSamplesIsFinite : Prop :=
  ∀ s : State, s.build.legal = true →
    ∃ t u, exec .win s = .next t ∧ exec .fft t = .next u ∧
      ∀ k, k < transformLength s.build →
        IsFinite (workEntry u k).1 ∧ IsFinite (workEntry u k).2

/-! ### LOGP -/

/-- R172: gain and baseline are read as the product of the register and `2^-16`, which is the exact value
of the Q16.16 register. -/
def Obligations.GainAndBaselineAreExact : Prop :=
  HasValue 0x3EF0000000000000 (1 / 2 ^ 16) ∧
  ∀ (nan : F64) (d : Word),
    q16Value nan d = mul64 nan (f64OfInt d.toInt) 0x3EF0000000000000 ∧
    HasValue (f64OfInt d.toInt) d.toInt ∧
    HasValue (mul64 nan (f64OfInt d.toInt) 0x3EF0000000000000) ((d.toInt : ℝ) / 2 ^ 16)

/-- R173: the power of a finite element is at least +0.0, never -0.0, or +Inf; it is NaN exactly when a
component is. LOGP uses it as the power of the element. -/
def Obligations.PowerIsNeverNegative : Prop :=
  ∀ (nan re im : F64), isNaN nan = true →
    let p := add64 nan (mul64 nan re re) (mul64 nan im im)
    power nan (re, im) = p ∧
    (IsFinite re → IsFinite im →
      (∃ u, classify p = .fin false u) ∨ classify p = .inf false) ∧
    (isNaN p = true ↔ isNaN re = true ∨ isNaN im = true)

/-- R13, R8: `LOG10` of a finite positive value is `log10 x` rounded once to nearest, ties to even; `LOG10`
of +Inf is +Inf. The model gets the former from two rationals that enclose the real number, no further
apart than `2^-250` of it, and takes the rounding of one of them (log entry 5). -/
def Obligations.Log10IsTheRoundedLogarithm : Prop :=
  (∀ (v : F64) (u : Nat), classify v = .fin false u → 0 < u →
    let x : ℝ := Real.logb 10 ((u : ℝ) / 2 ^ 1074)
    let e := log10Enclosure u
    EnclosesClosely e x ∧ (log10F64 v = rnRat e.lo ∨ log10F64 v = rnRat e.hi) ∧
      IsRounded x (log10F64 v)) ∧
  (∀ v : F64, classify v = .inf false → log10F64 v = v)

/-- R174, R176: the display value is at most `H`, is non-decreasing in `v`, and for `v` in `(0, H)` is
`v` truncated. -/
def Obligations.DisplayValueIsClampedAndMonotone : Prop :=
  ∀ (h : Nat) (v w : F64), h ≤ 32767 →
    toDisplay h v ≤ h ∧
    (le64 v w = true → toDisplay h v ≤ toDisplay h w) ∧
    (∀ x : ℝ, HasValue v x →
      (x ≤ 0 → toDisplay h v = 0) ∧ ((h : ℝ) ≤ x → toDisplay h v = h) ∧
      (0 < x → x < h → toDisplay h v = ⌊x⌋₊)) ∧
    (isNaN v = true → toDisplay h v = 0) ∧
    (classify v = .inf false → toDisplay h v = h) ∧ (classify v = .inf true → toDisplay h v = 0)

/-- R174: a NaN power gives a NaN, shown as 0; any other power `p` gives
`sub64(mul64(g, mul64(10.0, LOG10(q))), b)`, with `q` the floor `2^-32` for a power below it and `p`
otherwise. -/
def Obligations.LogPowerIsTenLogTimesGainMinusBaseline : Prop :=
  HasValue 0x4024000000000000 10 ∧ HasValue 0x3DF0000000000000 (1 / 2 ^ 32) ∧
  ∀ (nan g b p : F64) (h : Nat),
    (isNaN p = false →
      let q := if lt64 p 0x3DF0000000000000 then 0x3DF0000000000000 else p
      logPower nan g b p = sub64 nan (mul64 nan g (mul64 nan 0x4024000000000000 (log10F64 q))) b) ∧
    (lt64 p 0x3DF0000000000000 = true →
      logPower nan g b p = logPower nan g b 0x3DF0000000000000) ∧
    (∀ x : ℝ, HasValue p x → (lt64 p 0x3DF0000000000000 = true ↔ x < 1 / 2 ^ 32)) ∧
    (classify p = .inf false → lt64 p 0x3DF0000000000000 = false) ∧
    (isNaN nan = true → isNaN p = true →
      isNaN (logPower nan g b p) = true ∧ toDisplay h (logPower nan g b p) = 0)

/-- R175 (with R172 to R174): LOGP is issued by word 4 and completes with every RES entry the display
value of its WORK element, in `[0, H]`: with the power, the floor, the logarithm, the gain and the
baseline in the spec's order, 0 for a NaN power. WORK, every other byte and every register stay. Which
NaN arises in between makes no difference. -/
def Obligations.LogpWritesEveryResult : Prop :=
  IssuedBy .logp 0x00000004 0x4 ∧
  ∀ s : State, s.build.legal = true → ∃ t, exec .logp s = .next t ∧ Completed s t ∧ SameSettings s t ∧
    t.frameCount = s.frameCount ∧ t.draws = s.draws ∧
    SameBytesOutside s t 0x00200000 (2 * transformLength s.build) ∧
    ∀ i, i < transformLength s.build →
      0 ≤ (resEntry t i).toInt ∧ (resEntry t i).toInt ≤ s.build.height ∧
      ∀ nan : F64, isNaN nan = true →
        let g := mul64 nan (f64OfInt s.gain.toInt) 0x3EF0000000000000
        let b := mul64 nan (f64OfInt s.baseline.toInt) 0x3EF0000000000000
        let re := (workEntry s i).1
        let im := (workEntry s i).2
        let p := add64 nan (mul64 nan re re) (mul64 nan im im)
        let q := if lt64 p 0x3DF0000000000000 then 0x3DF0000000000000 else p
        let v := sub64 nan (mul64 nan g (mul64 nan 0x4024000000000000 (log10F64 q))) b
        (isNaN p = true → resEntry t i = 0) ∧
        (isNaN p = false → (resEntry t i).toInt = (toDisplay s.build.height v : Nat))

/-! ### SHIFT -/

/-- R56, R180, R182: the permutation is `i XOR (N/2)` and its own inverse, and takes the output position
`N/2` to bin 0. -/
def Obligations.PermutationFlipsTheTopBit : Prop :=
  ∀ (b : Build) (i : Nat), b.legal = true → i < transformLength b →
    perm b i = (i + transformLength b / 2) % transformLength b ∧
    perm b i = i ^^^ (transformLength b / 2) ∧ perm b i < transformLength b ∧
    perm b (perm b i) = i ∧ perm b (transformLength b / 2) = 0

/-- R181: SHIFT is issued by word 5 and completes with each RES entry moved, unchanged, to its image
under the permutation. -/
def Obligations.ShiftSwapsTheHalves : Prop :=
  IssuedBy .shift 0x00000005 0x5 ∧
  ∀ s : State, s.build.legal = true → ∃ t, exec .shift s = .next t ∧ Completed s t ∧
    SameSettings s t ∧ t.frameCount = s.frameCount ∧ t.draws = s.draws ∧
    SameBytesOutside s t 0x00200000 (2 * transformLength s.build) ∧
    ∀ i, i < transformLength s.build →
      resEntry t ((i + transformLength s.build / 2) % transformLength s.build) = resEntry s i

/-- R182, R285: a second SHIFT restores every byte of RAM. -/
def Obligations.ShiftTwiceRestoresRam : Prop :=
  ∀ s : State, s.build.legal = true →
    ∃ t u, exec .shift s = .next t ∧ exec .shift t = .next u ∧ SameBytes s u

/-! ### DECIM -/

/-- R201: stride and count for the builds that exist. -/
def Obligations.StrideAndCountOfLegalBuilds : Prop :=
  ∀ b : Build, b.legal = true →
    stride b = 2 ^ (b.log2n - b.log2w) ∧ pointCount b = 2 ^ b.log2w ∧
    pointCount b * stride b = 2 ^ b.log2n ∧ 1 ≤ stride b ∧
    ∀ j, j < pointCount b → j * stride b < 2 ^ b.log2n

/-- R204 (with R202, R203): DECIM is issued by word 6 and completes with point `j` at
`(j, H - RES[j stride])`, not clamped, and FRAME_COUNT `W`. -/
def Obligations.DecimWritesEveryPoint : Prop :=
  IssuedBy .decim 0x00000006 0x6 ∧
  ∀ s : State, s.build.legal = true → ∃ t, exec .decim s = .next t ∧ Completed s t ∧
    SameSettings s t ∧ t.draws = s.draws ∧ t.frameCount.toNat = 2 ^ s.build.log2w ∧
    SameBytesOutside s t 0x00300000 (8 * 2 ^ s.build.log2w) ∧
    ∀ j, j < 2 ^ s.build.log2w →
      (frameX t j).toNat = j ∧
      (frameY t j).toInt =
        (s.build.height : Int) - (resEntry s (j * 2 ^ (s.build.log2n - s.build.log2w))).toInt

/-! ### The frame commands -/

/-- R225, R224: after MAG_FRAME, issued by word 8, point `j` is at `(j, H - mag)` of the pair it samples,
at `(j, H)` past the supplied pairs, and RES holds the magnitudes. -/
def Obligations.MagFrameClosedForm : Prop :=
  IssuedBy .magFrame 0x00000008 0x8 ∧
  ∀ s : State, s.build.legal = true → ∃ t, exec .magFrame s = .next t ∧ Completed s t ∧
    SameSettings s t ∧ t.draws = s.draws ∧ t.frameCount.toNat = 2 ^ s.build.log2w ∧
    (∀ x, ¬ inRange 0x00200000 (2 * 2 ^ s.build.log2n) x →
      ¬ inRange 0x00300000 (8 * 2 ^ s.build.log2w) x → ramByte t x = ramByte s x) ∧
    (∀ i, i < 2 ^ s.build.log2n →
      (i < suppliedPairs s → (resEntry t i).toInt = magnitude (sampleI s i) (sampleQ s i)) ∧
      (suppliedPairs s ≤ i → resEntry t i = 0)) ∧
    ∀ j, j < 2 ^ s.build.log2w →
      let i := j * 2 ^ (s.build.log2n - s.build.log2w)
      (frameX t j).toNat = j ∧
      (i < suppliedPairs s →
        (frameY t j).toInt = (s.build.height : Int) - magnitude (sampleI s i) (sampleQ s i)) ∧
      (suppliedPairs s ≤ i → (frameY t j).toInt = s.build.height)

/-- R226: SPEC_FRAME is issued by word 9 and completes in the state its five primitives leave one after
another; IN_RAM and every byte outside WORK, RES and FRAME stay. -/
def Obligations.SpecFrameRunsItsFivePrimitives : Prop :=
  IssuedBy .specFrame 0x00000009 0x9 ∧
  ∀ s : State, s.build.legal = true → ∃ t, exec .specFrame s = .next t ∧ Completed s t ∧
    SameSettings s t ∧ t.frameCount.toNat = 2 ^ s.build.log2w ∧
    (∀ x, ¬ inRange 0x00400000 (16 * 2 ^ s.build.log2n) x →
      ¬ inRange 0x00200000 (2 * 2 ^ s.build.log2n) x →
      ¬ inRange 0x00300000 (8 * 2 ^ s.build.log2w) x → ramByte t x = ramByte s x) ∧
    ∃ s1 s2 s3 s4, exec .win s = .next s1 ∧ exec .fft s1 = .next s2 ∧ exec .logp s2 = .next s3 ∧
      exec .shift s3 = .next s4 ∧ exec .decim s4 = .next t

/-- R221: issuing a frame command and completing it leaves the state that issuing and completing its
primitives one by one leaves, but for CUR_OP (the order of events is the model's list, log entry 1). -/
def Obligations.FrameCommandsEqualTheirPrimitives : Prop :=
  ∀ s : State, s.status.busy = false →
    let issue := fun d : Word => Event.busWrite (s.build.base + 0x00C) d
    (∃ t u,
      Sys2Proof.core.run 2 (s.setInputs [issue 0x8, .engineTurn]) = .next t ∧
      Sys2Proof.core.run 4 (s.setInputs [issue 0x1, .engineTurn, issue 0x6, .engineTurn]) = .next u ∧
      u = t.setStatus { t.status with curOp := 0x6 }) ∧
    (∃ t u,
      Sys2Proof.core.run 2 (s.setInputs [issue 0x9, .engineTurn]) = .next t ∧
      Sys2Proof.core.run 10 (s.setInputs [issue 0x2, .engineTurn, issue 0x3, .engineTurn, issue 0x4,
        .engineTurn, issue 0x5, .engineTurn, issue 0x6, .engineTurn]) = .next u ∧
      u = t.setStatus { t.status with curOp := 0x6 })

/-- R227: what MAG_FRAME and SPEC_FRAME leave in RES, FRAME, FRAME_COUNT and (SPEC_FRAME) WORK is a
function of the supplied sample bytes, IN_COUNT, GAIN, BASELINE and the build alone. -/
def Obligations.FramesDependOnTheirInputsAlone : Prop :=
  ∀ s s' : State, s.build.legal = true → s'.build = s.build → s'.inCount = s.inCount →
    (∀ j, j < 2 * suppliedPairs s → inByte s' j = inByte s j) →
    (∃ t t', exec .magFrame s = .next t ∧ exec .magFrame s' = .next t' ∧
      SameFrame t t') ∧
    (s'.gain = s.gain → s'.baseline = s.baseline →
      ∃ t t', exec .specFrame s = .next t ∧ exec .specFrame s' = .next t' ∧
        SameFrame t t' ∧
        ∀ k, k < transformLength s.build → workEntry t' k = workEntry t k)

/-- R227: a second SPEC_FRAME on the same input leaves RES, WORK, FRAME and FRAME_COUNT bit for bit as
the first did. -/
def Obligations.SpecFrameTwiceGivesTheSameFrame : Prop :=
  ∀ s : State, s.build.legal = true →
    ∃ t u, exec .specFrame s = .next t ∧ exec .specFrame t = .next u ∧
      SameFrame t u ∧
      ∀ k, k < transformLength s.build → workEntry u k = workEntry t k

/-! ### The whole machine -/

/-- R8, R39, R45, R49: every step keeps the invariant (its clause on the form of RAM is the model's, log
entry 3). -/
def Obligations.EveryStepKeepsTheInvariant : Prop :=
  ∀ s t : State, s.Inv → step s = .next t → t.Inv

/-- The invariant holds at reset, of the reference build and of every build that exists. -/
def Obligations.ResetSatisfiesTheInvariant : Prop :=
  State.reset.Inv ∧ ∀ (b : Build) (r d : Nat) (es : List Event), b.legal = true →
    (State.resetOf b r d es).Inv

/-- R220, R249: from a state of the invariant a step always has a next state: nothing stops the block. For
an idle state with no event left, or at an Engine's turn, that next state is the model's stutter (DESIGN
CHOICE, log entry 15; R220 gives the idle Engine no step). -/
def Obligations.NoStepStopsTheBlock : Prop :=
  ∀ s : State, s.Inv → ∃ t, step s = .next t

/-- R58, R270, R271: a reset event gives every register its reset value and leaves the engine IDLE and
`irq` low, whatever was in flight; every RAM byte then reads as a fresh free value (log entry 3). That a
reset is one event is the model's (log entries 1 and 12). -/
def Obligations.ResetRestoresEveryRegister : Prop :=
  ∀ (s : State) (rest : List Event), s.inputs = .reset :: rest →
    ∃ t, step s = .next t ∧ engineOf t.status = .idle ∧ memRead t 0x010 = some 0x00000000 ∧
      memRead t 0x014 = some 0x00000000 ∧ memRead t 0x018 = some 0x00000000 ∧
      memRead t 0x01C = some 0x00010000 ∧ memRead t 0x020 = some 0x00000000 ∧
      memRead t 0x024 = some 0x00000000 ∧ memRead t 0x028 = some 0x00000000 ∧ irq t = false ∧
      t.build = s.build ∧ t.inputs = rest ∧
      ∀ a, ramByte t a = Config.ramDraw (s.resets + 1) a

/-- R50, R284: a command leaves IN_RAM, IN_COUNT, GAIN, BASELINE, IRQ_EN, ERR_CMD and the build as they
are: they are written only by the host. -/
def Obligations.CommandsLeaveTheHostsInputsAlone : Prop :=
  ∀ (i : Instr) (s t : State), s.build.legal = true → exec i s = .next t →
    (∀ j, j < 2 * transformLength s.build → inByte t j = inByte s j) ∧ SameSettings s t

/-- R39, R48, R244, R250: which steps change STATUS. BUSY and CUR_OP change only at acceptance (a CTRL write
of a valid word while idle), completion (the Engine's turn while BUSY) or reset; DONE becomes 1 only at a
completion; ILLEGAL becomes 1 only at the rejection of an invalid word while idle, OVERRUN only at a
CTRL write while BUSY. DONE, ILLEGAL and OVERRUN become 0 only at a STATUS write with their bit, at a
reset, or (DONE) at an acceptance. The event list, and that an empty one is the Engine's turn, are the
model's (log entries 1 and 7). -/
def Obligations.StatusChangesOnlyAtItsEvents : Prop :=
  ∀ s t : State, step s = .next t →
    let engines : Prop := s.status.busy = true ∧ (s.inputs = [] ∨ s.inputs.head? = some .engineTurn)
    let resets : Prop := s.inputs.head? = some .reset
    let writes : Word → Word → Prop := fun a d =>
      s.inputs.head? = some (.busWrite (s.build.base + a) d)
    let clears : Nat → Prop := fun bit => ∃ d, writes 0x010 d ∧ d.getLsbD bit = true
    let accepts : Word → Prop := fun d => s.status.busy = false ∧ validCommand d = true ∧ writes 0x00C d
    (t.status.busy = true → s.status.busy = false → ∃ d, accepts d) ∧
    (t.status.busy = false → s.status.busy = true → engines ∨ resets) ∧
    (t.status.curOp ≠ s.status.curOp →
      resets ∨ ∃ d, accepts d ∧ t.status.curOp = d.extractLsb' 0 4) ∧
    (t.status.done = true → s.status.done = false → engines) ∧
    (t.status.illegal = true → s.status.illegal = false →
      s.status.busy = false ∧ ∃ d, validCommand d = false ∧ writes 0x00C d ∧ t.errCmd = d) ∧
    (t.status.overrun = true → s.status.overrun = false →
      s.status.busy = true ∧ ∃ d, writes 0x00C d ∧ t.errCmd = d) ∧
    (t.status.done = false → s.status.done = true → resets ∨ clears 1 ∨ ∃ d, accepts d) ∧
    (t.status.illegal = false → s.status.illegal = true → resets ∨ clears 2) ∧
    (t.status.overrun = false → s.status.overrun = true → resets ∨ clears 3)

/-- R45, R46: FRAME_COUNT changes only at the completion of DECIM, MAG_FRAME or SPEC_FRAME, to `W`, or at
reset; ERR_CMD changes only at a rejected CTRL write, to its word, or at reset. The event list, and that
an empty one is the Engine's turn, are the model's (log entries 1 and 7). -/
def Obligations.FrameCountAndErrCmdChangeOnlyAtTheirEvents : Prop :=
  ∀ s t : State, s.build.legal = true → step s = .next t →
    (t.frameCount ≠ s.frameCount →
      s.inputs.head? = some .reset ∨
      (s.status.busy = true ∧ (s.inputs = [] ∨ s.inputs.head? = some .engineTurn) ∧
        s.status.curOp ∈ ([0x6, 0x8, 0x9] : List (BitVec 4)) ∧
        t.frameCount = BitVec.ofNat 32 (displayWidth s.build))) ∧
    (t.errCmd ≠ s.errCmd →
      s.inputs.head? = some .reset ∨
      ∃ d, s.inputs.head? = some (.busWrite (s.build.base + 0x00C) d) ∧ t.errCmd = d ∧
        (s.status.busy = true ∨ validCommand d = false))
end

