-- ==== Sys2Proof/Laws/Bus.lean ====
section
/-!
SUPPORT. What each shared operation of issue, bus and step can do, said once.
-/
namespace Sys2Proof.Machine

/-- Offsets from BASE and bus addresses are each other's inverses. -/
@[simp] theorem busOffset_busAddress (b : Build) (a : Word) : busOffset b (busAddress b a) = a := by
  rw [busOffset, busAddress, BitVec.add_comm, BitVec.add_sub_cancel]

@[simp] theorem busAddress_busOffset (b : Build) (x : Word) : busAddress b (busOffset b x) = x := by
  rw [busOffset, busAddress, BitVec.add_comm, BitVec.sub_add_cancel]

/-- The one bus address of an offset. -/
theorem busOffset_eq_iff (b : Build) (x a : Word) : busOffset b x = a ↔ x = b.base + a := by
  constructor
  · rintro rfl; exact (busAddress_busOffset b x).symm
  · rintro rfl; exact busOffset_busAddress b a

/-- All that a CTRL write can do (R240 to R242). -/
theorem issueCommand_cases (d : Word) (s : State) :
    (s.status.busy = true ∧ issueCommand d s = rejectCommand .overrun d s) ∨
    (s.status.busy = false ∧ validCommand d = false ∧ issueCommand d s = rejectCommand .illegal d s) ∨
    (s.status.busy = false ∧ validCommand d = true ∧
      issueCommand d s = s.setStatus (acceptStatus (opField d) s.status)) := by
  unfold issueCommand
  cases s.status.busy <;> cases validCommand d <;> simp

/-- All that an OKAY register write can do (R86). -/
theorem regWrite_cases {s t : State} {a d : Word} (h : regWrite s a d = some t) :
    (a = 0x00C ∧ t = issueCommand d s) ∨
    (a = 0x010 ∧ t = s.setStatus (clearStatus d s.status)) ∨
    (a = 0x014 ∧ t = s.setIrqEn (d.getLsbD 0) (d.getLsbD 1)) ∨
    (s.status.busy = false ∧ a = 0x018 ∧ t = s.setInCount d) ∨
    (s.status.busy = false ∧ a = 0x01C ∧ t = s.setGain d) ∨
    (s.status.busy = false ∧ a = 0x020 ∧ t = s.setBaseline d) := by
  have num {n : Nat} (hn : n < 2 ^ 32) (h : a.toNat = n) : a = BitVec.ofNat 32 n := by
    rw [← h, BitVec.ofNat_toNat, BitVec.setWidth_eq]
  unfold regWrite configWrite at h
  split at h
  · exact .inl ⟨num (by decide) ‹_›, by simpa using h.symm⟩
  · exact .inr (.inl ⟨num (by decide) ‹_›, by simpa using h.symm⟩)
  · exact .inr (.inr (.inl ⟨num (by decide) ‹_›, by simpa using h.symm⟩))
  · cases hb : s.status.busy <;> simp [hb] at h
    exact .inr (.inr (.inr (.inl ⟨rfl, num (by decide) ‹_›, h.symm⟩)))
  · cases hb : s.status.busy <;> simp [hb] at h
    exact .inr (.inr (.inr (.inr (.inl ⟨rfl, num (by decide) ‹_›, h.symm⟩))))
  · cases hb : s.status.busy <;> simp [hb] at h
    exact .inr (.inr (.inr (.inr (.inr ⟨rfl, num (by decide) ‹_›, h.symm⟩))))
  · cases h

/-- Where the offset of each region lies (R89). -/
theorem regionOf_eq_some {a : Word} {r : Region} (h : regionOf a = some r) :
    (r = .regs ∧ a.toNat < 0x100) ∨
    (r = .inRam ∧ a.toNat = inBase + regionOffset a) ∨ (r = .resRam ∧ a.toNat = resBase + regionOffset a) ∨
    (r = .frameRam ∧ a.toNat = frameBase + regionOffset a) ∨
    (r = .workRam ∧ a.toNat = workBase + regionOffset a) ∨
    (r = .winRom ∧ a.toNat = winBase + regionOffset a) ∨ (r = .twRom ∧ a.toNat = twBase + regionOffset a) := by
  unfold regionOffset inBase resBase frameBase workBase winBase twBase
  unfold regionOf at h
  split at h <;> [split at h; skip; skip; skip; skip; skip; skip; skip] <;> cases h
  · exact .inl ⟨rfl, ‹_›⟩
  · exact .inr (.inl ⟨rfl, by omega⟩)
  · exact .inr (.inr (.inl ⟨rfl, by omega⟩))
  · exact .inr (.inr (.inr (.inl ⟨rfl, by omega⟩)))
  · exact .inr (.inr (.inr (.inr (.inl ⟨rfl, by omega⟩))))
  · exact .inr (.inr (.inr (.inr (.inr (.inl ⟨rfl, by omega⟩)))))
  · exact .inr (.inr (.inr (.inr (.inr (.inr ⟨rfl, by omega⟩)))))

/-- An offset inside a RAM region and below its byte size is the offset of a RAM byte. -/
theorem ramAddress_of_region {b : Build} {a : Word} {r : Region} (h : regionOf a = some r)
    (hr : r.isRam = true) (ho : regionOffset a < regionBytes b r) : ramAddress b a.toNat := by
  unfold ramAddress inRange
  obtain ⟨rfl, _⟩ | ⟨rfl, ha⟩ | ⟨rfl, ha⟩ | ⟨rfl, ha⟩ | ⟨rfl, ha⟩ | ⟨rfl, ha⟩ | ⟨rfl, ha⟩ := regionOf_eq_some h
  · cases hr
  · exact .inl (by simp only [regionBytes] at ho; omega)
  · exact .inr (.inl (by simp only [regionBytes] at ho; omega))
  · exact .inr (.inr (.inl (by simp only [regionBytes] at ho; omega)))
  · exact .inr (.inr (.inr (by simp only [regionBytes] at ho; omega)))
  · cases hr
  · cases hr

/-- All that an OKAY write can do (R86): a register write, or, when idle, the store of an aligned word
of RAM. -/
theorem memWrite_cases {s t : State} {a d : Word} (h : memWrite s a d = some t) :
    a.toNat % 4 = 0 ∧
    (regWrite s a d = some t ∨
      (s.status.busy = false ∧ ramAddress s.build a.toNat ∧ t = s.store a.toNat (wordBytes d))) := by
  unfold memWrite at h
  split at h
  · cases h
  · refine ⟨by omega, ?_⟩
    split at h
    · cases h
    · exact .inl h
    · rename_i r _ hr
      right
      split at h
      · cases h
      · split at h
        · cases h
        · split at h
          · cases h
          · rename_i ho hram hb
            simp only [Bool.not_eq_true', Bool.not_eq_false, Bool.not_eq_true, not_le] at ho hram hb
            exact ⟨hb, ramAddress_of_region hr hram ho, by simpa using h.symm⟩

/-- A host write is a recorded response to the state an OKAY write leaves, or ERROR to the same state. -/
theorem busWrite_cases (s : State) (a d : Word) :
    (∃ t, memWrite s a d = some t ∧ busWrite s a d = t.setResp .okay) ∨
    (memWrite s a d = none ∧ busWrite s a d = s.setResp .error) := by
  unfold busWrite
  cases h : memWrite s a d with
  | none => exact .inr ⟨rfl, rfl⟩
  | some t => exact .inl ⟨t, rfl, rfl⟩

/-- A host read changes nothing but the recorded response (R88). -/
theorem busRead_cases (s : State) (a : Word) : ∃ r, busRead s a = s.setResp r := by
  unfold busRead
  cases memRead s a with
  | none => exact ⟨_, rfl⟩
  | some d => exact ⟨_, rfl⟩

/-- What the Engine's turn can do (R220). -/
theorem engineStep_cases {s t : State} (h : engineStep s = .next t) :
    (s.status.busy = false ∧ t = s) ∨
    (s.status.busy = true ∧ ∃ i, decodeOpcode s.status.curOp = some i ∧ exec i s = .next t) := by
  unfold engineStep engineOf at h
  cases hb : s.status.busy
  · simp only [hb, Bool.false_eq_true, if_false] at h
    exact .inl ⟨rfl, by injection h with h; exact h.symm⟩
  · simp only [hb, if_true] at h
    cases hd : decodeOpcode s.status.curOp with
    | none => rw [hd] at h; cases h
    | some i => rw [hd] at h; exact .inr ⟨rfl, i, rfl, h⟩

/-- All that a step can do. -/
theorem step_cases {s t : State} (h : step s = .next t) :
    (s.inputs = [] ∧ engineStep s = .next t) ∨
    ∃ e rest, s.inputs = e :: rest ∧
      ((∃ x, e = .busRead x ∧ t = busRead (s.setInputs rest) (busOffset s.build x)) ∨
       (∃ x d, e = .busWrite x d ∧ t = busWrite (s.setInputs rest) (busOffset s.build x) d) ∨
       (e = .engineTurn ∧ engineStep (s.setInputs rest) = .next t) ∨
       (e = .reset ∧ t = resetPulse (s.setInputs rest))) := by
  unfold step at h
  split at h
  · exact .inl ⟨‹_›, h⟩
  · rename_i e rest he
    refine .inr ⟨e, rest, he, ?_⟩
    cases e with
    | busRead a => injection h with h; exact .inl ⟨a, rfl, h.symm⟩
    | busWrite a d => injection h with h; exact .inr (.inl ⟨a, d, rfl, h.symm⟩)
    | engineTurn => exact .inr (.inr (.inl ⟨rfl, h⟩))
    | reset => injection h with h; exact .inr (.inr (.inr ⟨rfl, h.symm⟩))

/-- What a command's engine step leaves: the state of its pseudocode, completed (R220). -/
theorem exec_cases {i : Instr} {s t : State} (h : exec i s = .next t) :
    ∃ u, t = completeCommand u ∧
      u ∈ [s, runMag s, runWin s, runFft s, runLogp s, runShift s, runDecim s, runMagFrame s, runSpecFrame s] := by
  cases i <;> injection h with h <;> exact ⟨_, h.symm, by simp⟩

/-- Every command has a next state (R220: no command can hang or fault). -/
theorem exec_next (i : Instr) (s : State) : ∃ t, exec i s = .next t := by
  cases i <;> exact ⟨_, rfl⟩

end Sys2Proof.Machine
end

