-- ==== Sys2Proof/Laws/State.lean ====
section
/-!
SUPPORT. One lemma for each field and each update of the state, true by `rfl`, so that no proof unfolds a
record update.
-/
namespace Sys2Proof.Machine

/-! ### `State.setStatus` -/

@[simp] theorem State.setStatus_build (s : State) (st : Status) :
    (s.setStatus st).build = s.build := rfl
@[simp] theorem State.setStatus_status (s : State) (st : Status) :
    (s.setStatus st).status = st := rfl
@[simp] theorem State.setStatus_doneIe (s : State) (st : Status) :
    (s.setStatus st).doneIe = s.doneIe := rfl
@[simp] theorem State.setStatus_errIe (s : State) (st : Status) :
    (s.setStatus st).errIe = s.errIe := rfl
@[simp] theorem State.setStatus_inCount (s : State) (st : Status) :
    (s.setStatus st).inCount = s.inCount := rfl
@[simp] theorem State.setStatus_gain (s : State) (st : Status) :
    (s.setStatus st).gain = s.gain := rfl
@[simp] theorem State.setStatus_baseline (s : State) (st : Status) :
    (s.setStatus st).baseline = s.baseline := rfl
@[simp] theorem State.setStatus_frameCount (s : State) (st : Status) :
    (s.setStatus st).frameCount = s.frameCount := rfl
@[simp] theorem State.setStatus_errCmd (s : State) (st : Status) :
    (s.setStatus st).errCmd = s.errCmd := rfl
@[simp] theorem State.setStatus_mem (s : State) (st : Status) :
    (s.setStatus st).mem = s.mem := rfl
@[simp] theorem State.setStatus_resets (s : State) (st : Status) :
    (s.setStatus st).resets = s.resets := rfl
@[simp] theorem State.setStatus_draws (s : State) (st : Status) :
    (s.setStatus st).draws = s.draws := rfl
@[simp] theorem State.setStatus_inputs (s : State) (st : Status) :
    (s.setStatus st).inputs = s.inputs := rfl
@[simp] theorem State.setStatus_resp (s : State) (st : Status) :
    (s.setStatus st).resp = s.resp := rfl

/-! ### `State.setIrqEn` -/

@[simp] theorem State.setIrqEn_build (s : State) (d e : Bool) :
    (s.setIrqEn d e).build = s.build := rfl
@[simp] theorem State.setIrqEn_status (s : State) (d e : Bool) :
    (s.setIrqEn d e).status = s.status := rfl
@[simp] theorem State.setIrqEn_doneIe (s : State) (d e : Bool) :
    (s.setIrqEn d e).doneIe = d := rfl
@[simp] theorem State.setIrqEn_errIe (s : State) (d e : Bool) :
    (s.setIrqEn d e).errIe = e := rfl
@[simp] theorem State.setIrqEn_inCount (s : State) (d e : Bool) :
    (s.setIrqEn d e).inCount = s.inCount := rfl
@[simp] theorem State.setIrqEn_gain (s : State) (d e : Bool) :
    (s.setIrqEn d e).gain = s.gain := rfl
@[simp] theorem State.setIrqEn_baseline (s : State) (d e : Bool) :
    (s.setIrqEn d e).baseline = s.baseline := rfl
@[simp] theorem State.setIrqEn_frameCount (s : State) (d e : Bool) :
    (s.setIrqEn d e).frameCount = s.frameCount := rfl
@[simp] theorem State.setIrqEn_errCmd (s : State) (d e : Bool) :
    (s.setIrqEn d e).errCmd = s.errCmd := rfl
@[simp] theorem State.setIrqEn_mem (s : State) (d e : Bool) :
    (s.setIrqEn d e).mem = s.mem := rfl
@[simp] theorem State.setIrqEn_resets (s : State) (d e : Bool) :
    (s.setIrqEn d e).resets = s.resets := rfl
@[simp] theorem State.setIrqEn_draws (s : State) (d e : Bool) :
    (s.setIrqEn d e).draws = s.draws := rfl
@[simp] theorem State.setIrqEn_inputs (s : State) (d e : Bool) :
    (s.setIrqEn d e).inputs = s.inputs := rfl
@[simp] theorem State.setIrqEn_resp (s : State) (d e : Bool) :
    (s.setIrqEn d e).resp = s.resp := rfl

/-! ### `State.setInCount` -/

@[simp] theorem State.setInCount_build (s : State) (d : Word) :
    (s.setInCount d).build = s.build := rfl
@[simp] theorem State.setInCount_status (s : State) (d : Word) :
    (s.setInCount d).status = s.status := rfl
@[simp] theorem State.setInCount_doneIe (s : State) (d : Word) :
    (s.setInCount d).doneIe = s.doneIe := rfl
@[simp] theorem State.setInCount_errIe (s : State) (d : Word) :
    (s.setInCount d).errIe = s.errIe := rfl
@[simp] theorem State.setInCount_inCount (s : State) (d : Word) :
    (s.setInCount d).inCount = d := rfl
@[simp] theorem State.setInCount_gain (s : State) (d : Word) :
    (s.setInCount d).gain = s.gain := rfl
@[simp] theorem State.setInCount_baseline (s : State) (d : Word) :
    (s.setInCount d).baseline = s.baseline := rfl
@[simp] theorem State.setInCount_frameCount (s : State) (d : Word) :
    (s.setInCount d).frameCount = s.frameCount := rfl
@[simp] theorem State.setInCount_errCmd (s : State) (d : Word) :
    (s.setInCount d).errCmd = s.errCmd := rfl
@[simp] theorem State.setInCount_mem (s : State) (d : Word) :
    (s.setInCount d).mem = s.mem := rfl
@[simp] theorem State.setInCount_resets (s : State) (d : Word) :
    (s.setInCount d).resets = s.resets := rfl
@[simp] theorem State.setInCount_draws (s : State) (d : Word) :
    (s.setInCount d).draws = s.draws := rfl
@[simp] theorem State.setInCount_inputs (s : State) (d : Word) :
    (s.setInCount d).inputs = s.inputs := rfl
@[simp] theorem State.setInCount_resp (s : State) (d : Word) :
    (s.setInCount d).resp = s.resp := rfl

/-! ### `State.setGain` -/

@[simp] theorem State.setGain_build (s : State) (d : Word) :
    (s.setGain d).build = s.build := rfl
@[simp] theorem State.setGain_status (s : State) (d : Word) :
    (s.setGain d).status = s.status := rfl
@[simp] theorem State.setGain_doneIe (s : State) (d : Word) :
    (s.setGain d).doneIe = s.doneIe := rfl
@[simp] theorem State.setGain_errIe (s : State) (d : Word) :
    (s.setGain d).errIe = s.errIe := rfl
@[simp] theorem State.setGain_inCount (s : State) (d : Word) :
    (s.setGain d).inCount = s.inCount := rfl
@[simp] theorem State.setGain_gain (s : State) (d : Word) :
    (s.setGain d).gain = d := rfl
@[simp] theorem State.setGain_baseline (s : State) (d : Word) :
    (s.setGain d).baseline = s.baseline := rfl
@[simp] theorem State.setGain_frameCount (s : State) (d : Word) :
    (s.setGain d).frameCount = s.frameCount := rfl
@[simp] theorem State.setGain_errCmd (s : State) (d : Word) :
    (s.setGain d).errCmd = s.errCmd := rfl
@[simp] theorem State.setGain_mem (s : State) (d : Word) :
    (s.setGain d).mem = s.mem := rfl
@[simp] theorem State.setGain_resets (s : State) (d : Word) :
    (s.setGain d).resets = s.resets := rfl
@[simp] theorem State.setGain_draws (s : State) (d : Word) :
    (s.setGain d).draws = s.draws := rfl
@[simp] theorem State.setGain_inputs (s : State) (d : Word) :
    (s.setGain d).inputs = s.inputs := rfl
@[simp] theorem State.setGain_resp (s : State) (d : Word) :
    (s.setGain d).resp = s.resp := rfl

/-! ### `State.setBaseline` -/

@[simp] theorem State.setBaseline_build (s : State) (d : Word) :
    (s.setBaseline d).build = s.build := rfl
@[simp] theorem State.setBaseline_status (s : State) (d : Word) :
    (s.setBaseline d).status = s.status := rfl
@[simp] theorem State.setBaseline_doneIe (s : State) (d : Word) :
    (s.setBaseline d).doneIe = s.doneIe := rfl
@[simp] theorem State.setBaseline_errIe (s : State) (d : Word) :
    (s.setBaseline d).errIe = s.errIe := rfl
@[simp] theorem State.setBaseline_inCount (s : State) (d : Word) :
    (s.setBaseline d).inCount = s.inCount := rfl
@[simp] theorem State.setBaseline_gain (s : State) (d : Word) :
    (s.setBaseline d).gain = s.gain := rfl
@[simp] theorem State.setBaseline_baseline (s : State) (d : Word) :
    (s.setBaseline d).baseline = d := rfl
@[simp] theorem State.setBaseline_frameCount (s : State) (d : Word) :
    (s.setBaseline d).frameCount = s.frameCount := rfl
@[simp] theorem State.setBaseline_errCmd (s : State) (d : Word) :
    (s.setBaseline d).errCmd = s.errCmd := rfl
@[simp] theorem State.setBaseline_mem (s : State) (d : Word) :
    (s.setBaseline d).mem = s.mem := rfl
@[simp] theorem State.setBaseline_resets (s : State) (d : Word) :
    (s.setBaseline d).resets = s.resets := rfl
@[simp] theorem State.setBaseline_draws (s : State) (d : Word) :
    (s.setBaseline d).draws = s.draws := rfl
@[simp] theorem State.setBaseline_inputs (s : State) (d : Word) :
    (s.setBaseline d).inputs = s.inputs := rfl
@[simp] theorem State.setBaseline_resp (s : State) (d : Word) :
    (s.setBaseline d).resp = s.resp := rfl

/-! ### `State.setFrameCount` -/

@[simp] theorem State.setFrameCount_build (s : State) (d : Word) :
    (s.setFrameCount d).build = s.build := rfl
@[simp] theorem State.setFrameCount_status (s : State) (d : Word) :
    (s.setFrameCount d).status = s.status := rfl
@[simp] theorem State.setFrameCount_doneIe (s : State) (d : Word) :
    (s.setFrameCount d).doneIe = s.doneIe := rfl
@[simp] theorem State.setFrameCount_errIe (s : State) (d : Word) :
    (s.setFrameCount d).errIe = s.errIe := rfl
@[simp] theorem State.setFrameCount_inCount (s : State) (d : Word) :
    (s.setFrameCount d).inCount = s.inCount := rfl
@[simp] theorem State.setFrameCount_gain (s : State) (d : Word) :
    (s.setFrameCount d).gain = s.gain := rfl
@[simp] theorem State.setFrameCount_baseline (s : State) (d : Word) :
    (s.setFrameCount d).baseline = s.baseline := rfl
@[simp] theorem State.setFrameCount_frameCount (s : State) (d : Word) :
    (s.setFrameCount d).frameCount = d := rfl
@[simp] theorem State.setFrameCount_errCmd (s : State) (d : Word) :
    (s.setFrameCount d).errCmd = s.errCmd := rfl
@[simp] theorem State.setFrameCount_mem (s : State) (d : Word) :
    (s.setFrameCount d).mem = s.mem := rfl
@[simp] theorem State.setFrameCount_resets (s : State) (d : Word) :
    (s.setFrameCount d).resets = s.resets := rfl
@[simp] theorem State.setFrameCount_draws (s : State) (d : Word) :
    (s.setFrameCount d).draws = s.draws := rfl
@[simp] theorem State.setFrameCount_inputs (s : State) (d : Word) :
    (s.setFrameCount d).inputs = s.inputs := rfl
@[simp] theorem State.setFrameCount_resp (s : State) (d : Word) :
    (s.setFrameCount d).resp = s.resp := rfl

/-! ### `State.setErrCmd` -/

@[simp] theorem State.setErrCmd_build (s : State) (d : Word) :
    (s.setErrCmd d).build = s.build := rfl
@[simp] theorem State.setErrCmd_status (s : State) (d : Word) :
    (s.setErrCmd d).status = s.status := rfl
@[simp] theorem State.setErrCmd_doneIe (s : State) (d : Word) :
    (s.setErrCmd d).doneIe = s.doneIe := rfl
@[simp] theorem State.setErrCmd_errIe (s : State) (d : Word) :
    (s.setErrCmd d).errIe = s.errIe := rfl
@[simp] theorem State.setErrCmd_inCount (s : State) (d : Word) :
    (s.setErrCmd d).inCount = s.inCount := rfl
@[simp] theorem State.setErrCmd_gain (s : State) (d : Word) :
    (s.setErrCmd d).gain = s.gain := rfl
@[simp] theorem State.setErrCmd_baseline (s : State) (d : Word) :
    (s.setErrCmd d).baseline = s.baseline := rfl
@[simp] theorem State.setErrCmd_frameCount (s : State) (d : Word) :
    (s.setErrCmd d).frameCount = s.frameCount := rfl
@[simp] theorem State.setErrCmd_errCmd (s : State) (d : Word) :
    (s.setErrCmd d).errCmd = d := rfl
@[simp] theorem State.setErrCmd_mem (s : State) (d : Word) :
    (s.setErrCmd d).mem = s.mem := rfl
@[simp] theorem State.setErrCmd_resets (s : State) (d : Word) :
    (s.setErrCmd d).resets = s.resets := rfl
@[simp] theorem State.setErrCmd_draws (s : State) (d : Word) :
    (s.setErrCmd d).draws = s.draws := rfl
@[simp] theorem State.setErrCmd_inputs (s : State) (d : Word) :
    (s.setErrCmd d).inputs = s.inputs := rfl
@[simp] theorem State.setErrCmd_resp (s : State) (d : Word) :
    (s.setErrCmd d).resp = s.resp := rfl

/-! ### `State.store` -/

@[simp] theorem State.store_build (s : State) (a : Nat) (bs : List Byte) :
    (s.store a bs).build = s.build := rfl
@[simp] theorem State.store_status (s : State) (a : Nat) (bs : List Byte) :
    (s.store a bs).status = s.status := rfl
@[simp] theorem State.store_doneIe (s : State) (a : Nat) (bs : List Byte) :
    (s.store a bs).doneIe = s.doneIe := rfl
@[simp] theorem State.store_errIe (s : State) (a : Nat) (bs : List Byte) :
    (s.store a bs).errIe = s.errIe := rfl
@[simp] theorem State.store_inCount (s : State) (a : Nat) (bs : List Byte) :
    (s.store a bs).inCount = s.inCount := rfl
@[simp] theorem State.store_gain (s : State) (a : Nat) (bs : List Byte) :
    (s.store a bs).gain = s.gain := rfl
@[simp] theorem State.store_baseline (s : State) (a : Nat) (bs : List Byte) :
    (s.store a bs).baseline = s.baseline := rfl
@[simp] theorem State.store_frameCount (s : State) (a : Nat) (bs : List Byte) :
    (s.store a bs).frameCount = s.frameCount := rfl
@[simp] theorem State.store_errCmd (s : State) (a : Nat) (bs : List Byte) :
    (s.store a bs).errCmd = s.errCmd := rfl
@[simp] theorem State.store_mem (s : State) (a : Nat) (bs : List Byte) :
    (s.store a bs).mem = memStore s.mem a bs := rfl
@[simp] theorem State.store_resets (s : State) (a : Nat) (bs : List Byte) :
    (s.store a bs).resets = s.resets := rfl
@[simp] theorem State.store_draws (s : State) (a : Nat) (bs : List Byte) :
    (s.store a bs).draws = s.draws := rfl
@[simp] theorem State.store_inputs (s : State) (a : Nat) (bs : List Byte) :
    (s.store a bs).inputs = s.inputs := rfl
@[simp] theorem State.store_resp (s : State) (a : Nat) (bs : List Byte) :
    (s.store a bs).resp = s.resp := rfl

/-! ### `State.nextDraws` -/

@[simp] theorem State.nextDraws_build (s : State) :
    (s.nextDraws).build = s.build := rfl
@[simp] theorem State.nextDraws_status (s : State) :
    (s.nextDraws).status = s.status := rfl
@[simp] theorem State.nextDraws_doneIe (s : State) :
    (s.nextDraws).doneIe = s.doneIe := rfl
@[simp] theorem State.nextDraws_errIe (s : State) :
    (s.nextDraws).errIe = s.errIe := rfl
@[simp] theorem State.nextDraws_inCount (s : State) :
    (s.nextDraws).inCount = s.inCount := rfl
@[simp] theorem State.nextDraws_gain (s : State) :
    (s.nextDraws).gain = s.gain := rfl
@[simp] theorem State.nextDraws_baseline (s : State) :
    (s.nextDraws).baseline = s.baseline := rfl
@[simp] theorem State.nextDraws_frameCount (s : State) :
    (s.nextDraws).frameCount = s.frameCount := rfl
@[simp] theorem State.nextDraws_errCmd (s : State) :
    (s.nextDraws).errCmd = s.errCmd := rfl
@[simp] theorem State.nextDraws_mem (s : State) :
    (s.nextDraws).mem = s.mem := rfl
@[simp] theorem State.nextDraws_resets (s : State) :
    (s.nextDraws).resets = s.resets := rfl
@[simp] theorem State.nextDraws_draws (s : State) :
    (s.nextDraws).draws = s.draws + 1 := rfl
@[simp] theorem State.nextDraws_inputs (s : State) :
    (s.nextDraws).inputs = s.inputs := rfl
@[simp] theorem State.nextDraws_resp (s : State) :
    (s.nextDraws).resp = s.resp := rfl

/-! ### `State.setInputs` -/

@[simp] theorem State.setInputs_build (s : State) (es : List Event) :
    (s.setInputs es).build = s.build := rfl
@[simp] theorem State.setInputs_status (s : State) (es : List Event) :
    (s.setInputs es).status = s.status := rfl
@[simp] theorem State.setInputs_doneIe (s : State) (es : List Event) :
    (s.setInputs es).doneIe = s.doneIe := rfl
@[simp] theorem State.setInputs_errIe (s : State) (es : List Event) :
    (s.setInputs es).errIe = s.errIe := rfl
@[simp] theorem State.setInputs_inCount (s : State) (es : List Event) :
    (s.setInputs es).inCount = s.inCount := rfl
@[simp] theorem State.setInputs_gain (s : State) (es : List Event) :
    (s.setInputs es).gain = s.gain := rfl
@[simp] theorem State.setInputs_baseline (s : State) (es : List Event) :
    (s.setInputs es).baseline = s.baseline := rfl
@[simp] theorem State.setInputs_frameCount (s : State) (es : List Event) :
    (s.setInputs es).frameCount = s.frameCount := rfl
@[simp] theorem State.setInputs_errCmd (s : State) (es : List Event) :
    (s.setInputs es).errCmd = s.errCmd := rfl
@[simp] theorem State.setInputs_mem (s : State) (es : List Event) :
    (s.setInputs es).mem = s.mem := rfl
@[simp] theorem State.setInputs_resets (s : State) (es : List Event) :
    (s.setInputs es).resets = s.resets := rfl
@[simp] theorem State.setInputs_draws (s : State) (es : List Event) :
    (s.setInputs es).draws = s.draws := rfl
@[simp] theorem State.setInputs_inputs (s : State) (es : List Event) :
    (s.setInputs es).inputs = es := rfl
@[simp] theorem State.setInputs_resp (s : State) (es : List Event) :
    (s.setInputs es).resp = s.resp := rfl

/-! ### `State.setResp` -/

@[simp] theorem State.setResp_build (s : State) (r : Response) :
    (s.setResp r).build = s.build := rfl
@[simp] theorem State.setResp_status (s : State) (r : Response) :
    (s.setResp r).status = s.status := rfl
@[simp] theorem State.setResp_doneIe (s : State) (r : Response) :
    (s.setResp r).doneIe = s.doneIe := rfl
@[simp] theorem State.setResp_errIe (s : State) (r : Response) :
    (s.setResp r).errIe = s.errIe := rfl
@[simp] theorem State.setResp_inCount (s : State) (r : Response) :
    (s.setResp r).inCount = s.inCount := rfl
@[simp] theorem State.setResp_gain (s : State) (r : Response) :
    (s.setResp r).gain = s.gain := rfl
@[simp] theorem State.setResp_baseline (s : State) (r : Response) :
    (s.setResp r).baseline = s.baseline := rfl
@[simp] theorem State.setResp_frameCount (s : State) (r : Response) :
    (s.setResp r).frameCount = s.frameCount := rfl
@[simp] theorem State.setResp_errCmd (s : State) (r : Response) :
    (s.setResp r).errCmd = s.errCmd := rfl
@[simp] theorem State.setResp_mem (s : State) (r : Response) :
    (s.setResp r).mem = s.mem := rfl
@[simp] theorem State.setResp_resets (s : State) (r : Response) :
    (s.setResp r).resets = s.resets := rfl
@[simp] theorem State.setResp_draws (s : State) (r : Response) :
    (s.setResp r).draws = s.draws := rfl
@[simp] theorem State.setResp_inputs (s : State) (r : Response) :
    (s.setResp r).inputs = s.inputs := rfl
@[simp] theorem State.setResp_resp (s : State) (r : Response) :
    (s.setResp r).resp = some r := rfl

/-! ### `State.writeRes` -/

@[simp] theorem State.writeRes_build (s : State) (hs : List Half) :
    (s.writeRes hs).build = s.build := rfl
@[simp] theorem State.writeRes_status (s : State) (hs : List Half) :
    (s.writeRes hs).status = s.status := rfl
@[simp] theorem State.writeRes_doneIe (s : State) (hs : List Half) :
    (s.writeRes hs).doneIe = s.doneIe := rfl
@[simp] theorem State.writeRes_errIe (s : State) (hs : List Half) :
    (s.writeRes hs).errIe = s.errIe := rfl
@[simp] theorem State.writeRes_inCount (s : State) (hs : List Half) :
    (s.writeRes hs).inCount = s.inCount := rfl
@[simp] theorem State.writeRes_gain (s : State) (hs : List Half) :
    (s.writeRes hs).gain = s.gain := rfl
@[simp] theorem State.writeRes_baseline (s : State) (hs : List Half) :
    (s.writeRes hs).baseline = s.baseline := rfl
@[simp] theorem State.writeRes_frameCount (s : State) (hs : List Half) :
    (s.writeRes hs).frameCount = s.frameCount := rfl
@[simp] theorem State.writeRes_errCmd (s : State) (hs : List Half) :
    (s.writeRes hs).errCmd = s.errCmd := rfl
@[simp] theorem State.writeRes_mem (s : State) (hs : List Half) :
    (s.writeRes hs).mem = memStore s.mem resBase (hs.flatMap halfBytes) := rfl
@[simp] theorem State.writeRes_resets (s : State) (hs : List Half) :
    (s.writeRes hs).resets = s.resets := rfl
@[simp] theorem State.writeRes_draws (s : State) (hs : List Half) :
    (s.writeRes hs).draws = s.draws := rfl
@[simp] theorem State.writeRes_inputs (s : State) (hs : List Half) :
    (s.writeRes hs).inputs = s.inputs := rfl
@[simp] theorem State.writeRes_resp (s : State) (hs : List Half) :
    (s.writeRes hs).resp = s.resp := rfl

/-! ### `State.writeWork` -/

@[simp] theorem State.writeWork_build (s : State) (zs : List (F64 × F64)) :
    (s.writeWork zs).build = s.build := rfl
@[simp] theorem State.writeWork_status (s : State) (zs : List (F64 × F64)) :
    (s.writeWork zs).status = s.status := rfl
@[simp] theorem State.writeWork_doneIe (s : State) (zs : List (F64 × F64)) :
    (s.writeWork zs).doneIe = s.doneIe := rfl
@[simp] theorem State.writeWork_errIe (s : State) (zs : List (F64 × F64)) :
    (s.writeWork zs).errIe = s.errIe := rfl
@[simp] theorem State.writeWork_inCount (s : State) (zs : List (F64 × F64)) :
    (s.writeWork zs).inCount = s.inCount := rfl
@[simp] theorem State.writeWork_gain (s : State) (zs : List (F64 × F64)) :
    (s.writeWork zs).gain = s.gain := rfl
@[simp] theorem State.writeWork_baseline (s : State) (zs : List (F64 × F64)) :
    (s.writeWork zs).baseline = s.baseline := rfl
@[simp] theorem State.writeWork_frameCount (s : State) (zs : List (F64 × F64)) :
    (s.writeWork zs).frameCount = s.frameCount := rfl
@[simp] theorem State.writeWork_errCmd (s : State) (zs : List (F64 × F64)) :
    (s.writeWork zs).errCmd = s.errCmd := rfl
@[simp] theorem State.writeWork_mem (s : State) (zs : List (F64 × F64)) :
    (s.writeWork zs).mem = memStore s.mem workBase (zs.flatMap workBytes) := rfl
@[simp] theorem State.writeWork_resets (s : State) (zs : List (F64 × F64)) :
    (s.writeWork zs).resets = s.resets := rfl
@[simp] theorem State.writeWork_draws (s : State) (zs : List (F64 × F64)) :
    (s.writeWork zs).draws = s.draws := rfl
@[simp] theorem State.writeWork_inputs (s : State) (zs : List (F64 × F64)) :
    (s.writeWork zs).inputs = s.inputs := rfl
@[simp] theorem State.writeWork_resp (s : State) (zs : List (F64 × F64)) :
    (s.writeWork zs).resp = s.resp := rfl

/-! ### `State.writeFrame` -/

@[simp] theorem State.writeFrame_build (s : State) (ps : List (Word × Word)) :
    (s.writeFrame ps).build = s.build := rfl
@[simp] theorem State.writeFrame_status (s : State) (ps : List (Word × Word)) :
    (s.writeFrame ps).status = s.status := rfl
@[simp] theorem State.writeFrame_doneIe (s : State) (ps : List (Word × Word)) :
    (s.writeFrame ps).doneIe = s.doneIe := rfl
@[simp] theorem State.writeFrame_errIe (s : State) (ps : List (Word × Word)) :
    (s.writeFrame ps).errIe = s.errIe := rfl
@[simp] theorem State.writeFrame_inCount (s : State) (ps : List (Word × Word)) :
    (s.writeFrame ps).inCount = s.inCount := rfl
@[simp] theorem State.writeFrame_gain (s : State) (ps : List (Word × Word)) :
    (s.writeFrame ps).gain = s.gain := rfl
@[simp] theorem State.writeFrame_baseline (s : State) (ps : List (Word × Word)) :
    (s.writeFrame ps).baseline = s.baseline := rfl
@[simp] theorem State.writeFrame_frameCount (s : State) (ps : List (Word × Word)) :
    (s.writeFrame ps).frameCount = s.frameCount := rfl
@[simp] theorem State.writeFrame_errCmd (s : State) (ps : List (Word × Word)) :
    (s.writeFrame ps).errCmd = s.errCmd := rfl
@[simp] theorem State.writeFrame_mem (s : State) (ps : List (Word × Word)) :
    (s.writeFrame ps).mem = memStore s.mem frameBase (ps.flatMap pointBytes) := rfl
@[simp] theorem State.writeFrame_resets (s : State) (ps : List (Word × Word)) :
    (s.writeFrame ps).resets = s.resets := rfl
@[simp] theorem State.writeFrame_draws (s : State) (ps : List (Word × Word)) :
    (s.writeFrame ps).draws = s.draws := rfl
@[simp] theorem State.writeFrame_inputs (s : State) (ps : List (Word × Word)) :
    (s.writeFrame ps).inputs = s.inputs := rfl
@[simp] theorem State.writeFrame_resp (s : State) (ps : List (Word × Word)) :
    (s.writeFrame ps).resp = s.resp := rfl

/-! ### `completeCommand` -/

@[simp] theorem completeCommand_build (s : State) : (completeCommand s).build = s.build := rfl
@[simp] theorem completeCommand_status (s : State) : (completeCommand s).status = completeStatus s.status := rfl
@[simp] theorem completeCommand_doneIe (s : State) : (completeCommand s).doneIe = s.doneIe := rfl
@[simp] theorem completeCommand_errIe (s : State) : (completeCommand s).errIe = s.errIe := rfl
@[simp] theorem completeCommand_inCount (s : State) : (completeCommand s).inCount = s.inCount := rfl
@[simp] theorem completeCommand_gain (s : State) : (completeCommand s).gain = s.gain := rfl
@[simp] theorem completeCommand_baseline (s : State) : (completeCommand s).baseline = s.baseline := rfl
@[simp] theorem completeCommand_frameCount (s : State) : (completeCommand s).frameCount = s.frameCount := rfl
@[simp] theorem completeCommand_errCmd (s : State) : (completeCommand s).errCmd = s.errCmd := rfl
@[simp] theorem completeCommand_mem (s : State) : (completeCommand s).mem = s.mem := rfl
@[simp] theorem completeCommand_resets (s : State) : (completeCommand s).resets = s.resets := rfl
@[simp] theorem completeCommand_draws (s : State) : (completeCommand s).draws = s.draws := rfl
@[simp] theorem completeCommand_inputs (s : State) : (completeCommand s).inputs = s.inputs := rfl
@[simp] theorem completeCommand_resp (s : State) : (completeCommand s).resp = s.resp := rfl

/-! ### `State.resetOf` -/

@[simp] theorem State.resetOf_build (b : Build) (r d : Nat) (es : List Event) :
    (State.resetOf b r d es).build = b := rfl
@[simp] theorem State.resetOf_status (b : Build) (r d : Nat) (es : List Event) :
    (State.resetOf b r d es).status = Status.reset := rfl
@[simp] theorem State.resetOf_doneIe (b : Build) (r d : Nat) (es : List Event) :
    (State.resetOf b r d es).doneIe = false := rfl
@[simp] theorem State.resetOf_errIe (b : Build) (r d : Nat) (es : List Event) :
    (State.resetOf b r d es).errIe = false := rfl
@[simp] theorem State.resetOf_inCount (b : Build) (r d : Nat) (es : List Event) :
    (State.resetOf b r d es).inCount = 0 := rfl
@[simp] theorem State.resetOf_gain (b : Build) (r d : Nat) (es : List Event) :
    (State.resetOf b r d es).gain = 0x00010000 := rfl
@[simp] theorem State.resetOf_baseline (b : Build) (r d : Nat) (es : List Event) :
    (State.resetOf b r d es).baseline = 0 := rfl
@[simp] theorem State.resetOf_frameCount (b : Build) (r d : Nat) (es : List Event) :
    (State.resetOf b r d es).frameCount = 0 := rfl
@[simp] theorem State.resetOf_errCmd (b : Build) (r d : Nat) (es : List Event) :
    (State.resetOf b r d es).errCmd = 0 := rfl
@[simp] theorem State.resetOf_mem (b : Build) (r d : Nat) (es : List Event) :
    (State.resetOf b r d es).mem = [] := rfl
@[simp] theorem State.resetOf_resets (b : Build) (r d : Nat) (es : List Event) :
    (State.resetOf b r d es).resets = r := rfl
@[simp] theorem State.resetOf_draws (b : Build) (r d : Nat) (es : List Event) :
    (State.resetOf b r d es).draws = d := rfl
@[simp] theorem State.resetOf_inputs (b : Build) (r d : Nat) (es : List Event) :
    (State.resetOf b r d es).inputs = es := rfl
@[simp] theorem State.resetOf_resp (b : Build) (r d : Nat) (es : List Event) :
    (State.resetOf b r d es).resp = none := rfl

/-! ### STATUS updates -/

@[simp] theorem acceptStatus_busy (op : BitVec 4) (st : Status) : (acceptStatus op st).busy = true := rfl
@[simp] theorem acceptStatus_done (op : BitVec 4) (st : Status) : (acceptStatus op st).done = false := rfl
@[simp] theorem acceptStatus_illegal (op : BitVec 4) (st : Status) : (acceptStatus op st).illegal = st.illegal := rfl
@[simp] theorem acceptStatus_overrun (op : BitVec 4) (st : Status) : (acceptStatus op st).overrun = st.overrun := rfl
@[simp] theorem acceptStatus_curOp (op : BitVec 4) (st : Status) : (acceptStatus op st).curOp = op := rfl
@[simp] theorem completeStatus_busy (st : Status) : (completeStatus st).busy = false := rfl
@[simp] theorem completeStatus_done (st : Status) : (completeStatus st).done = true := rfl
@[simp] theorem completeStatus_illegal (st : Status) : (completeStatus st).illegal = st.illegal := rfl
@[simp] theorem completeStatus_overrun (st : Status) : (completeStatus st).overrun = st.overrun := rfl
@[simp] theorem completeStatus_curOp (st : Status) : (completeStatus st).curOp = st.curOp := rfl
@[simp] theorem clearStatus_busy (d : Word) (st : Status) : (clearStatus d st).busy = st.busy := rfl
@[simp] theorem clearStatus_done (d : Word) (st : Status) : (clearStatus d st).done = (st.done && !d.getLsbD 1) := rfl
@[simp] theorem clearStatus_illegal (d : Word) (st : Status) : (clearStatus d st).illegal = (st.illegal && !d.getLsbD 2) := rfl
@[simp] theorem clearStatus_overrun (d : Word) (st : Status) : (clearStatus d st).overrun = (st.overrun && !d.getLsbD 3) := rfl
@[simp] theorem clearStatus_curOp (d : Word) (st : Status) : (clearStatus d st).curOp = st.curOp := rfl

end Sys2Proof.Machine
end

