-- ==== Sys2Proof/Laws/Memory.lean ====
section
/-!
SUPPORT. What the memory operations do: reading after a store, the bytes a store leaves alone, and the
canonical form, which every store keeps.
-/
namespace Sys2Proof.Machine

/-! ### Reading after a store -/

theorem memFind_append (m k : Memory) (a : Nat) :
    memFind (m ++ k) a = (memFind m a).or (memFind k a) := by
  induction m with
  | nil => simp [memFind]
  | cons c m ih => by_cases h : c.1 = a <;> simp [memFind, h, ih]

theorem memFind_eq_none_of_forall (m : Memory) (a : Nat) (h : ∀ c ∈ m, c.1 ≠ a) :
    memFind m a = none := by
  induction m with
  | nil => rfl
  | cons c m ih =>
    simp only [memFind, if_neg (h c (by simp))]
    exact ih fun c' hc' => h c' (by simp [hc'])

theorem memFind_filter_keep (p : Nat → Bool) (m : Memory) (a : Nat) (h : p a = true) :
    memFind (m.filter fun c => p c.1) a = memFind m a := by
  induction m with
  | nil => rfl
  | cons c m ih =>
    by_cases hc : c.1 = a
    · subst hc; simp [h, memFind]
    · by_cases hp : p c.1 = true <;> simp [hp, memFind, hc, ih]

theorem memFind_filter_drop (p : Nat → Bool) (m : Memory) (a : Nat) (h : p a = false) :
    memFind (m.filter fun c => p c.1) a = none := by
  apply memFind_eq_none_of_forall
  intro c hc hca
  have := (List.mem_filter.mp hc).2
  simp_all

theorem memFind_cellsAt (bs : List Byte) (a x : Nat) :
    memFind (cellsAt a bs) x = if a ≤ x then bs[x - a]? else none := by
  induction bs generalizing a with
  | nil => simp [cellsAt, memFind]
  | cons b bs ih =>
    simp only [cellsAt, memFind, ih]
    rcases Nat.lt_trichotomy a x with h | h | h
    · have : x - a = (x - (a + 1)) + 1 := by omega
      simp [this, Nat.ne_of_lt h, Nat.le_of_lt h, Nat.succ_le_of_lt h]
    · subst h; simp
    · simp [Nat.ne_of_gt h, Nat.not_le_of_lt h, show ¬ a + 1 ≤ x by omega]

/-- Reading one byte after a store: inside the run the stored byte, outside it the byte as before. -/
theorem memFind_memStore (m : Memory) (a : Nat) (bs : List Byte) (x : Nat) :
    memFind (memStore m a bs) x =
      if a ≤ x ∧ x < a + bs.length then bs[x - a]? else memFind m x := by
  simp only [memStore, memFind_append, memFind_cellsAt]
  by_cases h1 : x < a
  · rw [memFind_filter_keep (fun y => decide (y < a)) m x (by simpa using h1),
      memFind_filter_drop (fun y => decide (a + bs.length ≤ y)) m x (by simp; omega)]
    simp [Nat.not_le_of_lt h1]
  · rw [memFind_filter_drop (fun y => decide (y < a)) m x (by simpa using h1)]
    by_cases h2 : x < a + bs.length
    · rw [memFind_filter_drop (fun y => decide (a + bs.length ≤ y)) m x (by simp; omega)]
      simp [Nat.le_of_not_lt h1, h2]
    · rw [memFind_filter_keep (fun y => decide (a + bs.length ≤ y)) m x (by simp; omega)]
      have : bs.length ≤ x - a := by omega
      simp [Nat.le_of_not_lt h1, h2, this]

/-! ### One RAM byte -/

/-- A RAM byte depends on the memory and the reset counter alone. -/
theorem ramByte_congr {s t : State} (hm : t.mem = s.mem) (hr : t.resets = s.resets) (a : Nat) :
    ramByte t a = ramByte s a := by simp [ramByte, hm, hr]

/-- A stored byte reads back. -/
theorem ramByte_store_inside (s : State) (a : Nat) (bs : List Byte) (i : Nat) (h : i < bs.length) :
    ramByte (s.store a bs) (a + i) = bs[i] := by
  simp [ramByte, memFind_memStore, h]

/-- A byte outside the stored run reads as before. -/
theorem ramByte_store_outside (s : State) (a : Nat) (bs : List Byte) (x : Nat)
    (h : x < a ∨ a + bs.length ≤ x) : ramByte (s.store a bs) x = ramByte s x := by
  have : ¬ (a ≤ x ∧ x < a + bs.length) := by omega
  simp [ramByte, memFind_memStore, this]

/-! ### The canonical form -/

theorem memWf_cons (c : Host.Cell) (m : Memory) :
    memWf (c :: m) = true ↔ (∀ c' ∈ m, c.1 < c'.1) ∧ memWf m = true := by
  simp [memWf]

theorem memWf_append (m k : Memory) (hm : memWf m = true) (hk : memWf k = true)
    (h : ∀ c ∈ m, ∀ c' ∈ k, c.1 < c'.1) : memWf (m ++ k) = true := by
  induction m with
  | nil => simpa using hk
  | cons c m ih =>
    rw [memWf_cons] at hm
    rw [List.cons_append, memWf_cons]
    refine ⟨fun c' hc' => ?_, ih hm.2 fun d hd => h d (by simp [hd])⟩
    rcases List.mem_append.mp hc' with h' | h'
    · exact hm.1 c' h'
    · exact h c (by simp) c' h'

theorem memWf_filter (p : Host.Cell → Bool) (m : Memory) (hm : memWf m = true) :
    memWf (m.filter p) = true := by
  induction m with
  | nil => rfl
  | cons c m ih =>
    rw [memWf_cons] at hm
    rw [List.filter_cons]
    split
    · rw [memWf_cons]
      exact ⟨fun c' hc' => hm.1 c' (List.mem_filter.mp hc').1, ih hm.2⟩
    · exact ih hm.2

theorem mem_cellsAt_bounds (bs : List Byte) (a : Nat) (c : Host.Cell) (h : c ∈ cellsAt a bs) :
    a ≤ c.1 ∧ c.1 < a + bs.length := by
  induction bs generalizing a with
  | nil => simp [cellsAt] at h
  | cons b bs ih =>
    rcases List.mem_cons.mp h with rfl | h'
    · simp
    · have := ih (a + 1) h'
      simp only [List.length_cons]; omega

theorem memWf_cellsAt (bs : List Byte) (a : Nat) : memWf (cellsAt a bs) = true := by
  induction bs generalizing a with
  | nil => rfl
  | cons b bs ih =>
    rw [cellsAt, memWf_cons]
    refine ⟨fun c hc => ?_, ih (a + 1)⟩
    have := mem_cellsAt_bounds bs (a + 1) c hc
    exact this.1

/-- Every store keeps the canonical form. -/
theorem memWf_memStore (m : Memory) (a : Nat) (bs : List Byte) (hm : memWf m = true) :
    memWf (memStore m a bs) = true := by
  unfold memStore
  refine memWf_append _ _ (memWf_append _ _ (memWf_filter _ _ hm) (memWf_cellsAt bs a) ?_)
    (memWf_filter _ _ hm) ?_
  · intro c hc c' hc'
    have h1 := (List.mem_filter.mp hc).2
    have h2 := mem_cellsAt_bounds bs a c' hc'
    simp at h1; omega
  · intro c hc c' hc'
    have h2 := (List.mem_filter.mp hc').2
    simp only [decide_eq_true_eq] at h2
    rcases List.mem_append.mp hc with h | h
    · have h1 := (List.mem_filter.mp h).2
      simp only [decide_eq_true_eq] at h1; omega
    · have h1 := mem_cellsAt_bounds bs a c h
      omega

/-- What a stored memory lists: bytes listed before, and the stored run. -/
theorem mem_memStore (m : Memory) (a : Nat) (bs : List Byte) (c : Host.Cell) (h : c ∈ memStore m a bs) :
    c ∈ m ∨ (a ≤ c.1 ∧ c.1 < a + bs.length) := by
  unfold memStore at h
  rcases List.mem_append.mp h with h | h
  · rcases List.mem_append.mp h with h | h
    · exact .inl (List.mem_filter.mp h).1
    · exact .inr (mem_cellsAt_bounds bs a c h)
  · exact .inl (List.mem_filter.mp h).1

/-- The memory after reset has the canonical form. -/
theorem memWf_reset : memWf State.reset.mem = true := rfl

end Sys2Proof.Machine
end

