-- ==== Sys2Proof/Laws/Elements.lean ====
section
/-!
SUPPORT. The typed elements of the RAMs: what reading an element gives after a run of elements is
written, and which bytes such a write leaves alone.
-/
namespace Sys2Proof.Machine

/-! ### Runs of elements of one width -/

theorem length_flatMap_width {α : Type} (f : α → List Byte) (w : Nat) (hw : ∀ x, (f x).length = w)
    (l : List α) : (l.flatMap f).length = w * l.length := by
  induction l with
  | nil => simp
  | cons x l ih => simp [hw, ih, Nat.mul_add, Nat.add_comm]

theorem getElem?_flatMap_width {α : Type} (f : α → List Byte) (w : Nat) (hw : ∀ x, (f x).length = w)
    (l : List α) (i j : Nat) (hj : j < w) :
    (l.flatMap f)[w * i + j]? = l[i]?.bind fun x => (f x)[j]? := by
  induction l generalizing i with
  | nil => simp
  | cons x l ih =>
    rw [List.flatMap_cons, List.getElem?_append, hw]
    cases i with
    | zero => simp [hj]
    | succ i =>
      have h1 : ¬ w * (i + 1) + j < w := by nlinarith
      have h2 : w * (i + 1) + j - w = w * i + j := by rw [Nat.mul_succ]; omega
      rw [if_neg h1, h2, ih]
      simp

@[simp] theorem length_halfBytes (h : Half) : (halfBytes h).length = 2 := rfl
@[simp] theorem length_wordBytes (d : Word) : (wordBytes d).length = 4 := rfl
@[simp] theorem length_f64Bytes (x : F64) : (f64Bytes x).length = 8 := rfl
@[simp] theorem length_workBytes (z : F64 × F64) : (workBytes z).length = 16 := rfl
@[simp] theorem length_pointBytes (p : Word × Word) : (pointBytes p).length = 8 := rfl

/-- The byte `w * i + j` of a stored run of elements of width `w`. -/
theorem ramByte_store_element {α : Type} (f : α → List Byte) (w : Nat) (hw : ∀ x, (f x).length = w)
    (s : State) (a : Nat) (l : List α) (i j : Nat) (hi : i < l.length) (hj : j < w) (x : Nat)
    (hx : x = a + (w * i + j)) :
    ramByte (s.store a (l.flatMap f)) x = (f l[i])[j]'(by rw [hw]; exact hj) := by
  have hlen : w * i + j < (l.flatMap f).length := by
    rw [length_flatMap_width f w hw]
    calc w * i + j < w * i + w := by omega
      _ = w * (i + 1) := by rw [Nat.mul_succ]
      _ ≤ w * l.length := Nat.mul_le_mul_left _ hi
  subst hx
  rw [ramByte_store_inside s a _ (w * i + j) hlen]
  have := getElem?_flatMap_width f w hw l i j hj
  rw [List.getElem?_eq_getElem hlen, List.getElem?_eq_getElem hi] at this
  simp only [Option.bind_some] at this
  rw [List.getElem?_eq_getElem (by rw [hw]; exact hj)] at this
  exact Option.some.inj this

/-! ### Words from bytes and back -/

theorem wordOfBytes_extract (d : Word) :
    wordOfBytes (d.extractLsb' 0 8) (d.extractLsb' 8 8) (d.extractLsb' 16 8) (d.extractLsb' 24 8) = d := by
  apply BitVec.eq_of_getLsbD_eq
  intro i hi
  simp only [wordOfBytes, BitVec.getLsbD_append, BitVec.getLsbD_extractLsb']
  rcases lt_or_ge i 8 with h | h
  · simp [h]
  rcases lt_or_ge i 16 with h' | h'
  · simp [Nat.not_lt.mpr h, show i - 8 < 8 by omega, show 8 + (i - 8) = i by omega]
  rcases lt_or_ge i 24 with h'' | h''
  · simp [Nat.not_lt.mpr h, show ¬ i - 8 < 8 by omega, show i - 8 - 8 < 8 by omega,
      show 16 + (i - 8 - 8) = i by omega]
  · simp [Nat.not_lt.mpr h, show ¬ i - 8 < 8 by omega, show ¬ i - 8 - 8 < 8 by omega,
      show i - 8 - 8 - 8 < 8 by omega, show 24 + (i - 8 - 8 - 8) = i by omega]

theorem half_append_extract (h : Half) : h.extractLsb' 8 8 ++ h.extractLsb' 0 8 = h := by
  apply BitVec.eq_of_getLsbD_eq
  intro i hi
  simp only [BitVec.getLsbD_append, BitVec.getLsbD_extractLsb']
  rcases lt_or_ge i 8 with h1 | h1
  · simp [h1]
  · simp [Nat.not_lt.mpr h1, show i - 8 < 8 by omega, show 8 + (i - 8) = i by omega]

theorem f64_append_extract (x : F64) : x.extractLsb' 32 32 ++ x.extractLsb' 0 32 = x := by
  apply BitVec.eq_of_getLsbD_eq
  intro i hi
  simp only [BitVec.getLsbD_append, BitVec.getLsbD_extractLsb']
  rcases lt_or_ge i 32 with h1 | h1
  · simp [h1]
  · simp [Nat.not_lt.mpr h1, show i - 32 < 32 by omega, show 32 + (i - 32) = i by omega]

/-- A stored word reads back. -/
theorem ramWord_store_word (s : State) (a : Nat) (d : Word) : ramWord (s.store a (wordBytes d)) a = d := by
  have h (j : Nat) (hj : j < 4) : ramByte (s.store a (wordBytes d)) (a + j) = (wordBytes d)[j] :=
    ramByte_store_inside s a (wordBytes d) j hj
  have h0 := h 0 (by omega)
  rw [Nat.add_zero] at h0
  rw [ramWord, h0, h 1 (by omega), h 2 (by omega), h 3 (by omega)]
  exact wordOfBytes_extract d

/-- A word outside a stored run reads as before. -/
theorem ramWord_store_outside (s : State) (a : Nat) (bs : List Byte) (x : Nat)
    (h : x + 4 ≤ a ∨ a + bs.length ≤ x) : ramWord (s.store a bs) x = ramWord s x := by
  simp only [ramWord]
  rw [ramByte_store_outside s a bs x (by omega), ramByte_store_outside s a bs (x + 1) (by omega),
    ramByte_store_outside s a bs (x + 2) (by omega), ramByte_store_outside s a bs (x + 3) (by omega)]

/-! ### RES_RAM -/

theorem resEntry_writeRes (s : State) (hs : List Half) (i : Nat) (hi : i < hs.length) :
    resEntry (s.writeRes hs) i = hs[i] := by
  unfold resEntry State.writeRes
  rw [ramByte_store_element halfBytes 2 length_halfBytes s resBase hs i 1 hi (by omega) _ (by omega),
    ramByte_store_element halfBytes 2 length_halfBytes s resBase hs i 0 hi (by omega) _ (by omega)]
  exact half_append_extract _

theorem ramByte_writeRes_outside (s : State) (hs : List Half) (x : Nat)
    (h : x < resBase ∨ resBase + 2 * hs.length ≤ x) : ramByte (s.writeRes hs) x = ramByte s x := by
  apply ramByte_store_outside
  rwa [length_flatMap_width halfBytes 2 length_halfBytes]

/-! ### WORK_RAM -/

theorem ramWord_of_bytes (s : State) (a : Nat) (d : Word)
    (h : ∀ j (hj : j < 4), ramByte s (a + j) = (wordBytes d)[j]) : ramWord s a = d := by
  have h0 := h 0 (by omega)
  rw [Nat.add_zero] at h0
  rw [ramWord, h0, h 1 (by omega), h 2 (by omega), h 3 (by omega)]
  exact wordOfBytes_extract d

theorem ramF64_of_bytes (s : State) (a : Nat) (x : F64)
    (h : ∀ j (hj : j < 8), ramByte s (a + j) = (f64Bytes x)[j]) : ramF64 s a = x := by
  unfold ramF64
  rw [ramWord_of_bytes s a (x.extractLsb' 0 32), ramWord_of_bytes s (a + 4) (x.extractLsb' 32 32)]
  · exact f64_append_extract x
  · intro j hj
    have := h (j + 4) (by omega)
    rw [show a + (j + 4) = a + 4 + j by omega] at this
    rw [this]
    simp only [f64Bytes]
    rw [List.getElem_append_right (by simp)]
    simp
    rfl
  · intro j hj
    rw [h j (by omega)]
    simp only [f64Bytes]
    rw [List.getElem_append_left (by simpa using hj)]
    rfl

theorem workEntry_writeWork (s : State) (zs : List (F64 × F64)) (k : Nat) (hk : k < zs.length) :
    workEntry (s.writeWork zs) k = zs[k] := by
  unfold workEntry State.writeWork
  rw [ramF64_of_bytes _ _ zs[k].1, ramF64_of_bytes _ _ zs[k].2]
  · intro j hj
    rw [ramByte_store_element workBytes 16 length_workBytes s workBase zs k (8 + j) hk (by omega) _
      (by omega)]
    simp only [workBytes]
    rw [List.getElem_append_right (by simp)]
    simp
    rfl
  · intro j hj
    rw [ramByte_store_element workBytes 16 length_workBytes s workBase zs k j hk (by omega) _ (by omega)]
    simp only [workBytes]
    rw [List.getElem_append_left (by simpa using hj)]
    rfl

theorem ramByte_writeWork_outside (s : State) (zs : List (F64 × F64)) (x : Nat)
    (h : x < workBase ∨ workBase + 16 * zs.length ≤ x) : ramByte (s.writeWork zs) x = ramByte s x := by
  apply ramByte_store_outside
  rwa [length_flatMap_width workBytes 16 length_workBytes]

/-! ### FRAME_RAM -/

theorem framePoint_writeFrame (s : State) (ps : List (Word × Word)) (j : Nat) (hj : j < ps.length) :
    (frameX (s.writeFrame ps) j, frameY (s.writeFrame ps) j) = ps[j] := by
  unfold frameX frameY State.writeFrame
  rw [ramWord_of_bytes _ _ ps[j].1, ramWord_of_bytes _ _ ps[j].2]
  · intro i hi
    rw [ramByte_store_element pointBytes 8 length_pointBytes s frameBase ps j (4 + i) hj (by omega) _
      (by omega)]
    simp only [pointBytes]
    rw [List.getElem_append_right (by simp)]
    simp
    rfl
  · intro i hi
    rw [ramByte_store_element pointBytes 8 length_pointBytes s frameBase ps j i hj (by omega) _ (by omega)]
    simp only [pointBytes]
    rw [List.getElem_append_left (by simpa using hi)]
    rfl

theorem ramByte_writeFrame_outside (s : State) (ps : List (Word × Word)) (x : Nat)
    (h : x < frameBase ∨ frameBase + 8 * ps.length ≤ x) : ramByte (s.writeFrame ps) x = ramByte s x := by
  apply ramByte_store_outside
  rwa [length_flatMap_width pointBytes 8 length_pointBytes]

end Sys2Proof.Machine
end

