-- ==== Sys2Proof/Laws/Commands.lean ====
section
/-!
SUPPORT. What the pseudocode of each command does: the fields it leaves alone (true by `rfl`), the
elements it writes, and the bytes it leaves alone.
-/
namespace Sys2Proof.Machine

/-! ### The fields of `runMag` -/

@[simp] theorem runMag_build (s : State) : (runMag s).build = s.build := rfl
@[simp] theorem runMag_status (s : State) : (runMag s).status = s.status := rfl
@[simp] theorem runMag_doneIe (s : State) : (runMag s).doneIe = s.doneIe := rfl
@[simp] theorem runMag_errIe (s : State) : (runMag s).errIe = s.errIe := rfl
@[simp] theorem runMag_inCount (s : State) : (runMag s).inCount = s.inCount := rfl
@[simp] theorem runMag_gain (s : State) : (runMag s).gain = s.gain := rfl
@[simp] theorem runMag_baseline (s : State) : (runMag s).baseline = s.baseline := rfl
@[simp] theorem runMag_frameCount (s : State) : (runMag s).frameCount = s.frameCount := rfl
@[simp] theorem runMag_errCmd (s : State) : (runMag s).errCmd = s.errCmd := rfl
@[simp] theorem runMag_resets (s : State) : (runMag s).resets = s.resets := rfl
@[simp] theorem runMag_draws (s : State) : (runMag s).draws = s.draws := rfl
@[simp] theorem runMag_inputs (s : State) : (runMag s).inputs = s.inputs := rfl
@[simp] theorem runMag_resp (s : State) : (runMag s).resp = s.resp := rfl

/-! ### The fields of `runWin` -/

@[simp] theorem runWin_build (s : State) : (runWin s).build = s.build := rfl
@[simp] theorem runWin_status (s : State) : (runWin s).status = s.status := rfl
@[simp] theorem runWin_doneIe (s : State) : (runWin s).doneIe = s.doneIe := rfl
@[simp] theorem runWin_errIe (s : State) : (runWin s).errIe = s.errIe := rfl
@[simp] theorem runWin_inCount (s : State) : (runWin s).inCount = s.inCount := rfl
@[simp] theorem runWin_gain (s : State) : (runWin s).gain = s.gain := rfl
@[simp] theorem runWin_baseline (s : State) : (runWin s).baseline = s.baseline := rfl
@[simp] theorem runWin_frameCount (s : State) : (runWin s).frameCount = s.frameCount := rfl
@[simp] theorem runWin_errCmd (s : State) : (runWin s).errCmd = s.errCmd := rfl
@[simp] theorem runWin_resets (s : State) : (runWin s).resets = s.resets := rfl
@[simp] theorem runWin_draws (s : State) : (runWin s).draws = s.draws := rfl
@[simp] theorem runWin_inputs (s : State) : (runWin s).inputs = s.inputs := rfl
@[simp] theorem runWin_resp (s : State) : (runWin s).resp = s.resp := rfl

/-! ### The fields of `runFft` -/

@[simp] theorem runFft_build (s : State) : (runFft s).build = s.build := rfl
@[simp] theorem runFft_status (s : State) : (runFft s).status = s.status := rfl
@[simp] theorem runFft_doneIe (s : State) : (runFft s).doneIe = s.doneIe := rfl
@[simp] theorem runFft_errIe (s : State) : (runFft s).errIe = s.errIe := rfl
@[simp] theorem runFft_inCount (s : State) : (runFft s).inCount = s.inCount := rfl
@[simp] theorem runFft_gain (s : State) : (runFft s).gain = s.gain := rfl
@[simp] theorem runFft_baseline (s : State) : (runFft s).baseline = s.baseline := rfl
@[simp] theorem runFft_frameCount (s : State) : (runFft s).frameCount = s.frameCount := rfl
@[simp] theorem runFft_errCmd (s : State) : (runFft s).errCmd = s.errCmd := rfl
@[simp] theorem runFft_resets (s : State) : (runFft s).resets = s.resets := rfl
@[simp] theorem runFft_draws (s : State) : (runFft s).draws = s.draws + 1 := rfl
@[simp] theorem runFft_inputs (s : State) : (runFft s).inputs = s.inputs := rfl
@[simp] theorem runFft_resp (s : State) : (runFft s).resp = s.resp := rfl

/-! ### The fields of `runLogp` -/

@[simp] theorem runLogp_build (s : State) : (runLogp s).build = s.build := rfl
@[simp] theorem runLogp_status (s : State) : (runLogp s).status = s.status := rfl
@[simp] theorem runLogp_doneIe (s : State) : (runLogp s).doneIe = s.doneIe := rfl
@[simp] theorem runLogp_errIe (s : State) : (runLogp s).errIe = s.errIe := rfl
@[simp] theorem runLogp_inCount (s : State) : (runLogp s).inCount = s.inCount := rfl
@[simp] theorem runLogp_gain (s : State) : (runLogp s).gain = s.gain := rfl
@[simp] theorem runLogp_baseline (s : State) : (runLogp s).baseline = s.baseline := rfl
@[simp] theorem runLogp_frameCount (s : State) : (runLogp s).frameCount = s.frameCount := rfl
@[simp] theorem runLogp_errCmd (s : State) : (runLogp s).errCmd = s.errCmd := rfl
@[simp] theorem runLogp_resets (s : State) : (runLogp s).resets = s.resets := rfl
@[simp] theorem runLogp_draws (s : State) : (runLogp s).draws = s.draws := rfl
@[simp] theorem runLogp_inputs (s : State) : (runLogp s).inputs = s.inputs := rfl
@[simp] theorem runLogp_resp (s : State) : (runLogp s).resp = s.resp := rfl

/-! ### The fields of `runShift` -/

@[simp] theorem runShift_build (s : State) : (runShift s).build = s.build := rfl
@[simp] theorem runShift_status (s : State) : (runShift s).status = s.status := rfl
@[simp] theorem runShift_doneIe (s : State) : (runShift s).doneIe = s.doneIe := rfl
@[simp] theorem runShift_errIe (s : State) : (runShift s).errIe = s.errIe := rfl
@[simp] theorem runShift_inCount (s : State) : (runShift s).inCount = s.inCount := rfl
@[simp] theorem runShift_gain (s : State) : (runShift s).gain = s.gain := rfl
@[simp] theorem runShift_baseline (s : State) : (runShift s).baseline = s.baseline := rfl
@[simp] theorem runShift_frameCount (s : State) : (runShift s).frameCount = s.frameCount := rfl
@[simp] theorem runShift_errCmd (s : State) : (runShift s).errCmd = s.errCmd := rfl
@[simp] theorem runShift_resets (s : State) : (runShift s).resets = s.resets := rfl
@[simp] theorem runShift_draws (s : State) : (runShift s).draws = s.draws := rfl
@[simp] theorem runShift_inputs (s : State) : (runShift s).inputs = s.inputs := rfl
@[simp] theorem runShift_resp (s : State) : (runShift s).resp = s.resp := rfl

/-! ### The fields of `runDecim` -/

@[simp] theorem runDecim_build (s : State) : (runDecim s).build = s.build := rfl
@[simp] theorem runDecim_status (s : State) : (runDecim s).status = s.status := rfl
@[simp] theorem runDecim_doneIe (s : State) : (runDecim s).doneIe = s.doneIe := rfl
@[simp] theorem runDecim_errIe (s : State) : (runDecim s).errIe = s.errIe := rfl
@[simp] theorem runDecim_inCount (s : State) : (runDecim s).inCount = s.inCount := rfl
@[simp] theorem runDecim_gain (s : State) : (runDecim s).gain = s.gain := rfl
@[simp] theorem runDecim_baseline (s : State) : (runDecim s).baseline = s.baseline := rfl
@[simp] theorem runDecim_frameCount (s : State) : (runDecim s).frameCount = BitVec.ofNat 32 (pointCount s.build) := rfl
@[simp] theorem runDecim_errCmd (s : State) : (runDecim s).errCmd = s.errCmd := rfl
@[simp] theorem runDecim_resets (s : State) : (runDecim s).resets = s.resets := rfl
@[simp] theorem runDecim_draws (s : State) : (runDecim s).draws = s.draws := rfl
@[simp] theorem runDecim_inputs (s : State) : (runDecim s).inputs = s.inputs := rfl
@[simp] theorem runDecim_resp (s : State) : (runDecim s).resp = s.resp := rfl

/-! ### The fields of `runMagFrame` -/

@[simp] theorem runMagFrame_build (s : State) : (runMagFrame s).build = s.build := by
  simp [runMagFrame]
@[simp] theorem runMagFrame_status (s : State) : (runMagFrame s).status = s.status := by
  simp [runMagFrame]
@[simp] theorem runMagFrame_doneIe (s : State) : (runMagFrame s).doneIe = s.doneIe := by
  simp [runMagFrame]
@[simp] theorem runMagFrame_errIe (s : State) : (runMagFrame s).errIe = s.errIe := by
  simp [runMagFrame]
@[simp] theorem runMagFrame_inCount (s : State) : (runMagFrame s).inCount = s.inCount := by
  simp [runMagFrame]
@[simp] theorem runMagFrame_gain (s : State) : (runMagFrame s).gain = s.gain := by
  simp [runMagFrame]
@[simp] theorem runMagFrame_baseline (s : State) : (runMagFrame s).baseline = s.baseline := by
  simp [runMagFrame]
@[simp] theorem runMagFrame_frameCount (s : State) : (runMagFrame s).frameCount = BitVec.ofNat 32 (pointCount s.build) := by
  simp [runMagFrame]
@[simp] theorem runMagFrame_errCmd (s : State) : (runMagFrame s).errCmd = s.errCmd := by
  simp [runMagFrame]
@[simp] theorem runMagFrame_resets (s : State) : (runMagFrame s).resets = s.resets := by
  simp [runMagFrame]
@[simp] theorem runMagFrame_draws (s : State) : (runMagFrame s).draws = s.draws := by
  simp [runMagFrame]
@[simp] theorem runMagFrame_inputs (s : State) : (runMagFrame s).inputs = s.inputs := by
  simp [runMagFrame]
@[simp] theorem runMagFrame_resp (s : State) : (runMagFrame s).resp = s.resp := by
  simp [runMagFrame]

/-! ### The fields of `runSpecFrame` -/

@[simp] theorem runSpecFrame_build (s : State) : (runSpecFrame s).build = s.build := by
  simp [runSpecFrame]
@[simp] theorem runSpecFrame_status (s : State) : (runSpecFrame s).status = s.status := by
  simp [runSpecFrame]
@[simp] theorem runSpecFrame_doneIe (s : State) : (runSpecFrame s).doneIe = s.doneIe := by
  simp [runSpecFrame]
@[simp] theorem runSpecFrame_errIe (s : State) : (runSpecFrame s).errIe = s.errIe := by
  simp [runSpecFrame]
@[simp] theorem runSpecFrame_inCount (s : State) : (runSpecFrame s).inCount = s.inCount := by
  simp [runSpecFrame]
@[simp] theorem runSpecFrame_gain (s : State) : (runSpecFrame s).gain = s.gain := by
  simp [runSpecFrame]
@[simp] theorem runSpecFrame_baseline (s : State) : (runSpecFrame s).baseline = s.baseline := by
  simp [runSpecFrame]
@[simp] theorem runSpecFrame_frameCount (s : State) : (runSpecFrame s).frameCount = BitVec.ofNat 32 (pointCount s.build) := by
  simp [runSpecFrame]
@[simp] theorem runSpecFrame_errCmd (s : State) : (runSpecFrame s).errCmd = s.errCmd := by
  simp [runSpecFrame]
@[simp] theorem runSpecFrame_resets (s : State) : (runSpecFrame s).resets = s.resets := by
  simp [runSpecFrame]
@[simp] theorem runSpecFrame_draws (s : State) : (runSpecFrame s).draws = s.draws + 1 := by
  simp [runSpecFrame]
@[simp] theorem runSpecFrame_inputs (s : State) : (runSpecFrame s).inputs = s.inputs := by
  simp [runSpecFrame]
@[simp] theorem runSpecFrame_resp (s : State) : (runSpecFrame s).resp = s.resp := by
  simp [runSpecFrame]

/-! ### Lengths -/

theorem length_foldl_of_step {α β : Type} (f : List α → β → List α) (hf : ∀ l x, (f l x).length = l.length)
    (xs : List β) (l : List α) : (xs.foldl f l).length = l.length := by
  induction xs generalizing l with
  | nil => rfl
  | cons x xs ih => rw [List.foldl_cons, ih, hf]

@[simp] theorem length_bitrevSwaps {α : Type} (d : α) (bits : Nat) (l : List α) :
    (bitrevSwaps d bits l).length = l.length := by
  apply length_foldl_of_step
  intro l i
  split <;> simp [swapAt]

@[simp] theorem length_butterflyAt {α : Type} (A : Arith α) (site : Nat) (w : α × α) (i h : Nat)
    (l : List (α × α)) : (butterflyAt A site w i h l).length = l.length := by
  simp [butterflyAt]

@[simp] theorem length_fftGroup {α : Type} (A : Arith α) (bits : Nat) (tw : Nat → α × α) (s base : Nat)
    (l : List (α × α)) : (fftGroup A bits tw s base l).length = l.length := by
  apply length_foldl_of_step
  intro l j
  simp

@[simp] theorem length_fftStage {α : Type} (A : Arith α) (bits : Nat) (tw : Nat → α × α)
    (l : List (α × α)) (s : Nat) : (fftStage A bits tw l s).length = l.length := by
  apply length_foldl_of_step
  intro l j
  simp

/-- The transform works in place: it keeps the number of elements. -/
@[simp] theorem length_transform {α : Type} (A : Arith α) (bits : Nat) (tw : Nat → α × α)
    (l : List (α × α)) : (transform A bits tw l).length = l.length := by
  unfold transform
  rw [length_foldl_of_step (fun l s => fftStage A bits tw l (s + 1)) (fun l s => by simp)]
  simp

@[simp] theorem length_workList (s : State) : (workList s).length = transformLength s.build := by
  simp [workList]

@[simp] theorem length_resList (s : State) : (resList s).length = transformLength s.build := by
  simp [resList]

@[simp] theorem length_shiftList (b : Build) (old : List Half) : (shiftList b old).length = old.length := by
  apply length_foldl_of_step
  intro l i
  simp

/-! ### MAG -/

/-- MAG writes every RES entry (R133). -/
theorem resEntry_runMag (s : State) (i : Nat) (hi : i < transformLength s.build) :
    resEntry (runMag s) i = magEntry s i := by
  rw [runMag, resEntry_writeRes _ _ _ (by simpa using hi)]
  simp

theorem ramByte_runMag_outside (s : State) (x : Nat)
    (h : x < resBase ∨ resBase + 2 * transformLength s.build ≤ x) : ramByte (runMag s) x = ramByte s x := by
  apply ramByte_writeRes_outside
  simpa using h

/-! ### WIN -/

/-- WIN writes every WORK entry (R160). -/
theorem workEntry_runWin (s : State) (k : Nat) (hk : k < transformLength s.build) :
    workEntry (runWin s) k = winEntry s k := by
  rw [runWin, workEntry_writeWork _ _ _ (by simpa using hk)]
  simp

theorem ramByte_runWin_outside (s : State) (x : Nat)
    (h : x < workBase ∨ workBase + 16 * transformLength s.build ≤ x) :
    ramByte (runWin s) x = ramByte s x := by
  apply ramByte_writeWork_outside
  simpa using h

/-! ### FFT -/

/-- FFT leaves the transform of WORK in WORK (R165). -/
theorem workEntry_runFft (s : State) (k : Nat) (hk : k < transformLength s.build) :
    workEntry (runFft s) k =
      (transform (blockArith s.draws) s.build.log2n (twRom s.build) (workList s))[k]'(by simpa using hk) := by
  have : workEntry (runFft s) k = workEntry (s.writeWork
      (transform (blockArith s.draws) s.build.log2n (twRom s.build) (workList s))) k := rfl
  rw [this, workEntry_writeWork _ _ _ (by simpa using hk)]

theorem ramByte_runFft_outside (s : State) (x : Nat)
    (h : x < workBase ∨ workBase + 16 * transformLength s.build ≤ x) :
    ramByte (runFft s) x = ramByte s x := by
  have : ramByte (runFft s) x = ramByte (s.writeWork
      (transform (blockArith s.draws) s.build.log2n (twRom s.build) (workList s))) x := rfl
  rw [this]
  apply ramByte_writeWork_outside
  simpa using h

/-! ### LOGP -/

/-- LOGP writes every RES entry (R175). -/
theorem resEntry_runLogp (s : State) (i : Nat) (hi : i < transformLength s.build) :
    resEntry (runLogp s) i = logEntry s i := by
  rw [runLogp, resEntry_writeRes _ _ _ (by simpa using hi)]
  simp

theorem ramByte_runLogp_outside (s : State) (x : Nat)
    (h : x < resBase ∨ resBase + 2 * transformLength s.build ≤ x) : ramByte (runLogp s) x = ramByte s x := by
  apply ramByte_writeRes_outside
  simpa using h

/-! ### SHIFT -/

theorem transformLength_even (b : Build) (h : b.legal = true) :
    transformLength b = 2 * (transformLength b / 2) ∧ 0 < transformLength b / 2 := by
  simp only [Build.legal, Build.log2nLegal, Bool.and_eq_true, decide_eq_true_eq] at h
  obtain ⟨n, hn⟩ : ∃ n, b.log2n = n + 1 := ⟨b.log2n - 1, by omega⟩
  have : 0 < 2 ^ n := Nat.two_pow_pos n
  simp only [transformLength, hn, Nat.pow_succ]
  omega

/-- The permutation stays in range and is its own inverse (R56, R182). -/
theorem perm_perm (b : Build) (h : b.legal = true) (i : Nat) (hi : i < transformLength b) :
    perm b i < transformLength b ∧ perm b (perm b i) = i := by
  obtain ⟨he, hp⟩ := transformLength_even b h
  generalize hh : transformLength b / 2 = half at *
  have hperm (j : Nat) (hj : j < transformLength b) :
      perm b j = if j < half then j + half else j - half := by
    unfold perm
    rw [hh]
    split
    · exact Nat.mod_eq_of_lt (by omega)
    · rw [show j + half = (j - half) + transformLength b by omega, Nat.add_mod_right]
      exact Nat.mod_eq_of_lt (by omega)
  have h1 : perm b i < transformLength b := by rw [hperm i hi]; split <;> omega
  refine ⟨h1, ?_⟩
  rw [hperm _ h1, hperm i hi]
  split <;> split <;> omega

theorem shiftList_loop (b : Build) (h : b.legal = true) (old : List Half)
    (hl : old.length = transformLength b) (n : Nat) (hn : n ≤ transformLength b) (o : Nat)
    (ho : o < transformLength b) :
    ((List.range n).foldl (fun res i => res.set (perm b i) (old.getD i 0)) old).getD o 0 =
      if perm b o < n then old.getD (perm b o) 0 else old.getD o 0 := by
  induction n with
  | zero => simp
  | succ n ih =>
    rw [List.range_succ, List.foldl_append, List.foldl_cons, List.foldl_nil]
    have hlen : ((List.range n).foldl (fun res i => res.set (perm b i) (old.getD i 0)) old).length =
        old.length := length_foldl_of_step _ (fun l x => by simp) _ _
    have hin := (perm_perm b h n (by omega)).1
    have hinv := (perm_perm b h o ho).2
    rw [List.getD_eq_getElem?_getD, List.getElem?_set]
    by_cases hc : perm b n = o
    · have : perm b o = n := by rw [← hc]; exact (perm_perm b h n (by omega)).2
      rw [if_pos hc, if_pos (by rw [hlen, hl]; omega), this, if_pos (by omega)]
      rfl
    · have hne : perm b o ≠ n := fun he => hc (by rw [← he]; exact hinv)
      rw [if_neg hc, ← List.getD_eq_getElem?_getD, ih (by omega)]
      have : (perm b o < n + 1) ↔ perm b o < n := by omega
      simp only [this]

/-- SHIFT puts at each position the entry of the position's image under the permutation (R182). -/
theorem getD_shiftList (b : Build) (h : b.legal = true) (old : List Half)
    (hl : old.length = transformLength b) (o : Nat) (ho : o < transformLength b) :
    (shiftList b old).getD o 0 = old.getD (perm b o) 0 := by
  unfold shiftList
  rw [shiftList_loop b h old hl _ le_rfl o ho, if_pos (perm_perm b h o ho).1]

/-- SHIFT moves every RES entry (R181). -/
theorem resEntry_runShift (s : State) (h : s.build.legal = true) (i : Nat)
    (hi : i < transformLength s.build) : resEntry (runShift s) i = resEntry s (perm s.build i) := by
  have hp := (perm_perm s.build h i hi).1
  rw [runShift, resEntry_writeRes _ _ _ (by simpa using hi)]
  have := getD_shiftList s.build h (resList s) (by simp) i hi
  rw [List.getD_eq_getElem _ _ (by simpa using hi), List.getD_eq_getElem _ _ (by simpa using hp)] at this
  rw [this]
  simp [resList]

theorem ramByte_runShift_outside (s : State) (x : Nat)
    (h : x < resBase ∨ resBase + 2 * transformLength s.build ≤ x) : ramByte (runShift s) x = ramByte s x := by
  apply ramByte_writeRes_outside
  simpa using h

/-! ### DECIM -/

/-- `COUNT = W` (R201). -/
theorem pointCount_eq (b : Build) (h : b.legal = true) : pointCount b = displayWidth b := by
  simp only [Build.legal, Build.log2wLegal, Bool.and_eq_true, decide_eq_true_eq] at h
  have hd : displayWidth b ∣ transformLength b := Nat.pow_dvd_pow 2 h.1.2
  unfold pointCount stride
  exact Nat.div_div_self hd (by simp [transformLength])

/-- DECIM writes every frame point (R202, R204). -/
theorem frame_runDecim (s : State) (j : Nat) (hj : j < pointCount s.build) :
    (frameX (runDecim s) j, frameY (runDecim s) j) = framePoint s j := by
  have : (frameX (runDecim s) j, frameY (runDecim s) j) =
      (frameX (s.writeFrame ((List.range (pointCount s.build)).map (framePoint s))) j,
       frameY (s.writeFrame ((List.range (pointCount s.build)).map (framePoint s))) j) := rfl
  rw [this, framePoint_writeFrame _ _ _ (by simpa using hj)]
  simp

theorem ramByte_runDecim_outside (s : State) (x : Nat)
    (h : x < frameBase ∨ frameBase + 8 * pointCount s.build ≤ x) :
    ramByte (runDecim s) x = ramByte s x := by
  have : ramByte (runDecim s) x =
      ramByte (s.writeFrame ((List.range (pointCount s.build)).map (framePoint s))) x := rfl
  rw [this]
  apply ramByte_writeFrame_outside
  simpa using h

/-! ### The canonical form -/

theorem memWf_runMag (s : State) (h : memWf s.mem = true) : memWf (runMag s).mem = true :=
  memWf_memStore _ _ _ h

theorem memWf_runWin (s : State) (h : memWf s.mem = true) : memWf (runWin s).mem = true :=
  memWf_memStore _ _ _ h

theorem memWf_runFft (s : State) (h : memWf s.mem = true) : memWf (runFft s).mem = true :=
  memWf_memStore _ _ _ h

theorem memWf_runLogp (s : State) (h : memWf s.mem = true) : memWf (runLogp s).mem = true :=
  memWf_memStore _ _ _ h

theorem memWf_runShift (s : State) (h : memWf s.mem = true) : memWf (runShift s).mem = true :=
  memWf_memStore _ _ _ h

theorem memWf_runDecim (s : State) (h : memWf s.mem = true) : memWf (runDecim s).mem = true :=
  memWf_memStore _ _ _ h

end Sys2Proof.Machine
end

