-- ==== Sys2Proof/Laws/Enclosures.lean ====
section
/-!
SUPPORT. The enclosures of Machine/Numeric.lean lie about the real numbers they stand for, and how far
apart their two ends are at most. A bound is a pair of naturals in units of `2^-320`.
-/
namespace Sys2Proof.Machine
open Nat (factorial)

/-! ### Scaled integers -/

/-- The two naturals lie about `x`, scaled, and no further apart than `w`. -/
def Brackets (r : Nat × Nat) (x w : ℝ) : Prop :=
  (r.1 : ℝ) ≤ x * fixOne ∧ x * fixOne ≤ r.2 ∧ (r.2 : ℝ) - r.1 ≤ w

theorem fixOne_pos : (0 : ℝ) < fixOne := by unfold fixOne; positivity

theorem floorDiv_le (a b : Nat) : ((a / b : Nat) : ℝ) ≤ (a : ℝ) / b := Nat.cast_div_le

theorem le_floorDiv (a b : Nat) (hb : 0 < b) : (a : ℝ) / b - 1 ≤ ((a / b : Nat) : ℝ) := by
  have hb' : (0 : ℝ) < b := by exact_mod_cast hb
  have h : a < (a / b + 1) * b := by
    have h1 := Nat.div_add_mod a b
    have h2 := Nat.mod_lt a hb
    rw [Nat.add_mul, Nat.one_mul, Nat.mul_comm]; omega
  have h' : (a : ℝ) < ((a / b : Nat) + 1) * b := by exact_mod_cast h
  rw [sub_le_iff_le_add, div_le_iff₀ hb']
  exact h'.le

theorem le_ceilDiv (a b : Nat) (hb : 0 < b) : (a : ℝ) / b ≤ (ceilDiv a b : ℝ) := by
  have hb' : (0 : ℝ) < b := by exact_mod_cast hb
  have h : a ≤ ceilDiv a b * b := by
    unfold ceilDiv
    have h1 := Nat.div_add_mod (a + b - 1) b
    have h2 := Nat.mod_lt (a + b - 1) hb
    rw [Nat.mul_comm]; omega
  rw [div_le_iff₀ hb']
  exact_mod_cast h

theorem ceilDiv_le (a b : Nat) (hb : 0 < b) : (ceilDiv a b : ℝ) ≤ (a : ℝ) / b + 1 := by
  have hb' : (0 : ℝ) < b := by exact_mod_cast hb
  have h : ceilDiv a b * b ≤ a + b := by
    unfold ceilDiv
    have h1 := Nat.div_mul_le_self (a + b - 1) b
    omega
  have h' : (ceilDiv a b : ℝ) * b ≤ a + b := by exact_mod_cast h
  rw [← sub_nonneg]
  have : (a : ℝ) / b + 1 - ceilDiv a b = (a + b - ceilDiv a b * b) / b := by field_simp
  rw [this]
  exact div_nonneg (by linarith) hb'.le

/-- A difference of naturals that stops at 0, as a real number. -/
theorem cast_sub_eq_max (a b : Nat) : ((a - b : Nat) : ℝ) = max ((a : ℝ) - b) 0 := by
  rcases le_total b a with h | h
  · rw [Nat.cast_sub h, max_eq_left (sub_nonneg.2 (by exact_mod_cast h))]
  · rw [Nat.sub_eq_zero_of_le h, max_eq_right (sub_nonpos.2 (by exact_mod_cast h)), Nat.cast_zero]

/-! ### Logarithms -/

/-- The tails of `sum q^j / (2 j + 1)`, bounded by `atanhSum`. -/
theorem atanhSum_brackets (a b : Nat) (hb : 0 < b) (hab : 3 * a ≤ b) (T : Nat → ℝ)
    (hT : ∀ i, T i = 1 / (2 * i + 1) + ((a : ℝ) * a / (b * b)) * T (i + 1))
    (hT0 : ∀ i, 0 ≤ T i) (hT1 : ∀ i, 0 < i → T i ≤ 1) (n i : Nat) (hi : 0 < n + i) :
    Brackets (atanhSum a b n i) (T i) (9 / 2 + fixOne / 9 ^ n) := by
  induction n generalizing i with
  | zero =>
    have hF := fixOne_pos
    refine ⟨by simpa [atanhSum] using mul_nonneg (hT0 i) hF.le, ?_, by simp [atanhSum]; norm_num⟩
    have := mul_le_mul_of_nonneg_right (hT1 i (by omega)) hF.le
    simpa [atanhSum] using this
  | succ n ih =>
    obtain ⟨h1, h2, h3⟩ := ih (i + 1) (by omega)
    have hF := fixOne_pos
    have hbb : 0 < b * b := Nat.mul_pos hb hb
    have hi' : (0 : ℝ) < 2 * i + 1 := by positivity
    have hb' : (0 : ℝ) < b * b := by exact_mod_cast hbb
    have hq0 : (0 : ℝ) ≤ (a : ℝ) * a / (b * b) := by positivity
    have hq1 : (a : ℝ) * a / (b * b) ≤ 1 / 9 := by
      have : (3 * a : ℝ) ≤ b := by exact_mod_cast hab
      have ha : (0 : ℝ) ≤ a := by positivity
      rw [div_le_div_iff₀ hb' (by norm_num)]
      nlinarith
    simp only [atanhSum, Brackets]
    generalize atanhSum a b n (i + 1) = r at *
    have e1 := floorDiv_le fixOne (2 * i + 1)
    have e2 := floorDiv_le (a * a * r.1) (b * b)
    have e3 := le_ceilDiv fixOne (2 * i + 1) (by omega)
    have e4 := le_ceilDiv (a * a * r.2) (b * b) hbb
    have e5 := le_floorDiv fixOne (2 * i + 1) (by omega)
    have e6 := le_floorDiv (a * a * r.1) (b * b) hbb
    have e7 := ceilDiv_le fixOne (2 * i + 1) (by omega)
    have e8 := ceilDiv_le (a * a * r.2) (b * b) hbb
    push_cast at e1 e2 e3 e4 e5 e6 e7 e8 ⊢
    rw [mul_div_right_comm] at e2 e4 e6 e8
    have hpow : (fixOne : ℝ) / 9 ^ (n + 1) = fixOne / 9 ^ n / 9 := by rw [pow_succ]; field_simp
    rw [hpow, hT i]
    generalize (fixOne : ℝ) / 9 ^ n = G at *
    generalize (a : ℝ) * a / (b * b) = q at *
    have hTi : (1 / (2 * (i : ℝ) + 1) + q * T (i + 1)) * fixOne =
        fixOne / (2 * i + 1) + q * (T (i + 1) * fixOne) := by ring
    rw [hTi]
    have g1 := mul_le_mul_of_nonneg_left h1 hq0
    have g2 := mul_le_mul_of_nonneg_left h2 hq0
    have g3 : q * ((r.2 : ℝ) - r.1) ≤ q * (9 / 2 + G) := mul_le_mul_of_nonneg_left h3 hq0
    have g4 : q * (9 / 2 + G) ≤ 1 / 9 * (9 / 2 + G) := mul_le_mul_of_nonneg_right hq1 (by linarith)
    exact ⟨by linarith, by linarith, by linarith⟩

/-- `lnBounds` brackets the logarithm. -/
theorem lnBounds_brackets (a b : Nat) (hb : 0 < b) (hab : 3 * a ≤ b) :
    Brackets (lnBounds a b) (Real.log (((b : ℝ) + a) / (b - a))) 8 := by
  have hF := fixOne_pos
  have hb' : (0 : ℝ) < b := by exact_mod_cast hb
  have hab' : (3 * a : ℝ) ≤ b := by exact_mod_cast hab
  have ha0 : (0 : ℝ) ≤ a := by positivity
  set x : ℝ := a / b with hx
  have hx0 : 0 ≤ x := by positivity
  have hx1 : x ≤ 1 / 3 := by rw [hx, div_le_div_iff₀ hb' (by norm_num)]; linarith
  have hq : (a : ℝ) * a / (b * b) = x ^ 2 := by rw [hx]; field_simp
  have hq1 : x ^ 2 ≤ 1 / 9 := by nlinarith
  let T : Nat → ℝ := fun i => ∑' j : ℕ, (x ^ 2) ^ j / (2 * ((i + j : Nat) : ℝ) + 1)
  have hgeo : Summable fun j : ℕ => (x ^ 2) ^ j := summable_geometric_of_lt_one (by positivity) (by linarith)
  have hsum (i : Nat) : Summable fun j : ℕ => (x ^ 2) ^ j / (2 * ((i + j : Nat) : ℝ) + 1) := by
    refine Summable.of_nonneg_of_le (fun j => by positivity) (fun j => ?_) hgeo
    exact div_le_self (by positivity) (by push_cast; linarith [(Nat.cast_nonneg i : (0:ℝ) ≤ i), (Nat.cast_nonneg j : (0:ℝ) ≤ j)])
  have hT (i : Nat) : T i = 1 / (2 * i + 1) + ((a : ℝ) * a / (b * b)) * T (i + 1) := by
    simp only [T]
    rw [(hsum i).tsum_eq_zero_add, hq, ← tsum_mul_left]
    refine congr_arg₂ _ (by simp) (tsum_congr fun j => ?_)
    rw [pow_succ, show i + (j + 1) = i + 1 + j by omega]
    ring
  have hT0 (i : Nat) : 0 ≤ T i := tsum_nonneg fun j => by positivity
  have hT1 (i : Nat) (hi : 0 < i) : T i ≤ 1 := by
    have h1 : T i ≤ ∑' j : ℕ, 1 / 3 * (x ^ 2) ^ j := by
      refine (hsum i).tsum_le_tsum (fun j => ?_) (hgeo.mul_left _)
      have : (1 : ℝ) ≤ i := by exact_mod_cast hi
      have hj : (0 : ℝ) ≤ j := by positivity
      rw [div_le_iff₀ (by positivity)]
      push_cast
      nlinarith [pow_nonneg (sq_nonneg x) j]
    rw [tsum_mul_left, tsum_geometric_of_lt_one (by positivity) (by linarith)] at h1
    refine h1.trans ?_
    rw [← div_eq_mul_inv, div_le_one (by linarith)]
    linarith
  have hlog : Real.log (((b : ℝ) + a) / (b - a)) = 2 * x * T 0 := by
    have h := Real.hasSum_log_sub_log_of_abs_lt_one (x := x) (by rw [abs_lt]; constructor <;> linarith)
    have h' : HasSum (fun k : ℕ => (2 : ℝ) * (1 / (2 * k + 1)) * x ^ (2 * k + 1)) (2 * x * T 0) := by
      refine ((hsum 0).hasSum.mul_left (2 * x)).congr_fun fun k => ?_
      rw [Nat.zero_add, ← pow_mul, pow_succ]
      ring
    rw [← Real.log_div (by linarith) (by linarith)] at h
    rw [← h.unique h', hx]
    congr 1
    field_simp
  obtain ⟨h1, h2, h3⟩ := atanhSum_brackets a b hb hab T hT hT0 hT1 110 0 (by norm_num)
  have hw : (fixOne : ℝ) / 9 ^ 110 ≤ 1 / 2 := by
    rw [div_le_div_iff₀ (by positivity) (by norm_num)]
    have : fixOne * 2 ≤ 1 * 9 ^ 110 := by decide +kernel
    exact_mod_cast this
  unfold lnBounds Brackets
  simp only
  generalize atanhSum a b 110 0 = r at *
  have e1 := floorDiv_le (2 * a * r.1) b
  have e2 := le_ceilDiv (2 * a * r.2) b hb
  have e3 := le_floorDiv (2 * a * r.1) b hb
  have e4 := ceilDiv_le (2 * a * r.2) b hb
  have hx2 (y : ℝ) : 2 * a * y / b = 2 * x * y := by rw [hx]; ring
  push_cast at e1 e2 e3 e4
  rw [hx2] at e1 e2 e3 e4
  rw [hlog]
  have g1 := mul_le_mul_of_nonneg_left h1 (by positivity : 0 ≤ 2 * x)
  have g2 := mul_le_mul_of_nonneg_left h2 (by positivity : 0 ≤ 2 * x)
  have g3 : 2 * x * ((r.2 : ℝ) - r.1) ≤ 2 * x * 5 := mul_le_mul_of_nonneg_left (by linarith) (by positivity)
  exact ⟨by linarith, by linarith, by linarith⟩

theorem ln2Bounds_brackets : Brackets ln2Bounds (Real.log 2) 8 := by
  have h := lnBounds_brackets 1 3 (by norm_num) (by norm_num)
  norm_num at h
  exact h

theorem ln10Bounds_brackets : Brackets ln10Bounds (Real.log 10) 32 := by
  obtain ⟨a1, a2, a3⟩ := ln2Bounds_brackets
  obtain ⟨b1, b2, b3⟩ := lnBounds_brackets 1 9 (by norm_num) (by norm_num)
  have hl : Real.log 10 = 3 * Real.log 2 + Real.log (((9 : Nat) + (1 : Nat) : ℝ) / ((9 : Nat) - (1 : Nat))) := by
    rw [show (3 : ℝ) * Real.log 2 = Real.log (2 ^ 3) by rw [Real.log_pow]; norm_num,
      ← Real.log_mul (by norm_num) (by norm_num)]
    norm_num
  unfold ln10Bounds Brackets
  simp only
  generalize ln2Bounds = r at *
  generalize lnBounds 1 9 = q at *
  push_cast at *
  rw [hl]
  exact ⟨by linarith, by linarith, by linarith⟩

/-- What the units of a finite binary64 value look like: at most 53 significant bits. -/
theorem units_dvd {v : F64} {neg : Bool} {u : Nat} (h : classify v = .fin neg u) :
    2 ^ (Nat.log2 u - 52) ∣ u := by
  unfold classify at h
  simp only at h
  split at h
  · split at h <;> cases h
  · split at h
    · injection h with _ h
      have hf : u < 2 ^ 52 := by rw [← h]; exact Nat.mod_lt _ (by norm_num)
      have : Nat.log2 u - 52 = 0 := by
        by_cases h0 : u = 0
        · simp [h0]
        · have := (Nat.log2_lt h0).2 hf
          omega
      rw [this]
      exact one_dvd _
    · injection h with _ h
      generalize v.toNat / 2 ^ 52 % 2048 = e at *
      have hf : v.toNat % 2 ^ 52 < 2 ^ 52 := Nat.mod_lt _ (by norm_num)
      generalize v.toNat % 2 ^ 52 = f at *
      subst h
      have h0 : (2 ^ 52 + f) * 2 ^ (e - 1) ≠ 0 := by positivity
      have hlog : Nat.log2 ((2 ^ 52 + f) * 2 ^ (e - 1)) < 53 + (e - 1) := by
        rw [Nat.log2_lt h0, Nat.pow_add]
        exact Nat.mul_lt_mul_of_pos_right (by omega) (by positivity)
      exact (pow_dvd_pow 2 (by omega)).trans (dvd_mul_left _ _)

/-- What `lnUnits` computes from: the significand lies between one and two, and scales back to `u`. -/
theorem lnUnits_parts (u : Nat) (hu : 0 < u) (hdvd : 2 ^ (Nat.log2 u - 52) ∣ u) :
    let t := Nat.log2 u - 52
    let m := u / 2 ^ t
    let one := 2 ^ (Nat.log2 u - t)
    m * 2 ^ t = u ∧ one * 2 ^ t = 2 ^ Nat.log2 u ∧ one ≤ m ∧ m < 2 * one := by
  intro t m one
  have hm : m * 2 ^ t = u := Nat.div_mul_cancel hdvd
  have ho : one * 2 ^ t = 2 ^ Nat.log2 u := by
    rw [← Nat.pow_add]; congr 1; omega
  have h1 : 2 ^ Nat.log2 u ≤ u := Nat.log2_self_le (by omega)
  have h2 : u < 2 ^ (Nat.log2 u + 1) := Nat.lt_log2_self
  have ht : 0 < 2 ^ t := by positivity
  refine ⟨hm, ho, Nat.le_of_mul_le_mul_right (by omega) ht, Nat.lt_of_mul_lt_mul_right (a := 2 ^ t) ?_⟩
  rw [Nat.pow_succ] at h2
  rw [Nat.mul_assoc]
  omega

/-- `lnUnits` brackets the natural logarithm of a binary64 value. -/
theorem lnUnits_brackets (u : Nat) (hu : 0 < u) (hdvd : 2 ^ (Nat.log2 u - 52) ∣ u) :
    ((lnUnits u).1 : ℝ) ≤ Real.log ((u : ℝ) / 2 ^ 1074) * fixOne ∧
    Real.log ((u : ℝ) / 2 ^ 1074) * fixOne ≤ (lnUnits u).2 ∧
    ((lnUnits u).2 : ℝ) - (lnUnits u).1 ≤ 8 + 8 * |((Nat.log2 u : ℝ) - 1074)| := by
  obtain ⟨hm, ho, h1, h2⟩ := lnUnits_parts u hu hdvd
  unfold lnUnits
  simp only
  generalize hL : Nat.log2 u = L at *
  generalize L - 52 = t at *
  generalize u / 2 ^ t = m at *
  generalize 2 ^ (L - t) = one at *
  have hone : 0 < one := by
    rcases Nat.eq_zero_or_pos one with h | h
    · subst h
      have : 0 < 2 ^ L := by positivity
      omega
    · exact h
  obtain ⟨f1, f2, f3⟩ := lnBounds_brackets (m - one) (m + one) (by omega) (by omega)
  obtain ⟨g1, g2, g3⟩ := ln2Bounds_brackets
  have honeR : (0 : ℝ) < one := by exact_mod_cast hone
  have hmR : (0 : ℝ) < m := by exact_mod_cast hone.trans_le h1
  have hx : (((m + one : Nat) : ℝ) + ((m - one : Nat) : ℝ)) / (((m + one : Nat) : ℝ) - ((m - one : Nat) : ℝ))
      = (m : ℝ) / one := by
    rw [Nat.cast_sub h1]; push_cast
    rw [show (m : ℝ) + one + (m - one) = 2 * m by ring, show (m : ℝ) + one - (m - one) = 2 * one by ring]
    field_simp
  rw [hx] at f1 f2
  have hlog : Real.log ((u : ℝ) / 2 ^ 1074) = Real.log ((m : ℝ) / one) + ((L : ℝ) - 1074) * Real.log 2 := by
    have huR : (u : ℝ) = m * 2 ^ t := by exact_mod_cast hm.symm
    have hoR : (one : ℝ) * 2 ^ t = 2 ^ L := by exact_mod_cast ho
    have : (u : ℝ) / 2 ^ 1074 = (m / one) * (2 ^ L / 2 ^ 1074) := by
      rw [← hoR, huR]; field_simp
    rw [this, Real.log_mul (by positivity) (by positivity), Real.log_div (x := (m : ℝ)) (by positivity) (by positivity),
      Real.log_div (by positivity) (by positivity), Real.log_pow, Real.log_pow]
    push_cast; ring
  rw [hlog]
  generalize lnBounds (m - one) (m + one) = f at *
  generalize ln2Bounds = g at *
  have he : (((L : Int) - 1074 : Int) : ℝ) = (L : ℝ) - 1074 := by push_cast; ring
  generalize ((L : Int) - 1074) = e at *
  rw [← he]
  split
  · rename_i hp
    have hp' : (0 : ℝ) ≤ e := by exact_mod_cast hp
    push_cast
    rw [abs_of_nonneg hp']
    refine ⟨?_, ?_, ?_⟩ <;> nlinarith [mul_le_mul_of_nonneg_left g1 hp', mul_le_mul_of_nonneg_left g2 hp', mul_le_mul_of_nonneg_left g3 hp']
  · rename_i hp
    have hp' : (e : ℝ) ≤ 0 := by exact_mod_cast (not_le.1 hp).le
    push_cast
    rw [abs_of_nonpos hp']
    refine ⟨?_, ?_, ?_⟩ <;> nlinarith [mul_le_mul_of_nonpos_left g1 hp', mul_le_mul_of_nonpos_left g2 hp', mul_le_mul_of_nonpos_left g3 hp']

/-- The multiples of `2^j` next to a power of two, below and above. -/
theorem below_of_dvd {u j : Nat} (h : 2 ^ j ∣ u) (hu : u < 2 ^ (j + 53)) :
    (u : ℝ) / 2 ^ (j + 53) ≤ 1 - 1 / 2 ^ 53 := by
  obtain ⟨c, rfl⟩ := h
  rw [Nat.pow_add] at hu
  have hc : c + 1 ≤ 2 ^ 53 := Nat.lt_of_mul_lt_mul_left hu
  have hcR : (c : ℝ) + 1 ≤ 2 ^ 53 := by exact_mod_cast hc
  rw [div_le_iff₀ (by positivity), pow_add]
  push_cast
  have : (1 - 1 / 2 ^ 53 : ℝ) * (2 ^ j * 2 ^ 53) = 2 ^ j * (2 ^ 53 - 1) := by ring
  rw [this]
  exact mul_le_mul_of_nonneg_left (by linarith) (by positivity)

theorem above_of_dvd {u j : Nat} (h : 2 ^ j ∣ u) (hu : 2 ^ (j + 52) < u) :
    1 + 1 / 2 ^ 52 ≤ (u : ℝ) / 2 ^ (j + 52) := by
  obtain ⟨c, rfl⟩ := h
  rw [Nat.pow_add] at hu
  have hc : 2 ^ 52 + 1 ≤ c := Nat.lt_of_mul_lt_mul_left hu
  have hcR : (2 : ℝ) ^ 52 + 1 ≤ c := by exact_mod_cast hc
  rw [le_div_iff₀ (by positivity), pow_add]
  push_cast
  have : (1 + 1 / 2 ^ 52 : ℝ) * (2 ^ j * 2 ^ 52) = 2 ^ j * (2 ^ 52 + 1) := by ring
  rw [this]
  exact mul_le_mul_of_nonneg_left hcR (by positivity)

/-- A binary64 value other than 1 is no nearer to 1 than its precision, and its logarithm grows with its
exponent. -/
theorem le_abs_log_units (u : Nat) (hu : 0 < u) (hdvd : 2 ^ (Nat.log2 u - 52) ∣ u) (h1 : u ≠ 2 ^ 1074) :
    8 + 8 * |((Nat.log2 u : ℝ) - 1074)| ≤ 2 ^ 58 * |Real.log ((u : ℝ) / 2 ^ 1074)| := by
  have hL0 : 2 ^ Nat.log2 u ≤ u := Nat.log2_self_le (by omega)
  have hL1 : u < 2 ^ (Nat.log2 u + 1) := Nat.lt_log2_self
  have huR : (0 : ℝ) < u := by exact_mod_cast hu
  have h2 : (1 : ℝ) / 2 < Real.log 2 := by linarith [Real.log_two_gt_d9]
  generalize hK : 1074 = K at h1
  have hlog : Real.log ((u : ℝ) / 2 ^ K) = Real.log u - K * Real.log 2 := by
    rw [Real.log_div (by positivity) (by positivity), Real.log_pow]
  have hKR : (1074 : ℝ) = K := by rw [← hK]; norm_num
  rw [hKR]
  have hpos : (0 : ℝ) < (u : ℝ) / 2 ^ K := by positivity
  generalize Nat.log2 u = L at *
  rcases lt_trichotomy L K with h | h | h
  · obtain h' | h' : L = K - 53 + 52 ∨ L + 2 ≤ K := by omega
    · have hd : 2 ^ (K - 53) ∣ u := by rwa [h', Nat.add_sub_cancel] at hdvd
      have hx := below_of_dvd hd (by rwa [h'] at hL1)
      rw [Nat.sub_add_cancel (by omega)] at hx
      have hl := Real.log_le_sub_one_of_pos hpos
      have hLR : (L : ℝ) = K - 1 := by
        have : L + 1 = K := by omega
        rw [← this]; push_cast; ring
      generalize Real.log ((u : ℝ) / 2 ^ K) = y at *
      generalize (u : ℝ) / 2 ^ K = x at *
      rw [hLR, show (K : ℝ) - 1 - K = -1 by ring, abs_of_nonpos (a := y) (by linarith [show (0:ℝ) < 1 / 2 ^ 53 by positivity])]
      norm_num at hl hx ⊢
      linarith
    · have hl : Real.log u ≤ (L + 1) * Real.log 2 := by
        rw [← Nat.cast_succ, ← Real.log_pow]
        exact Real.log_le_log huR (by exact_mod_cast hL1.le)
      have hLR : (L : ℝ) + 2 ≤ K := by exact_mod_cast h'
      rw [hlog, abs_of_nonpos (a := (L : ℝ) - K) (by linarith), abs_of_nonpos (by nlinarith)]
      nlinarith
  · subst h
    have hd : 2 ^ (L - 52) ∣ u := hdvd
    have hx := above_of_dvd hd (by
      rw [Nat.sub_add_cancel (by omega)]
      exact lt_of_le_of_ne hL0 (Ne.symm h1))
    rw [Nat.sub_add_cancel (by omega)] at hx
    have hl := Real.one_sub_inv_le_log_of_pos hpos
    have hinv : ((u : ℝ) / 2 ^ L)⁻¹ ≤ (1 + 1 / 2 ^ 52)⁻¹ := inv_anti₀ (by positivity) hx
    have hk : (1 : ℝ) / 2 ^ 53 ≤ 1 - (1 + 1 / 2 ^ 52)⁻¹ := by norm_num
    have hl' : (1 : ℝ) / 2 ^ 53 ≤ Real.log ((u : ℝ) / 2 ^ L) := by linarith
    rw [abs_of_nonneg (a := Real.log ((u : ℝ) / 2 ^ L)) (le_trans (by positivity) hl'), sub_self, abs_zero]
    generalize Real.log ((u : ℝ) / 2 ^ L) = y at *
    norm_num at hl' ⊢
    linarith
  · have hl : L * Real.log 2 ≤ Real.log u := by
      rw [← Real.log_pow]
      exact Real.log_le_log (by positivity) (by exact_mod_cast hL0)
    have hLR : (K : ℝ) + 1 ≤ L := by exact_mod_cast h
    rw [hlog, abs_of_nonneg (a := (L : ℝ) - K) (by linarith), abs_of_nonneg (by nlinarith)]
    nlinarith

/-! ### Pi -/

/-- The tails of the alternating `sum (-1)^j y^j / (2 j + 1)`, bounded by `atanSum`. -/
theorem atanSum_brackets (b : Nat) (hb : 5 ≤ b) (T : Nat → ℝ)
    (hT : ∀ i, T i = 1 / (2 * i + 1) - 1 / ((b : ℝ) * b) * T (i + 1))
    (hT0 : ∀ i, 0 ≤ T i) (hT1 : ∀ i, T i ≤ 1) (n i : Nat) :
    Brackets (atanSum b n i) (T i) (25 / 6 + fixOne / 25 ^ n) := by
  induction n generalizing i with
  | zero =>
    have hF := fixOne_pos
    refine ⟨by simpa [atanSum] using mul_nonneg (hT0 i) hF.le, ?_, by simp [atanSum]; norm_num⟩
    have := mul_le_mul_of_nonneg_right (hT1 i) hF.le
    simpa [atanSum] using this
  | succ n ih =>
    obtain ⟨h1, h2, h3⟩ := ih (i + 1)
    have hF := fixOne_pos
    have hbR : (5 : ℝ) ≤ b := by exact_mod_cast hb
    have hbb : 0 < b * b := by positivity
    have hb' : (0 : ℝ) < (b : ℝ) * b := by exact_mod_cast hbb
    have hy0 : (0 : ℝ) ≤ 1 / ((b : ℝ) * b) := by positivity
    have hy1 : 1 / ((b : ℝ) * b) ≤ 1 / 25 := by
      rw [div_le_div_iff₀ hb' (by norm_num)]; nlinarith
    have hTi := hT i
    have hTi0 := mul_nonneg (hT0 i) hF.le
    simp only [atanSum, Brackets]
    generalize atanSum b n (i + 1) = r at *
    have e1 := floorDiv_le fixOne (2 * i + 1)
    have e2 := floorDiv_le r.1 (b * b)
    have e3 := le_ceilDiv fixOne (2 * i + 1) (by omega)
    have e4 := le_ceilDiv r.2 (b * b) hbb
    have e5 := le_floorDiv fixOne (2 * i + 1) (by omega)
    have e6 := le_floorDiv r.1 (b * b) hbb
    have e7 := ceilDiv_le fixOne (2 * i + 1) (by omega)
    have e8 := ceilDiv_le r.2 (b * b) hbb
    push_cast at e1 e2 e3 e4 e5 e6 e7 e8
    have hq (z : ℝ) : z / ((b : ℝ) * b) = 1 / ((b : ℝ) * b) * z := by ring
    rw [hq] at e2 e4 e6 e8
    have hpow : (fixOne : ℝ) / 25 ^ (n + 1) = fixOne / 25 ^ n / 25 := by rw [pow_succ]; field_simp
    rw [hpow]
    have hTF : T i * fixOne = fixOne / (2 * i + 1) - 1 / ((b : ℝ) * b) * (T (i + 1) * fixOne) := by
      rw [hTi]; ring
    generalize (fixOne : ℝ) / 25 ^ n = G at *
    generalize 1 / ((b : ℝ) * b) = y at *
    have g1 := mul_le_mul_of_nonneg_left h1 hy0
    have g2 := mul_le_mul_of_nonneg_left h2 hy0
    have g3 : y * ((r.2 : ℝ) - r.1) ≤ y * (25 / 6 + G) := mul_le_mul_of_nonneg_left h3 hy0
    have g4 : y * (25 / 6 + G) ≤ 1 / 25 * (25 / 6 + G) := mul_le_mul_of_nonneg_right hy1 (by
      have : (r.1 : ℝ) ≤ r.2 := h1.trans h2
      linarith)
    have hsub : r.1 / (b * b) ≤ ceilDiv fixOne (2 * i + 1) := by
      have : ((r.1 / (b * b) : Nat) : ℝ) ≤ ceilDiv fixOne (2 * i + 1) := by linarith
      exact_mod_cast this
    rw [cast_sub_eq_max, Nat.cast_sub hsub]
    refine ⟨max_le (by linarith) hTi0, by linarith, ?_⟩
    have := le_max_left (((fixOne / (2 * i + 1) : Nat) : ℝ) - (ceilDiv r.2 (b * b) : ℝ)) 0
    linarith

/-- `atanBounds` brackets the arc tangent. -/
theorem atanBounds_brackets (b : Nat) (hb : 5 ≤ b) : Brackets (atanBounds b) (Real.arctan (b : ℝ)⁻¹) 3 := by
  have hF := fixOne_pos
  have hbR : (5 : ℝ) ≤ b := by exact_mod_cast hb
  have hb0 : (0 : ℝ) < b := by linarith
  set y : ℝ := 1 / ((b : ℝ) * b) with hy
  have hy0 : 0 ≤ y := by positivity
  have hy1 : y ≤ 1 / 25 := by rw [hy, div_le_div_iff₀ (by positivity) (by norm_num)]; nlinarith
  let c : Nat → Nat → ℝ := fun i j => (-y) ^ j / (2 * ((i + j : Nat) : ℝ) + 1)
  let T : Nat → ℝ := fun i => ∑' j : ℕ, c i j
  have habs (i j : Nat) : ‖c i j‖ ≤ 1 / (2 * i + 1) * y ^ j := by
    have hd : (0 : ℝ) < 2 * ((i + j : Nat) : ℝ) + 1 := by positivity
    have hj : (0 : ℝ) ≤ j := by positivity
    simp only [c]
    rw [norm_div, norm_pow, norm_neg, Real.norm_of_nonneg hy0, Real.norm_of_nonneg hd.le, one_div_mul_eq_div]
    refine div_le_div_of_nonneg_left (by positivity) (by positivity) ?_
    push_cast; linarith
  have hgeo : Summable fun j : ℕ => y ^ j := summable_geometric_of_lt_one hy0 (by linarith)
  have hsum (i : Nat) : Summable (c i) := Summable.of_norm_bounded (hgeo.mul_left _) (habs i)
  have hT (i : Nat) : T i = 1 / (2 * i + 1) - y * T (i + 1) := by
    simp only [T]
    rw [(hsum i).tsum_eq_zero_add, ← tsum_mul_left, sub_eq_add_neg, ← tsum_neg]
    refine congr_arg₂ _ (by simp [c]) (tsum_congr fun j => ?_)
    simp only [c]
    rw [pow_succ, show i + (j + 1) = i + 1 + j by omega]
    ring
  have hTabs (i : Nat) : T i ≤ 25 / 24 * (1 / (2 * i + 1)) := by
    refine (le_abs_self _).trans ?_
    rw [← Real.norm_eq_abs]
    refine (tsum_of_norm_bounded ((hasSum_geometric_of_lt_one hy0 (by linarith)).mul_left _) (habs i)).trans ?_
    rw [mul_comm]
    refine mul_le_mul_of_nonneg_right ?_ (by positivity)
    rw [inv_le_comm₀ (by linarith) (by norm_num)]
    linarith
  have hT0 (i : Nat) : 0 ≤ T i := by
    have h1 := hTabs (i + 1)
    have h2 : (1 : ℝ) / (2 * ((i + 1 : Nat) : ℝ) + 1) ≤ 1 / (2 * i + 1) :=
      div_le_div_of_nonneg_left (by norm_num) (by positivity) (by push_cast; linarith)
    have h3 : (0 : ℝ) ≤ 1 / (2 * i + 1) := by positivity
    rw [hT i]
    have h4 : y * T (i + 1) ≤ y * (25 / 24 * (1 / (2 * i + 1))) := mul_le_mul_of_nonneg_left (by linarith) hy0
    nlinarith
  have hT1 (i : Nat) : T i ≤ 1 := by
    have h3 : (1 : ℝ) / (2 * i + 1) ≤ 1 := by
      rw [div_le_one (by positivity)]
      have : (0 : ℝ) ≤ i := by positivity
      linarith
    have := mul_nonneg hy0 (hT0 (i + 1))
    rw [hT i]; linarith
  have hatan : Real.arctan (b : ℝ)⁻¹ = T 0 / b := by
    have h := Real.hasSum_arctan (x := (b : ℝ)⁻¹) (by
      rw [norm_inv, Real.norm_of_nonneg hb0.le]
      exact (inv_lt_one₀ hb0).2 (by linarith))
    have h' : HasSum (fun n : ℕ => (-1 : ℝ) ^ n * (b : ℝ)⁻¹ ^ (2 * n + 1) / ((2 * n + 1 : Nat) : ℝ)) (T 0 / b) := by
      refine ((hsum 0).hasSum.div_const (b : ℝ)).congr_fun fun n => ?_
      simp only [c, hy]
      rw [Nat.zero_add, pow_succ, pow_mul, neg_pow]
      push_cast
      field_simp
      rw [one_pow, mul_one, ← mul_pow, neg_one_mul]
    exact h.unique h'
  obtain ⟨h1, h2, h3⟩ := atanSum_brackets b hb T hT hT0 hT1 75 0
  have hw : (fixOne : ℝ) / 25 ^ 75 ≤ 1 / 2 := by
    rw [div_le_div_iff₀ (by positivity) (by norm_num)]
    have : fixOne * 2 ≤ 1 * 25 ^ 75 := by decide +kernel
    exact_mod_cast this
  unfold atanBounds Brackets
  simp only
  generalize atanSum b 75 0 = r at *
  have hb1 : 0 < b := by omega
  have e1 := floorDiv_le r.1 b
  have e2 := le_ceilDiv r.2 b hb1
  have e3 := le_floorDiv r.1 b hb1
  have e4 := ceilDiv_le r.2 b hb1
  rw [hatan, div_mul_eq_mul_div]
  have g1 := div_le_div_of_nonneg_right h1 hb0.le
  have g2 := div_le_div_of_nonneg_right h2 hb0.le
  have g3 : ((r.2 : ℝ) - r.1) / b ≤ 5 / 5 := div_le_div₀ (by norm_num) (by linarith) (by norm_num) hbR
  rw [sub_div] at g3
  exact ⟨by linarith, by linarith, by linarith⟩

/-- `piBounds` brackets pi. -/
theorem piBounds_brackets : Brackets piBounds Real.pi 60 := by
  obtain ⟨a1, a2, a3⟩ := atanBounds_brackets 5 (by norm_num)
  obtain ⟨b1, b2, b3⟩ := atanBounds_brackets 239 (by norm_num)
  have hm := Real.four_mul_arctan_inv_5_sub_arctan_inv_239
  have hpi : Real.pi = 16 * Real.arctan ((5 : Nat) : ℝ)⁻¹ - 4 * Real.arctan ((239 : Nat) : ℝ)⁻¹ := by
    push_cast; linarith
  have h1 : 4 * (atanBounds 239).2 ≤ 16 * (atanBounds 5).1 := by decide +kernel
  have h2 : 4 * (atanBounds 239).1 ≤ 16 * (atanBounds 5).2 := by decide +kernel
  unfold piBounds Brackets
  simp only
  generalize atanBounds 5 = r at *
  generalize atanBounds 239 = q at *
  rw [Nat.cast_sub h1, Nat.cast_sub h2, hpi]
  push_cast at *
  exact ⟨by linarith, by linarith, by linarith⟩

/-! ### The series of cosine and sine -/

/-- The tails of the alternating `sum (-z)^j (2 i + c)! / (2 (i + j) + c)!`, bounded by `taylorSum`. -/
theorem taylorSum_brackets (c : Nat) (xx : Nat × Nat) (z w : ℝ) (hxx : Brackets xx z w) (hz : 0 ≤ z)
    (hF1 : xx.2 ≤ fixOne) (T : Nat → ℝ)
    (hT : ∀ i : Nat, T i = 1 - z / (((2 * i + 1 + c) * (2 * i + 2 + c) : Nat) : ℝ) * T (i + 1))
    (hT0 : ∀ i, 0 ≤ T i) (hT1 : ∀ i, T i ≤ 1) (n i : Nat) :
    Brackets (taylorSum c xx n i) (T i)
      (4 + w + fixOne * (factorial (2 * i + c) / factorial (2 * (i + n) + c))) := by
  obtain ⟨x1, x2, x3⟩ := hxx
  have hF := fixOne_pos
  have hw : 0 ≤ w := by linarith
  induction n generalizing i with
  | zero =>
    refine ⟨by simpa [taylorSum] using mul_nonneg (hT0 i) hF.le, ?_, ?_⟩
    · have := mul_le_mul_of_nonneg_right (hT1 i) hF.le
      simpa [taylorSum] using this
    · rw [Nat.add_zero, div_self (by positivity)]
      simp [taylorSum]; linarith
  | succ n ih =>
    obtain ⟨h1, h2, h3⟩ := ih (i + 1)
    have hTi := hT i
    have hTi0 := mul_nonneg (hT0 i) hF.le
    have hTs1 := mul_le_mul_of_nonneg_right (hT1 (i + 1)) hF.le
    have hTs0 := mul_nonneg (hT0 (i + 1)) hF.le
    have hfac : (factorial (2 * i + c) / factorial (2 * (i + (n + 1)) + c) : ℝ) =
        factorial (2 * (i + 1) + c) / factorial (2 * (i + 1 + n) + c) /
          (((2 * i + 1 + c) * (2 * i + 2 + c) : Nat) : ℝ) := by
      rw [show 2 * (i + 1) + c = 2 * i + c + 1 + 1 by ring, Nat.factorial_succ, Nat.factorial_succ,
        show 2 * (i + (n + 1)) + c = 2 * (i + 1 + n) + c by ring]
      have : (factorial (2 * (i + 1 + n) + c) : ℝ) ≠ 0 := by positivity
      push_cast
      field_simp
      ring
    have hq2 : 2 ≤ (2 * i + 1 + c) * (2 * i + 2 + c) := by nlinarith
    simp only [taylorSum, Brackets]
    rw [hfac]
    generalize (2 * i + 1 + c) * (2 * i + 2 + c) = q at *
    generalize taylorSum c xx n (i + 1) = r at *
    generalize (factorial (2 * (i + 1) + c) / factorial (2 * (i + 1 + n) + c) : ℝ) = ρ at *
    have hqR : (2 : ℝ) ≤ q := by exact_mod_cast hq2
    have hq0 : (0 : ℝ) < q := by linarith
    have hFN : 0 < fixOne := by exact_mod_cast hF
    have hqF : 0 < q * fixOne := Nat.mul_pos (by omega) hFN
    have e1 := floorDiv_le (xx.1 * r.1) (q * fixOne)
    have e2 := le_ceilDiv (xx.2 * r.2) (q * fixOne) hqF
    have e3 := le_floorDiv (xx.1 * r.1) (q * fixOne) hqF
    have e4 := ceilDiv_le (xx.2 * r.2) (q * fixOne) hqF
    push_cast at e1 e2 e3 e4
    have hF1R : (xx.2 : ℝ) ≤ fixOne := by exact_mod_cast hF1
    have hr0 : (0 : ℝ) ≤ r.1 := by positivity
    have hx0 : (0 : ℝ) ≤ xx.1 := by positivity
    have hx2 : (0 : ℝ) ≤ xx.2 := by positivity
    have hr2 : (0 : ℝ) ≤ r.2 := by positivity
    have hTF : T i * fixOne = fixOne - (z * fixOne) * (T (i + 1) * fixOne) / (q * fixOne) := by
      rw [hTi]; field_simp
    have hqF' : (0 : ℝ) < q * fixOne := by positivity
    have g1 : (xx.1 : ℝ) * r.1 / (q * fixOne) ≤ (z * fixOne) * (T (i + 1) * fixOne) / (q * fixOne) :=
      div_le_div_of_nonneg_right (mul_le_mul x1 h1 hr0 (by positivity)) hqF'.le
    have g2 : (z * fixOne) * (T (i + 1) * fixOne) / (q * fixOne) ≤ (xx.2 : ℝ) * r.2 / (q * fixOne) :=
      div_le_div_of_nonneg_right (mul_le_mul x2 h2 hTs0 hx2) hqF'.le
    have g3 : (xx.2 : ℝ) * r.2 / (q * fixOne) - (xx.1 : ℝ) * r.1 / (q * fixOne) ≤
        2 + w + fixOne * (ρ / q) := by
      rw [← sub_div, div_le_iff₀ hqF']
      have k1 : (xx.2 : ℝ) * r.2 - xx.1 * r.1 = xx.2 * (r.2 - r.1) + r.1 * (xx.2 - xx.1) := by ring
      have k2 : (xx.2 : ℝ) * (r.2 - r.1) ≤ fixOne * (4 + w + fixOne * ρ) :=
        mul_le_mul hF1R h3 (by linarith) hF.le
      have k3 : (r.1 : ℝ) * (xx.2 - xx.1) ≤ fixOne * w :=
        mul_le_mul (by linarith) x3 (by linarith) hF.le
      have k4 : (2 + w + fixOne * (ρ / q)) * (q * fixOne) = fixOne * (q * (2 + w) + fixOne * ρ) := by
        field_simp
      have k5 : 2 * (2 + w) ≤ q * (2 + w) := mul_le_mul_of_nonneg_right hqR (by linarith)
      rw [k1, k4]
      have k6 : (fixOne : ℝ) * (2 * (2 + w)) ≤ fixOne * (q * (2 + w)) := mul_le_mul_of_nonneg_left k5 hF.le
      nlinarith
    rw [cast_sub_eq_max, cast_sub_eq_max, hTF]
    refine ⟨max_le (by linarith) (by linarith), le_max_of_le_left (by linarith), ?_⟩
    have m1 := le_max_left ((fixOne : ℝ) - (ceilDiv (xx.2 * r.2) (q * fixOne) : ℝ)) 0
    rw [max_eq_left (a := (fixOne : ℝ) - _) (by linarith)]
    linarith

/-- The tail of the series of the cosine (`c = 0`) and of the sine (`c = 1`) from its term `i` on, scaled to
begin with 1. -/
noncomputable def taylorTail (c : Nat) (z : ℝ) (i : Nat) : ℝ :=
  ∑' j : ℕ, (-z) ^ j * (factorial (2 * i + c) / factorial (2 * (i + j) + c))

theorem factorial_ratio_le (k j : Nat) : (factorial k / factorial (k + 2 * j) : ℝ) ≤ (1 / 2) ^ j := by
  induction j with
  | zero => simpa using div_self_le_one _
  | succ j ih =>
    have h : (0 : ℝ) < factorial (k + 2 * j) := by positivity
    rw [show k + 2 * (j + 1) = k + 2 * j + 1 + 1 by ring, Nat.factorial_succ, Nat.factorial_succ, pow_succ]
    push_cast
    rw [div_le_iff₀ (by positivity)]
    rw [div_le_iff₀ h] at ih
    have h1 : (1 : ℝ) ≤ (k + 2 * j + 1) := by
      have : (0 : ℝ) ≤ k + 2 * j := by positivity
      linarith
    have h2 : (2 : ℝ) ≤ (k + 2 * j + 1 + 1) := by linarith
    have h3 : (2 : ℝ) ≤ (k + 2 * j + 1 + 1) * (k + 2 * j + 1) := by nlinarith
    have h4 : (0 : ℝ) ≤ (1 / 2) ^ j * factorial (k + 2 * j) := by positivity
    nlinarith

variable {c : Nat} {z : ℝ}

theorem taylorTail_norm_le (hz : 0 ≤ z) (hz1 : z ≤ 1) (i j : Nat) :
    ‖(-z) ^ j * (factorial (2 * i + c) / factorial (2 * (i + j) + c) : ℝ)‖ ≤ (1 / 2) ^ j := by
  have hr : (0 : ℝ) ≤ factorial (2 * i + c) / factorial (2 * (i + j) + c) := by positivity
  rw [norm_mul, norm_pow, norm_neg, Real.norm_of_nonneg hz, Real.norm_of_nonneg hr]
  have h := factorial_ratio_le (2 * i + c) j
  rw [show 2 * i + c + 2 * j = 2 * (i + j) + c by ring] at h
  exact (mul_le_of_le_one_left hr (pow_le_one₀ hz hz1)).trans h

theorem taylorTail_summable (hz : 0 ≤ z) (hz1 : z ≤ 1) (i : Nat) :
    Summable fun j : ℕ => (-z) ^ j * (factorial (2 * i + c) / factorial (2 * (i + j) + c) : ℝ) :=
  Summable.of_norm_bounded (summable_geometric_of_lt_one (by norm_num) (by norm_num))
    (taylorTail_norm_le hz hz1 i)

theorem taylorTail_succ (hz : 0 ≤ z) (hz1 : z ≤ 1) (i : Nat) :
    taylorTail c z i = 1 - z / (((2 * i + 1 + c) * (2 * i + 2 + c) : Nat) : ℝ) * taylorTail c z (i + 1) := by
  unfold taylorTail
  rw [(taylorTail_summable hz hz1 i).tsum_eq_zero_add, ← tsum_mul_left, sub_eq_add_neg, ← tsum_neg]
  refine congr_arg₂ _ ?_ (tsum_congr fun j => ?_)
  · rw [pow_zero, one_mul, Nat.add_zero, div_self (by positivity)]
  · rw [show 2 * (i + 1) + c = 2 * i + c + 1 + 1 by ring, Nat.factorial_succ, Nat.factorial_succ,
      show 2 * (i + (j + 1)) + c = 2 * (i + 1 + j) + c by ring, pow_succ]
    have : (factorial (2 * (i + 1 + j) + c) : ℝ) ≠ 0 := by positivity
    push_cast
    field_simp
    ring

theorem taylorTail_le_two (hz : 0 ≤ z) (hz1 : z ≤ 1) (i : Nat) : taylorTail c z i ≤ 2 := by
  refine (le_abs_self _).trans ?_
  rw [← Real.norm_eq_abs]
  exact tsum_of_norm_bounded hasSum_geometric_two (taylorTail_norm_le hz hz1 i)

theorem taylorTail_nonneg (hz : 0 ≤ z) (hz1 : z ≤ 1) (i : Nat) : 0 ≤ taylorTail c z i := by
  rw [taylorTail_succ hz hz1]
  have h := taylorTail_le_two (c := c) hz hz1 (i + 1)
  have hq : (2 : ℝ) ≤ (((2 * i + 1 + c) * (2 * i + 2 + c) : Nat) : ℝ) := by
    exact_mod_cast (by nlinarith : 2 ≤ (2 * i + 1 + c) * (2 * i + 2 + c))
  generalize (((2 * i + 1 + c) * (2 * i + 2 + c) : Nat) : ℝ) = q at *
  have h1 : z / q ≤ 1 / 2 := div_le_div₀ (by norm_num) hz1 (by norm_num) hq
  have h2 : 0 ≤ z / q := div_nonneg hz (by linarith)
  nlinarith

theorem taylorTail_le_one (hz : 0 ≤ z) (hz1 : z ≤ 1) (i : Nat) : taylorTail c z i ≤ 1 := by
  rw [taylorTail_succ hz hz1]
  have h := mul_nonneg (div_nonneg hz (Nat.cast_nonneg ((2 * i + 1 + c) * (2 * i + 2 + c))))
    (taylorTail_nonneg (c := c) hz hz1 (i + 1))
  linarith

theorem taylorTail_cos {x : ℝ} (h : x ^ 2 ≤ 1) : taylorTail 0 (x ^ 2) 0 = Real.cos x := by
  have hs := (taylorTail_summable (c := 0) (sq_nonneg x) h 0).hasSum
  refine HasSum.unique (hs.congr_fun fun j => ?_) (Real.hasSum_cos x)
  rw [pow_mul, neg_pow (x ^ 2), Nat.zero_add]
  simp only [Nat.factorial_zero, Nat.cast_one, Nat.zero_add, Nat.add_zero]
  ring

theorem taylorTail_sin {x : ℝ} (h : x ^ 2 ≤ 1) : x * taylorTail 1 (x ^ 2) 0 = Real.sin x := by
  have hs := (taylorTail_summable (c := 1) (sq_nonneg x) h 0).hasSum.mul_left x
  refine HasSum.unique (hs.congr_fun fun j => ?_) (Real.hasSum_sin x)
  rw [pow_succ, pow_mul, neg_pow (x ^ 2), Nat.zero_add]
  simp only [Nat.zero_add, Nat.factorial_one, Nat.cast_one]
  ring

/-- `taylorSum` brackets the series, 40 terms of it. -/
theorem taylorSum_brackets_tail (c : Nat) (hc : c ≤ 1) (xx : Nat × Nat) (w : ℝ) (hxx : Brackets xx z w)
    (hz : 0 ≤ z) (hz1 : z ≤ 1) (hF1 : xx.2 ≤ fixOne) :
    Brackets (taylorSum c xx 40 0) (taylorTail c z 0) (5 + w) := by
  obtain ⟨h1, h2, h3⟩ := taylorSum_brackets c xx z w hxx hz hF1 _ (taylorTail_succ hz hz1)
    (taylorTail_nonneg hz hz1) (taylorTail_le_one hz hz1) 40 0
  refine ⟨h1, h2, h3.trans ?_⟩
  have hf : (fixOne : ℝ) * (factorial (2 * 0 + c) / factorial (2 * (0 + 40) + c)) ≤ 1 := by
    rw [mul_div_assoc', div_le_one (by positivity)]
    have hb : ∀ c : Fin 2, fixOne * factorial (2 * 0 + c) ≤ factorial (2 * (0 + 40) + c) := by decide +kernel
    have : fixOne * factorial (2 * 0 + c) ≤ factorial (2 * (0 + 40) + c) := hb ⟨c, by omega⟩
    exact_mod_cast this
  linarith

/-! ### Cosine and sine of an eighth of a turn -/

/-- Twice the bounds of pi, times `n / d`. -/
theorem angleBounds_brackets (n d : Nat) (hd : 0 < d) (hn : 8 * n ≤ d) :
    Brackets (angleBounds n d) (2 * Real.pi * n / d) 17 := by
  have hdR : (0 : ℝ) < d := by exact_mod_cast hd
  have hnR : (8 * n : ℝ) ≤ d := by exact_mod_cast hn
  have hn0 : (0 : ℝ) ≤ n := by positivity
  have hr : (n : ℝ) / d ≤ 1 / 8 := by rw [div_le_div_iff₀ hdR (by norm_num)]; linarith
  have hr0 : 0 ≤ (n : ℝ) / d := by positivity
  obtain ⟨a1, a2, a3⟩ := piBounds_brackets
  unfold angleBounds Brackets
  simp only
  generalize piBounds = r at *
  have e1 := floorDiv_le (2 * r.1 * n) d
  have e2 := le_ceilDiv (2 * r.2 * n) d hd
  have e3 := le_floorDiv (2 * r.1 * n) d hd
  have e4 := ceilDiv_le (2 * r.2 * n) d hd
  push_cast at e1 e2 e3 e4
  rw [mul_div_assoc] at e1 e2 e3 e4
  have hx : 2 * Real.pi * n / d * fixOne = 2 * (Real.pi * fixOne) * (n / d) := by ring
  rw [hx]
  generalize (n : ℝ) / d = q at *
  have g1 := mul_le_mul_of_nonneg_right a1 hr0
  have g2 := mul_le_mul_of_nonneg_right a2 hr0
  have g3 : ((r.2 : ℝ) - r.1) * q ≤ 60 * (1 / 8) := mul_le_mul a3 hr hr0 (by norm_num)
  exact ⟨by linarith, by linarith, by linarith⟩

/-- The square of a number between 0 and 4/5. -/
theorem squareBounds_brackets (r : Nat × Nat) (x : ℝ) (h : Brackets r x 17) (h0 : 0 ≤ x) (h1 : x ≤ 4 / 5) :
    Brackets (squareBounds r) (x ^ 2) 31 ∧ (squareBounds r).2 ≤ fixOne := by
  obtain ⟨a1, a2, a3⟩ := h
  have hF := fixOne_pos
  have hFN : 0 < fixOne := by exact_mod_cast hF
  have hbig : (10000 : ℝ) ≤ fixOne := by
    have : 10000 ≤ fixOne := by decide +kernel
    exact_mod_cast this
  have e1 := floorDiv_le (r.1 * r.1) fixOne
  have e2 := le_ceilDiv (r.2 * r.2) fixOne hFN
  have e3 := le_floorDiv (r.1 * r.1) fixOne hFN
  have e4 := ceilDiv_le (r.2 * r.2) fixOne hFN
  push_cast at e1 e2 e3 e4
  have hr0 : (0 : ℝ) ≤ r.1 := by positivity
  have hxF : 0 ≤ x * fixOne := by positivity
  have hxF1 : x * fixOne ≤ 4 / 5 * fixOne := mul_le_mul_of_nonneg_right h1 hF.le
  have hxx : x ^ 2 * fixOne = (x * fixOne) * (x * fixOne) / fixOne := by field_simp
  have g1 : (r.1 : ℝ) * r.1 / fixOne ≤ x ^ 2 * fixOne := by
    rw [hxx]; exact div_le_div_of_nonneg_right (mul_le_mul a1 a1 hr0 hxF) hF.le
  have g2 : x ^ 2 * fixOne ≤ (r.2 : ℝ) * r.2 / fixOne := by
    rw [hxx]; exact div_le_div_of_nonneg_right (mul_le_mul a2 a2 hxF (by positivity)) hF.le
  have hr2 : (r.2 : ℝ) ≤ 81 / 100 * fixOne := by linarith
  have g3 : (r.2 : ℝ) * r.2 / fixOne - (r.1 : ℝ) * r.1 / fixOne ≤ 29 := by
    rw [← sub_div, div_le_iff₀ hF]
    have : (r.2 : ℝ) * r.2 - r.1 * r.1 = (r.2 - r.1) * (r.2 + r.1) := by ring
    rw [this]
    calc ((r.2 : ℝ) - r.1) * (r.2 + r.1) ≤ 17 * (r.2 + r.1) := mul_le_mul_of_nonneg_right a3 (by positivity)
      _ ≤ 29 * fixOne := by linarith
  have g4 : (r.2 : ℝ) * r.2 / fixOne ≤ 9 / 10 * fixOne := by
    rw [div_le_iff₀ hF]
    nlinarith
  refine ⟨⟨e1.trans g1, g2.trans e2, by simp only [squareBounds]; linarith⟩, ?_⟩
  have : ((squareBounds r).2 : ℝ) ≤ fixOne := by simp only [squareBounds]; linarith
  exact_mod_cast this

theorem angle_le (n d : Nat) (hd : 0 < d) (hn : 8 * n ≤ d) :
    0 ≤ 2 * Real.pi * n / d ∧ 2 * Real.pi * n / d ≤ 4 / 5 := by
  have hdR : (0 : ℝ) < d := by exact_mod_cast hd
  have hnR : (8 * n : ℝ) ≤ d := by exact_mod_cast hn
  have hn0 : (0 : ℝ) ≤ n := by positivity
  refine ⟨by positivity, ?_⟩
  rw [div_le_iff₀ hdR]
  nlinarith [Real.pi_lt_d2, Real.pi_pos]

/-- `cosOctant` brackets the cosine. -/
theorem cosOctant_brackets (n d : Nat) (hd : 0 < d) (hn : 8 * n ≤ d) :
    Brackets (cosOctant n d) (Real.cos (2 * Real.pi * n / d)) 36 := by
  obtain ⟨h0, h1⟩ := angle_le n d hd hn
  obtain ⟨hs, hs1⟩ := squareBounds_brackets _ _ (angleBounds_brackets n d hd hn) h0 h1
  have hx : (2 * Real.pi * n / d) ^ 2 ≤ 1 := by nlinarith
  have h := taylorSum_brackets_tail 0 (by norm_num) _ _ hs (sq_nonneg _) hx hs1
  rw [taylorTail_cos hx] at h
  unfold cosOctant
  norm_num at h ⊢
  exact h

/-- `sinOctant` brackets the sine. -/
theorem sinOctant_brackets (n d : Nat) (hd : 0 < d) (hn : 8 * n ≤ d) :
    Brackets (sinOctant n d) (Real.sin (2 * Real.pi * n / d)) 60 := by
  obtain ⟨h0, h1⟩ := angle_le n d hd hn
  obtain ⟨a1, a2, a3⟩ := angleBounds_brackets n d hd hn
  obtain ⟨hs, hs1⟩ := squareBounds_brackets _ _ ⟨a1, a2, a3⟩ h0 h1
  have hx : (2 * Real.pi * n / d) ^ 2 ≤ 1 := by nlinarith
  obtain ⟨t1, t2, t3⟩ := taylorSum_brackets_tail 1 (by norm_num) _ _ hs (sq_nonneg _) hx hs1
  have hT0 := taylorTail_nonneg (c := 1) (sq_nonneg (2 * Real.pi * n / d)) hx 0
  have hT1 := taylorTail_le_one (c := 1) (sq_nonneg (2 * Real.pi * n / d)) hx 0
  have hF := fixOne_pos
  have hFN : 0 < fixOne := by exact_mod_cast hF
  have hbig : (10000 : ℝ) ≤ fixOne := by
    have : 10000 ≤ fixOne := by decide +kernel
    exact_mod_cast this
  rw [← taylorTail_sin hx]
  unfold sinOctant Brackets
  simp only
  generalize taylorSum 1 (squareBounds (angleBounds n d)) 40 0 = t at *
  generalize angleBounds n d = r at *
  generalize taylorTail 1 ((2 * Real.pi * n / d) ^ 2) 0 = T at *
  generalize 2 * Real.pi * n / d = x at *
  have e1 := floorDiv_le (r.1 * t.1) fixOne
  have e2 := le_ceilDiv (r.2 * t.2) fixOne hFN
  have e3 := le_floorDiv (r.1 * t.1) fixOne hFN
  have e4 := ceilDiv_le (r.2 * t.2) fixOne hFN
  push_cast at e1 e2 e3 e4
  have hxF : 0 ≤ x * fixOne := by positivity
  have hTF : 0 ≤ T * fixOne := by positivity
  have hTF1 : T * fixOne ≤ fixOne := by nlinarith
  have hxF1 : x * fixOne ≤ 4 / 5 * fixOne := mul_le_mul_of_nonneg_right h1 hF.le
  have hxx : x * T * fixOne = (x * fixOne) * (T * fixOne) / fixOne := by field_simp
  have g1 : (r.1 : ℝ) * t.1 / fixOne ≤ x * T * fixOne := by
    rw [hxx]; exact div_le_div_of_nonneg_right (mul_le_mul a1 t1 (by positivity) hxF) hF.le
  have g2 : x * T * fixOne ≤ (r.2 : ℝ) * t.2 / fixOne := by
    rw [hxx]; exact div_le_div_of_nonneg_right (mul_le_mul a2 t2 hTF (by positivity)) hF.le
  have g3 : (r.2 : ℝ) * t.2 / fixOne - (r.1 : ℝ) * t.1 / fixOne ≤ 58 := by
    rw [← sub_div, div_le_iff₀ hF]
    have k : (r.2 : ℝ) * t.2 - r.1 * t.1 = r.2 * (t.2 - t.1) + t.1 * (r.2 - r.1) := by ring
    rw [k]
    have k1 : (r.2 : ℝ) * (t.2 - t.1) ≤ (9 / 10 * fixOne) * (5 + 31) :=
      mul_le_mul (by linarith) t3 (by linarith) (by positivity)
    have k2 : (t.1 : ℝ) * (r.2 - r.1) ≤ fixOne * 17 := mul_le_mul (by linarith) a3 (by linarith) hF.le
    linarith
  exact ⟨by linarith, by linarith, by linarith⟩

/-- `cosQuadrant` brackets the cosine. -/
theorem cosQuadrant_brackets (n d : Nat) (hd : 0 < d) (hn : 4 * n ≤ d) :
    Brackets (cosQuadrant n d) (Real.cos (2 * Real.pi * n / d)) 60 := by
  unfold cosQuadrant
  split
  · obtain ⟨h1, h2, h3⟩ := cosOctant_brackets n d hd ‹_›
    exact ⟨h1, h2, h3.trans (by norm_num)⟩
  · have h := sinOctant_brackets (d - 4 * n) (4 * d) (by omega) (by omega)
    have hdR : (0 : ℝ) < d := by exact_mod_cast hd
    have : 2 * Real.pi * ((d - 4 * n : Nat) : ℝ) / ((4 * d : Nat) : ℝ) = Real.pi / 2 - 2 * Real.pi * n / d := by
      rw [Nat.cast_sub hn]; push_cast; field_simp; ring
    rwa [this, Real.sin_pi_div_two_sub] at h

/-! ### Cosine and sine of a part of a turn -/

/-- The two ends lie about `x`, and no further apart than `60 / 2^320`. -/
def Encloses (e : Enclosure) (x : ℝ) : Prop :=
  (e.lo : ℝ) ≤ x ∧ x ≤ (e.hi : ℝ) ∧ (e.hi : ℝ) - e.lo ≤ 60 / fixOne

theorem cast_mkRat_fixOne (k : Nat) : ((mkRat k fixOne : Rat) : ℝ) = (k : ℝ) / fixOne := by
  rw [Rat.mkRat_eq_div]
  push_cast
  rfl

theorem enclosureOf_encloses {r : Nat × Nat} {x : ℝ} (h : Brackets r x 60) : Encloses (enclosureOf r) x := by
  obtain ⟨h1, h2, h3⟩ := h
  have hF := fixOne_pos
  unfold Encloses enclosureOf
  simp only [cast_mkRat_fixOne]
  refine ⟨(div_le_iff₀ hF).2 h1, (le_div_iff₀ hF).2 h2, ?_⟩
  rw [← sub_div]
  exact div_le_div_of_nonneg_right h3 hF.le

theorem negEnclosure_encloses {e : Enclosure} {x : ℝ} (h : Encloses e x) : Encloses (negEnclosure e) (-x) := by
  obtain ⟨h1, h2, h3⟩ := h
  unfold Encloses negEnclosure
  push_cast
  exact ⟨by linarith, by linarith, by linarith⟩

/-- `cosTurn` encloses the cosine. -/
theorem cosTurn_encloses (n d : Nat) (hd : 0 < d) (hn : n ≤ d) :
    Encloses (cosTurn n d) (Real.cos (2 * Real.pi * n / d)) := by
  have hdR : (0 : ℝ) < d := by exact_mod_cast hd
  have key (m : Nat) (hm : 2 * m ≤ d) :
      Encloses (if 4 * m ≤ d then enclosureOf (cosQuadrant m d)
        else negEnclosure (enclosureOf (cosQuadrant (d - 2 * m) (2 * d)))) (Real.cos (2 * Real.pi * m / d)) := by
    split
    · exact enclosureOf_encloses (cosQuadrant_brackets m d hd ‹_›)
    · have h := negEnclosure_encloses
        (enclosureOf_encloses (cosQuadrant_brackets (d - 2 * m) (2 * d) (by omega) (by omega)))
      have : 2 * Real.pi * ((d - 2 * m : Nat) : ℝ) / ((2 * d : Nat) : ℝ) = Real.pi - 2 * Real.pi * m / d := by
        rw [Nat.cast_sub hm]; push_cast; field_simp
      rwa [this, Real.cos_pi_sub, neg_neg] at h
  unfold cosTurn
  simp only
  split
  · exact key n ‹_›
  · have h := key (d - n) (by omega)
    have : 2 * Real.pi * ((d - n : Nat) : ℝ) / d = 2 * Real.pi - 2 * Real.pi * n / d := by
      rw [Nat.cast_sub hn]; field_simp
    rwa [this, Real.cos_two_pi_sub] at h

/-- `sinTurn` encloses the sine, up to half a turn. -/
theorem sinTurn_encloses (n d : Nat) (hd : 0 < d) (hn : 2 * n ≤ d) :
    Encloses (sinTurn n d) (Real.sin (2 * Real.pi * n / d)) := by
  have hdR : (0 : ℝ) < d := by exact_mod_cast hd
  unfold sinTurn
  split
  · rename_i h4
    have h := cosTurn_encloses (d - 4 * n) (4 * d) (by omega) (by omega)
    have : 2 * Real.pi * ((d - 4 * n : Nat) : ℝ) / ((4 * d : Nat) : ℝ) = Real.pi / 2 - 2 * Real.pi * n / d := by
      rw [Nat.cast_sub h4]; push_cast; field_simp; ring
    rwa [this, Real.cos_pi_div_two_sub] at h
  · have h := cosTurn_encloses (4 * n - d) (4 * d) (by omega) (by omega)
    have : 2 * Real.pi * ((4 * n - d : Nat) : ℝ) / ((4 * d : Nat) : ℝ) = 2 * Real.pi * n / d - Real.pi / 2 := by
      rw [Nat.cast_sub (by omega)]; push_cast; field_simp; ring
    rwa [this, Real.cos_sub_pi_div_two] at h

end Sys2Proof.Machine
end

