-- ==== Sys2Proof/Laws/Exact.lean ====
section
/-!
SUPPORT. The exact comparisons behind correct rounding compare the real numbers they stand for.
-/
namespace Sys2Proof.Machine

/-- `o` says how the real `x` compares with the rational `m`. -/
def Compares (o : Ordering) (x : ℝ) (m : Rat) : Prop :=
  (o = .lt ↔ x < m) ∧ (o = .eq ↔ x = m) ∧ (o = .gt ↔ (m : ℝ) < x)

theorem Compares.lt {x : ℝ} {m : Rat} (h : x < m) : Compares .lt x m :=
  ⟨by simp [h], by simp [h.ne], by simp [h.le]⟩

theorem Compares.eq {x : ℝ} {m : Rat} (h : x = m) : Compares .eq x m := ⟨by simp [h], by simp [h], by simp [h]⟩

theorem Compares.gt {x : ℝ} {m : Rat} (h : (m : ℝ) < x) : Compares .gt x m :=
  ⟨by simp [h.le], by simp [h.ne'], by simp [h]⟩

theorem Compares.swap {o : Ordering} {x y : ℝ} {m n : Rat} (h : Compares o x m) (hlt : x < m ↔ (n : ℝ) < y)
    (heq : x = m ↔ y = n) (hgt : (m : ℝ) < x ↔ y < n) : Compares o.swap y n := by
  obtain ⟨h1, h2, h3⟩ := h
  cases o <;> simp_all [Compares, Ordering.swap]

/-! ### Logarithms -/

/-- Comparing integer powers compares the logarithm (R13). -/
theorem log10Versus_compares (u : Nat) (hu : 0 < u) (m : Rat) :
    Compares (log10Versus u m) (Real.logb 10 ((u : ℝ) / 2 ^ 1074)) m := by
  have h10 : 0 < Real.log 10 := Real.log_pos (by norm_num)
  have hu' : (0 : ℝ) < u := by exact_mod_cast hu
  have hq : (0 : ℝ) < m.den := by exact_mod_cast m.den_pos
  have hm : (m : ℝ) * m.den = (m.num.toNat : ℝ) - ((-m.num).toNat : ℝ) := by
    have h1 : ((m * m.den : Rat) : ℝ) = ((m.num : Rat) : ℝ) := by rw [Rat.mul_den_eq_num]
    have h2 : (m.num : ℝ) = (((m.num.toNat : Int) - ((-m.num).toNat : Int) : Int) : ℝ) := by congr 1; omega
    push_cast at h1 h2
    rw [h1, h2]
  generalize hA : u ^ m.den * 10 ^ (-m.num).toNat = A
  generalize hB : 10 ^ m.num.toNat * unitsPerOne ^ m.den = B
  have hD : ((unitsPerOne : Nat) : ℝ) = 2 ^ 1074 := by unfold unitsPerOne; push_cast; rfl
  have hD0 : (0 : ℝ) < 2 ^ 1074 := by positivity
  have hA' : (A : ℝ) = (u : ℝ) ^ m.den * 10 ^ (-m.num).toNat := by rw [← hA]; push_cast; rfl
  have hB' : (B : ℝ) = 10 ^ m.num.toNat * (2 ^ 1074) ^ m.den := by rw [← hB]; push_cast; rw [hD]
  have hA0 : (0 : ℝ) < A := by rw [hA']; positivity
  have hB0 : (0 : ℝ) < B := by rw [hB']; generalize (2 : ℝ) ^ 1074 = D at *; positivity
  have hlog : Real.log A - Real.log B =
      (Real.logb 10 ((u : ℝ) / 2 ^ 1074) - m) * (m.den * Real.log 10) := by
    rw [hA', hB']
    generalize (2 : ℝ) ^ 1074 = D at *
    rw [Real.log_mul (by positivity) (by positivity), Real.log_mul (by positivity) (by positivity),
      Real.log_pow, Real.log_pow, Real.log_pow, Real.log_pow, Real.logb, Real.log_div (by positivity) (by positivity)]
    field_simp
    linear_combination (Real.log 10) * hm
  have hpos : 0 < m.den * Real.log 10 := mul_pos hq h10
  have hlt : A < B ↔ Real.logb 10 ((u : ℝ) / 2 ^ 1074) < m := by
    rw [← Nat.cast_lt (α := ℝ), ← Real.log_lt_log_iff hA0 hB0, ← sub_neg, hlog,
      ← sub_neg (a := Real.logb 10 ((u : ℝ) / 2 ^ 1074))]
    exact ⟨fun h => by by_contra hc; exact absurd (mul_nonneg (not_lt.mp hc) hpos.le) (not_le.mpr h),
      fun h => mul_neg_of_neg_of_pos h hpos⟩
  have hgt : B < A ↔ (m : ℝ) < Real.logb 10 ((u : ℝ) / 2 ^ 1074) := by
    rw [← Nat.cast_lt (α := ℝ), ← Real.log_lt_log_iff hB0 hA0, ← sub_pos, hlog, ← sub_pos (b := (m : ℝ))]
    exact mul_pos_iff_of_pos_right hpos
  unfold log10Versus
  rw [hA, hB]
  refine ⟨by rw [Nat.compare_eq_lt, hlt], ?_, by rw [Nat.compare_eq_gt, hgt]⟩
  rw [Nat.compare_eq_eq]
  constructor
  · intro h
    exact le_antisymm (not_lt.mp fun hc => by have := hgt.2 hc; omega) (not_lt.mp fun hc => by have := hlt.2 hc; omega)
  · intro h
    have h1 : ¬ A < B := fun hc => by have := hlt.1 hc; linarith
    have h2 : ¬ B < A := fun hc => by have := hgt.1 hc; linarith
    omega

/-! ### Cosines -/

/-- The half of a full turn an angle lies in, from its cosine and a nonnegative multiple of its sine. -/
theorem pastHalfTurn_iff (c v : Rat) (h : Nat) (a s : ℝ) (hc : (c : ℝ) = Real.cos a)
    (hv : (v : ℝ) = Real.sin a * s) (hs : 0 ≤ s) (hs0 : s = 0 → Real.sin a = 0)
    (h1 : h * Real.pi ≤ a) (h2 : a < (h + 1) * Real.pi) : pastHalfTurn c v = true ↔ h % 2 = 1 := by
  obtain ⟨b, rfl⟩ : ∃ b, a = b + h * Real.pi := ⟨a - h * Real.pi, by ring⟩
  rw [Real.cos_add_nat_mul_pi] at hc
  rw [Real.sin_add_nat_mul_pi] at hv hs0
  have hb0 : 0 ≤ b := by linarith
  have hb1 : b < Real.pi := by linarith
  have hsin : 0 ≤ Real.sin b := Real.sin_nonneg_of_nonneg_of_le_pi hb0 hb1.le
  have hcos : Real.sin b = 0 → Real.cos b = 1 := fun h0 => by
    rcases hb0.eq_or_lt with h' | h'
    · rw [← h', Real.cos_zero]
    · exact absurd h0 (Real.sin_pos_of_pos_of_lt_pi h' hb1).ne'
  have hzero : Real.sin b * s = 0 → Real.sin b = 0 := fun h0 => by
    rcases mul_eq_zero.1 h0 with h' | h'
    · exact h'
    · have := hs0 h'
      rcases mul_eq_zero.1 this with h'' | h''
      · exact absurd h'' (by positivity)
      · exact h''
  have hp : pastHalfTurn c v = true ↔ (v : ℝ) < 0 ∨ ((v : ℝ) = 0 ∧ (c : ℝ) < 0) := by
    unfold pastHalfTurn
    rw [Bool.or_eq_true, Bool.and_eq_true, decide_eq_true_eq, decide_eq_true_eq, decide_eq_true_eq]
    norm_cast
  rw [hp, hc, hv]
  have hn : 0 ≤ Real.sin b * s := mul_nonneg hsin hs
  rcases Nat.mod_two_eq_zero_or_one h with hpar | hpar
  · have he : ((-1 : ℝ)) ^ h = 1 := (Nat.even_iff.2 hpar).neg_one_pow
    rw [he, one_mul, one_mul]
    constructor
    · rintro (h' | ⟨h', h''⟩)
      · linarith
      · rw [hcos (hzero h')] at h''; linarith
    · omega
  · have he : ((-1 : ℝ)) ^ h = -1 := (Nat.odd_iff.2 hpar).neg_one_pow
    rw [he]
    refine ⟨fun _ => hpar, fun _ => ?_⟩
    rcases hn.eq_or_lt with h' | h'
    · right
      have h0 := hzero h'.symm
      rw [hcos h0, h0]
      constructor <;> norm_num
    · left; linarith

/-- `j` turns by the angle of `m` (`|m| ≤ 1`) add up to `j` times that angle. -/
theorem rotate_spec (m : Rat) (h1 : -1 ≤ m) (h2 : m ≤ 1) (j : Nat) :
    ((rotate m j).cosine : ℝ) = Real.cos (j * Real.arccos m) ∧
    ((rotate m j).sine : ℝ) = Real.sin (j * Real.arccos m) * Real.sin (Real.arccos m) ∧
    ((rotate m j).halfTurns : ℝ) * Real.pi ≤ j * Real.arccos m ∧
    j * Real.arccos m < ((rotate m j).halfTurns + 1 : ℝ) * Real.pi ∧
    (pastHalfTurn (rotate m j).cosine (rotate m j).sine = true ↔ (rotate m j).halfTurns % 2 = 1) := by
  have hm1 : (-1 : ℝ) ≤ m := by exact_mod_cast h1
  have hm2 : (m : ℝ) ≤ 1 := by exact_mod_cast h2
  have hcos : Real.cos (Real.arccos m) = m := Real.cos_arccos hm1 hm2
  have hsq : Real.sin (Real.arccos m) * Real.sin (Real.arccos m) = 1 - m * m := by
    have := Real.sin_sq_add_cos_sq (Real.arccos m)
    rw [hcos] at this
    linarith
  have hphi0 := Real.arccos_nonneg (m : ℝ)
  have hphi1 := Real.arccos_le_pi (m : ℝ)
  have hs : 0 ≤ Real.sin (Real.arccos m) := Real.sin_nonneg_of_nonneg_of_le_pi hphi0 hphi1
  have hs0 (k : Nat) (h : Real.sin (Real.arccos m) = 0) : Real.sin (k * Real.arccos m) = 0 := by
    induction k with
    | zero => simp
    | succ k ih => push_cast; rw [add_mul, one_mul, Real.sin_add, ih, h]; ring
  generalize Real.arccos (m : ℝ) = φ at *
  induction j with
  | zero =>
    refine ⟨by simp [rotate], by simp [rotate], by simp [rotate], by simp [rotate, Real.pi_pos], ?_⟩
    simp [rotate, pastHalfTurn, show ¬ (1 : Rat) < 0 by norm_num]
  | succ j ih =>
    obtain ⟨ih1, ih2, ih3, ih4, ih5⟩ := ih
    have hc : ((rotate m (j + 1)).cosine : ℝ) = Real.cos ((j + 1 : Nat) * φ) := by
      push_cast
      rw [add_mul, one_mul, Real.cos_add, hcos, rotate]
      push_cast
      rw [ih1, ih2]; ring
    have hv : ((rotate m (j + 1)).sine : ℝ) = Real.sin ((j + 1 : Nat) * φ) * Real.sin φ := by
      push_cast
      rw [add_mul, one_mul, Real.sin_add, hcos, rotate]
      push_cast
      rw [ih1, ih2, ← hsq]; ring
    have hturn : (rotate m (j + 1)).halfTurns =
        if pastHalfTurn (rotate m (j + 1)).cosine (rotate m (j + 1)).sine =
          pastHalfTurn (rotate m j).cosine (rotate m j).sine then (rotate m j).halfTurns
        else (rotate m j).halfTurns + 1 := rfl
    have hangle : ((j + 1 : Nat) : ℝ) * φ = j * φ + φ := by push_cast; ring
    generalize (rotate m (j + 1)).cosine = c at *
    generalize (rotate m (j + 1)).sine = v at *
    generalize (rotate m j).halfTurns = h at *
    generalize pastHalfTurn (rotate m j).cosine (rotate m j).sine = p at *
    have key (H : Nat) (hH : H = h ∨ H = h + 1) (b1 : H * Real.pi ≤ (j + 1 : Nat) * φ)
        (b2 : (j + 1 : Nat) * φ < (H + 1) * Real.pi) : (rotate m (j + 1)).halfTurns = H ∧
          (pastHalfTurn c v = true ↔ H % 2 = 1) := by
      have hp := pastHalfTurn_iff c v H _ _ hc hv hs (hs0 _) b1 b2
      refine ⟨?_, hp⟩
      rw [hturn]
      generalize pastHalfTurn c v = p' at *
      by_cases he : p' = p
      · rw [if_pos he]
        subst he
        have : h % 2 = 1 ↔ H % 2 = 1 := ih5.symm.trans hp
        omega
      · rw [if_neg he]
        have : h % 2 = 1 ↔ ¬ H % 2 = 1 := by
          rw [← ih5, ← hp]
          cases p <;> cases p' <;> simp_all
        omega
    have hH : ∃ H : Nat, (H = h ∨ H = h + 1) ∧ H * Real.pi ≤ (j + 1 : Nat) * φ ∧
        (j + 1 : Nat) * φ < (H + 1) * Real.pi := by
      by_cases hlt : ((j + 1 : Nat) : ℝ) * φ < (h + 1) * Real.pi
      · exact ⟨h, .inl rfl, by rw [hangle]; linarith, hlt⟩
      · refine ⟨h + 1, .inr rfl, by push_cast at hlt ⊢; linarith, ?_⟩
        rw [hangle]; push_cast; linarith
    obtain ⟨H, hHh, b1, b2⟩ := hH
    obtain ⟨e1, e2⟩ := key H hHh b1 b2
    rw [e1]
    exact ⟨hc, hv, b1, b2, e2⟩

/-- Counting half turns compares the cosine, in the first half turn. -/
theorem cosHalfVersus_compares (n d : Nat) (hd : 0 < d) (hn : 2 * n ≤ d) (m : Rat) :
    Compares (cosHalfVersus n d m) (Real.cos (2 * Real.pi * n / d)) m := by
  have hd' : (0 : ℝ) < d := by exact_mod_cast hd
  have hn' : (2 * n : ℝ) ≤ d := by exact_mod_cast hn
  have hpi := Real.pi_pos
  unfold cosHalfVersus
  split
  · rename_i h
    have hm : (1 : ℝ) < m := by exact_mod_cast h
    have := Real.cos_le_one (2 * Real.pi * n / d)
    exact .lt (by linarith)
  · split
    · rename_i h
      have hm : (m : ℝ) < -1 := by exact_mod_cast h
      have := Real.neg_one_le_cos (2 * Real.pi * n / d)
      exact .gt (by linarith)
    · rename_i h2 h1
      rw [not_lt] at h1 h2
      obtain ⟨hc, hv, b1, b2, -⟩ := rotate_spec m h1 h2 d
      have hm1 : (-1 : ℝ) ≤ m := by exact_mod_cast h1
      have hm2 : (m : ℝ) ≤ 1 := by exact_mod_cast h2
      have hcos : Real.cos (Real.arccos m) = m := Real.cos_arccos hm1 hm2
      have hphi0 := Real.arccos_nonneg (m : ℝ)
      have hphi1 := Real.arccos_le_pi (m : ℝ)
      have ht0 : 0 ≤ 2 * Real.pi * n / d := by positivity
      have ht1 : 2 * Real.pi * n / d ≤ Real.pi := by
        rw [div_le_iff₀ hd']; nlinarith
      have hlt : Real.cos (2 * Real.pi * n / d) < m ↔ d * Real.arccos m < 2 * n * Real.pi := by
        rw [show 2 * n * Real.pi = d * (2 * Real.pi * n / d) by field_simp, mul_lt_mul_iff_right₀ hd']
        conv_lhs => rw [← hcos]
        exact Real.strictAntiOn_cos.lt_iff_gt ⟨ht0, ht1⟩ ⟨hphi0, hphi1⟩
      have hgt : (m : ℝ) < Real.cos (2 * Real.pi * n / d) ↔ 2 * n * Real.pi < d * Real.arccos m := by
        rw [show 2 * n * Real.pi = d * (2 * Real.pi * n / d) by field_simp, mul_lt_mul_iff_right₀ hd']
        conv_lhs => rw [← hcos]
        exact Real.strictAntiOn_cos.lt_iff_gt ⟨hphi0, hphi1⟩ ⟨ht0, ht1⟩
      have hsin : ((rotate m d).sine : ℝ) = 0 ↔ d * Real.arccos m = (rotate m d).halfTurns * Real.pi := by
        rw [hv]
        constructor
        · intro h0
          have hs : Real.sin (d * Real.arccos m) = 0 := by
            rcases mul_eq_zero.1 h0 with h' | h'
            · exact h'
            · obtain ⟨k, hk⟩ := Real.sin_eq_zero_iff.1 h'
              rw [← hk, ← mul_assoc]
              exact_mod_cast Real.sin_int_mul_pi (d * k)
          obtain ⟨k, hk⟩ := Real.sin_eq_zero_iff.1 hs
          rw [← hk] at b1 b2 ⊢
          have c1 := le_of_mul_le_mul_right b1 hpi
          have c2 := lt_of_mul_lt_mul_right b2 hpi.le
          have : k = (rotate m d).halfTurns := by
            have e1 : ((rotate m d).halfTurns : Int) ≤ k := by exact_mod_cast c1
            have e2 : k < (rotate m d).halfTurns + 1 := by exact_mod_cast c2
            omega
          rw [this]; push_cast; ring
        · intro h0
          rw [h0, Real.sin_nat_mul_pi, zero_mul]
      simp only
      generalize Real.cos (2 * Real.pi * n / d) = x at *
      generalize (d : ℝ) * Real.arccos m = a at *
      generalize (rotate m d).halfTurns = h at *
      have hv0 : (rotate m d).sine = 0 ↔ a = h * Real.pi := by rw [← hsin]; norm_cast
      split
      · rename_i h3
        have : ((h + 1 : Nat) : ℝ) ≤ (2 * n : Nat) := by exact_mod_cast h3
        push_cast at this
        exact .lt (hlt.2 (by nlinarith))
      · split
        · rename_i h3 h4
          have h5 : a = 2 * n * Real.pi := by rw [hv0.1 h4.2, h4.1]; push_cast; ring
          exact .eq (le_antisymm (not_lt.1 fun hc => by have := hgt.1 hc; linarith)
            (not_lt.1 fun hc => by have := hlt.1 hc; linarith))
        · rename_i h3 h4
          refine .gt (hgt.2 ?_)
          rw [hv0] at h4
          by_cases h5 : h = 2 * n
          · have h6 : a ≠ h * Real.pi := fun hc => h4 ⟨h5, hc⟩
            have h7 := lt_of_le_of_ne b1 (Ne.symm h6)
            rw [h5] at h7
            push_cast at h7
            exact h7
          · have : ((2 * n + 1 : Nat) : ℝ) ≤ h := by exact_mod_cast (by omega : 2 * n + 1 ≤ h)
            push_cast at this
            nlinarith

/-- The comparison with a cosine, in the whole turn (R150, R155). -/
theorem cosVersus_compares (n d : Nat) (hd : 0 < d) (hn : n ≤ d) (m : Rat) :
    Compares (cosVersus n d m) (Real.cos (2 * Real.pi * n / d)) m := by
  have hd' : (d : ℝ) ≠ 0 := by exact_mod_cast hd.ne'
  unfold cosVersus
  split
  · exact cosHalfVersus_compares n d hd ‹_› m
  · have h := cosHalfVersus_compares (d - n) d hd (by omega) m
    rw [Nat.cast_sub hn, show 2 * Real.pi * ((d : ℝ) - n) / d = 2 * Real.pi - 2 * Real.pi * n / d by
      field_simp, Real.cos_two_pi_sub] at h
    exact h

/-- The comparison with minus a sine, in the first half turn (R155). -/
theorem negSinVersus_compares (n d : Nat) (hd : 0 < d) (hn : 2 * n ≤ d) (m : Rat) :
    Compares (negSinVersus n d m) (-Real.sin (2 * Real.pi * n / d)) m := by
  have hd' : (d : ℝ) ≠ 0 := by exact_mod_cast hd.ne'
  have hcos : Real.cos (2 * Real.pi * ((if 4 * n ≤ d then d - 4 * n else 4 * n - d : Nat) : ℝ) / (4 * d : Nat)) =
      Real.sin (2 * Real.pi * n / d) := by
    rw [← Real.cos_pi_div_two_sub]
    split
    · rename_i h
      rw [Nat.cast_sub h]
      congr 1
      push_cast
      field_simp
      ring
    · rename_i h
      rw [Nat.cast_sub (by omega), ← Real.cos_neg]
      congr 1
      push_cast
      field_simp
      ring
  have h := cosVersus_compares (if 4 * n ≤ d then d - 4 * n else 4 * n - d) (4 * d) (by omega)
    (by split <;> omega) (-m)
  rw [hcos] at h
  unfold negSinVersus
  refine h.swap ?_ ?_ ?_ <;> push_cast <;> constructor <;> intro h' <;> linarith

end Sys2Proof.Machine
end

