-- ==== Sys2Proof/Laws/Float.lean ====
section
/-!
SUPPORT. What the shared operations on binary64 patterns can do, said once.
-/
namespace Sys2Proof.Machine

theorem isNaN_iff (x : F64) : isNaN x = true ↔ classify x = .nan := by
  unfold isNaN
  cases classify x <;> simp

/-- `nearestEven n d` is within half of `n / d`, and even on a tie. -/
theorem nearestEven_spec (n d : Nat) (hd : 0 < d) :
    2 * (nearestEven n d * d) ≤ 2 * n + d ∧ 2 * n ≤ 2 * (nearestEven n d * d) + d ∧
    (2 * (nearestEven n d * d) = 2 * n + d ∨ 2 * n = 2 * (nearestEven n d * d) + d →
      nearestEven n d % 2 = 0) := by
  have hn : n / d * d + n % d = n := by rw [Nat.mul_comm]; exact Nat.div_add_mod n d
  have hr : n % d < d := Nat.mod_lt n hd
  unfold nearestEven
  generalize n / d = q at *
  generalize n % d = r at *
  have h1 : (q + 1) * d = q * d + d := by rw [Nat.add_mul, Nat.one_mul]
  simp only
  split
  · generalize q * d = x at *
    omega
  · split
    · rw [h1]
      generalize q * d = x at *
      omega
    · rcases Nat.mod_two_eq_zero_or_one q with h2 | h2
      · rw [h2, Nat.add_zero]
        generalize q * d = x at *
        omega
      · rw [h2, h1]
        generalize q * d = x at *
        omega

theorem toNat_packSign (neg : Bool) (p : Nat) (hp : p < 2 ^ 63) :
    (packSign neg p).toNat = (if neg then 2 ^ 63 else 0) + p := by
  unfold packSign
  rw [BitVec.toNat_ofNat, Nat.mod_eq_of_lt]
  split <;> omega

/-- Reading back a packed pattern, in terms of its exponent and fraction fields. -/
theorem classify_packSign (neg : Bool) (p : Nat) (hp : p < 2 ^ 63) :
    classify (packSign neg p) =
      if p / 2 ^ 52 = 2047 then (if p % 2 ^ 52 = 0 then .inf neg else .nan)
      else if p / 2 ^ 52 = 0 then .fin neg (p % 2 ^ 52)
      else .fin neg ((2 ^ 52 + p % 2 ^ 52) * 2 ^ (p / 2 ^ 52 - 1)) := by
  have h := toNat_packSign neg p hp
  have h1 : (packSign neg p).toNat / 2 ^ 52 % 2048 = p / 2 ^ 52 := by rw [h]; split <;> omega
  have h2 : (packSign neg p).toNat % 2 ^ 52 = p % 2 ^ 52 := by rw [h]; split <;> omega
  have h3 : decide (2 ^ 63 ≤ (packSign neg p).toNat) = neg := by
    rw [h]; cases neg <;> simp; omega
  simp only [classify, h1, h2, h3]

theorem isNaN_nanOfDraw (d : F64) : isNaN (nanOfDraw d) = true := by
  rw [isNaN_iff, nanOfDraw, classify_packSign]
  · have h : (infPattern + if d.toNat % 2 ^ 52 = 0 then 1 else d.toNat % 2 ^ 52) / 2 ^ 52 = 2047 := by
      unfold infPattern; split <;> omega
    have h' : ¬ (infPattern + if d.toNat % 2 ^ 52 = 0 then 1 else d.toNat % 2 ^ 52) % 2 ^ 52 = 0 := by
      unfold infPattern; split <;> omega
    rw [if_pos h, if_neg h']
  · unfold infPattern; split <;> omega

/-- Every free NaN pattern is a NaN (R169). -/
theorem isNaN_freshNaN (draws site : Nat) : isNaN (freshNaN draws site) = true := isNaN_nanOfDraw _

/-- The sum of finite values is the exact sum of their units, rounded once (R13). -/
theorem add64_finite {nan a b : F64} {na nb : Bool} {ua ub : Nat} (ha : classify a = .fin na ua)
    (hb : classify b = .fin nb ub) :
    add64 nan a b = roundUnits (sumSign na nb (signedUnits na ua + signedUnits nb ub))
      (signedUnits na ua + signedUnits nb ub).natAbs 1 := by
  simp only [add64, ha, hb]

/-- The product of finite values is the exact product, rounded once (R13). -/
theorem mul64_finite {nan a b : F64} {na nb : Bool} {ua ub : Nat} (ha : classify a = .fin na ua)
    (hb : classify b = .fin nb ub) : mul64 nan a b = roundUnits (na != nb) (ua * ub) unitsPerOne := by
  simp only [mul64, ha, hb]

/-- A result that is no NaN does not depend on the NaN argument. -/
theorem mul64_finite_congr {nan nan' a b : F64} (ha : IsFinite a) (hb : IsFinite b) :
    mul64 nan a b = mul64 nan' a b := by
  obtain ⟨na, ua, ha⟩ := ha
  obtain ⟨nb, ub, hb⟩ := hb
  rw [mul64_finite ha hb, mul64_finite ha hb]

end Sys2Proof.Machine
end

