-- ==== Sys2Proof/Laws/PerInstr.lean ====
section
/-!
SUPPORT. What is said of each command as syntax, one lemma per constructor: it is well-formed, its word is
its opcode with zeros above, and that word is a valid command which reads back as it.
-/
namespace Sys2Proof.Laws.CommandWord

/-- The word of a command (30_encoding.md R110 to R112). -/
def Statement (i : Instr) : Prop :=
  i.wellFormed = true ∧ (encodeWord i).toNat = i.opcode.toNat ∧ decodeOpcode i.opcode = some i ∧
    decodeWord (encodeWord i) = .ok i ∧ validCommand (encodeWord i) = true

theorem nop : Statement .nop := ⟨rfl, rfl, rfl, rfl, rfl⟩
theorem mag : Statement .mag := ⟨rfl, rfl, rfl, rfl, rfl⟩
theorem win : Statement .win := ⟨rfl, rfl, rfl, rfl, rfl⟩
theorem fft : Statement .fft := ⟨rfl, rfl, rfl, rfl, rfl⟩
theorem logp : Statement .logp := ⟨rfl, rfl, rfl, rfl, rfl⟩
theorem shift : Statement .shift := ⟨rfl, rfl, rfl, rfl, rfl⟩
theorem decim : Statement .decim := ⟨rfl, rfl, rfl, rfl, rfl⟩
theorem magFrame : Statement .magFrame := ⟨rfl, rfl, rfl, rfl, rfl⟩
theorem specFrame : Statement .specFrame := ⟨rfl, rfl, rfl, rfl, rfl⟩

end Sys2Proof.Laws.CommandWord
end

