-- ==== Sys2Proof/Laws/Rounding.lean ====
section
/-!
SUPPORT. Rounding to nearest even: it depends on the quotient only, what a rounded quotient reads as,
and that it is monotone.
-/
namespace Sys2Proof.Machine

theorem nearestEven_scale (n d c : Nat) (hc : 0 < c) : nearestEven (c * n) (c * d) = nearestEven n d := by
  unfold nearestEven
  rw [Nat.mul_div_mul_left _ _ hc, Nat.mul_mod_mul_left]
  have h (a b : Nat) : c * a < c * b ↔ a < b := Nat.mul_lt_mul_left hc
  simp only [Nat.mul_left_comm 2 c, h]

/-- Rounding depends on the quotient only. -/
theorem roundUnits_scale (neg : Bool) (n d c : Nat) (hc : 0 < c) :
    roundUnits neg (c * n) (c * d) = roundUnits neg n d := by
  unfold roundUnits excessBits
  rw [Nat.mul_div_mul_left _ _ hc]
  simp only [Nat.mul_assoc, nearestEven_scale _ _ _ hc]

theorem roundUnits_congr (neg : Bool) {n d n' d' : Nat} (hd : 0 < d) (hd' : 0 < d') (h : n * d' = n' * d) :
    roundUnits neg n d = roundUnits neg n' d' := by
  rw [← roundUnits_scale neg n d d' hd', ← roundUnits_scale neg n' d' d hd, Nat.mul_comm d' n, h,
    Nat.mul_comm n' d, Nat.mul_comm d' d]

theorem roundUnits_zero (neg : Bool) (d : Nat) : roundUnits neg 0 d = packSign neg 0 := by
  simp [roundUnits, excessBits, nearestEven]

/-- The rounded significand lies between its binade's ends. -/
theorem nearestEven_bounds (n d : Nat) :
    nearestEven n (d * 2 ^ excessBits n d) ≤ 2 ^ 53 ∧
    (0 < excessBits n d → 2 ^ 52 ≤ nearestEven n (d * 2 ^ excessBits n d)) := by
  have hq (k : Nat) : n / k ≤ nearestEven n k ∧ nearestEven n k ≤ n / k + 1 := by
    unfold nearestEven
    simp only
    split
    · omega
    · split
      · omega
      · omega
  have h := hq (d * 2 ^ excessBits n d)
  rw [← Nat.div_div_eq_div_mul] at h
  generalize he : excessBits n d = t at *
  unfold excessBits at he
  generalize nearestEven n (d * 2 ^ t) = m at *
  generalize n / d = q at *
  by_cases ht : t = 0
  · subst ht
    refine ⟨?_, fun h => absurd h (lt_irrefl 0)⟩
    rw [Nat.pow_zero, Nat.div_one] at h
    by_cases hz : q = 0
    · omega
    · have := (Nat.log2_lt hz (k := 53)).1 (by omega)
      omega
  · have hz : q ≠ 0 := by rintro rfl; simp at he; omega
    have h1 := Nat.log2_self_le hz
    have h2 : q < 2 ^ (q.log2 + 1) := Nat.lt_log2_self
    have e1 : q.log2 = 52 + t := by omega
    rw [e1] at h1 h2
    rw [Nat.pow_add] at h1
    rw [show 52 + t + 1 = 53 + t by omega, Nat.pow_add] at h2
    have hp : 0 < 2 ^ t := Nat.two_pow_pos t
    have h3 : q / 2 ^ t < 2 ^ 53 := (Nat.div_lt_iff_lt_mul hp).2 h2
    have h4 : 2 ^ 52 ≤ q / 2 ^ t := (Nat.le_div_iff_mul_le hp).2 h1
    omega

/-- A significand of at most 53 bits, packed into its binade, reads as that significand in the units
of the binade, or as infinity from the first pattern past the finite ones. -/
theorem classify_binade (neg : Bool) (t m : Nat) (hm : m ≤ 2 ^ 53) (hl : 0 < t → 2 ^ 52 ≤ m) :
    classify (packSign neg (min (t * 2 ^ 52 + m) infPattern)) =
      if t * 2 ^ 52 + m < infPattern then .fin neg (m * 2 ^ t) else .inf neg := by
  by_cases hlt : t * 2 ^ 52 + m < infPattern
  · rw [if_pos hlt, Nat.min_eq_left hlt.le]
    unfold infPattern at hlt
    rw [classify_packSign _ _ (by omega), if_neg (by omega)]
    by_cases h1 : t = 0 ∧ m < 2 ^ 52
    · obtain ⟨rfl, h1⟩ := h1
      rw [if_pos (by omega), Nat.zero_mul, Nat.zero_add, Nat.pow_zero, Nat.mul_one, Nat.mod_eq_of_lt h1]
    · have h52 : 2 ^ 52 ≤ m := by
        rcases Nat.eq_zero_or_pos t with h | h
        · simp only [h, true_and, not_lt] at h1; exact h1
        · exact hl h
      rw [if_neg (by omega)]
      by_cases h2 : m = 2 ^ 53
      · have e1 : (t * 2 ^ 52 + m) / 2 ^ 52 = t + 2 := by omega
        have e2 : (t * 2 ^ 52 + m) % 2 ^ 52 = 0 := by omega
        rw [e1, e2, h2, show t + 2 - 1 = t + 1 by omega, Nat.pow_succ]
        congr 1
        omega
      · have e1 : (t * 2 ^ 52 + m) / 2 ^ 52 = t + 1 := by omega
        have e2 : (t * 2 ^ 52 + m) % 2 ^ 52 = m - 2 ^ 52 := by omega
        rw [e1, e2, show t + 1 - 1 = t by omega, show 2 ^ 52 + (m - 2 ^ 52) = m by omega]
  · rw [if_neg hlt, Nat.min_eq_right (by omega), classify_packSign _ _ (by decide)]
    rfl

/-- What a rounded quotient reads as. -/
theorem classify_roundUnits (neg : Bool) (n d : Nat) :
    classify (roundUnits neg n d) =
      if excessBits n d * 2 ^ 52 + nearestEven n (d * 2 ^ excessBits n d) < infPattern then
        .fin neg (nearestEven n (d * 2 ^ excessBits n d) * 2 ^ excessBits n d)
      else .inf neg :=
  classify_binade neg _ _ (nearestEven_bounds n d).1 (nearestEven_bounds n d).2

theorem nearestEven_mono {n n' d : Nat} (hd : 0 < d) (h : n ≤ n') : nearestEven n d ≤ nearestEven n' d := by
  have a := nearestEven_spec n d hd
  have b := nearestEven_spec n' d hd
  by_contra hc
  have h1 : (nearestEven n' d + 1) * d ≤ nearestEven n d * d := Nat.mul_le_mul_right d (by omega)
  rw [Nat.add_mul, Nat.one_mul] at h1
  have h2 : n = n' := by omega
  subst h2
  exact hc le_rfl

/-- Rounding is monotone, on the patterns of nonnegative values. -/
theorem roundUnits_mono {n d n' d' : Nat} (hd : 0 < d) (hd' : 0 < d') (h : n * d' ≤ n' * d) :
    (roundUnits false n d).toNat ≤ (roundUnits false n' d').toNat := by
  rw [← roundUnits_scale false n d d' hd', ← roundUnits_scale false n' d' d hd, Nat.mul_comm d' n,
    Nat.mul_comm d n', Nat.mul_comm d' d]
  have hD : 0 < d * d' := Nat.mul_pos hd hd'
  generalize n * d' = x at *
  generalize n' * d = y at *
  generalize d * d' = D at *
  have hx := nearestEven_bounds x D
  have hy := nearestEven_bounds y D
  have hle : excessBits x D ≤ excessBits y D := by
    unfold excessBits
    have : Nat.log2 (x / D) ≤ Nat.log2 (y / D) := by
      rw [Nat.log2_eq_log_two, Nat.log2_eq_log_two]
      exact Nat.log_mono_right (Nat.div_le_div_right h)
    omega
  unfold roundUnits
  simp only
  rw [toNat_packSign _ _ (by unfold infPattern; omega), toNat_packSign _ _ (by unfold infPattern; omega)]
  simp only [Bool.false_eq_true, if_false, Nat.zero_add]
  refine min_le_min ?_ le_rfl
  rcases Nat.eq_or_lt_of_le hle with he | he
  · rw [he]
    exact Nat.add_le_add_left (nearestEven_mono (by positivity) h) _
  · have := hy.2 (by omega)
    generalize nearestEven y _ = a at *
    generalize nearestEven x _ = b at *
    generalize excessBits y D = c at *
    generalize excessBits x D = d at *
    omega

end Sys2Proof.Machine
end

