-- ==== Sys2Proof/Tests/Slice0.lean ====
section
/-!
SUPPORT. The model's own tests. Expected values are the spec's: 95_test_vectors.md and the tables and
examples of the rules named in each comment. The theorems `witness_…` show that the hypotheses of the
statement of that name can be met.
-/
namespace Sys2Proof.Tests
open Sys2Proof.Machine

/-! ### Small states -/

/-- `N = 4`, `W = 2`, `H = 256`. -/
def tiny : Build := ⟨2, 1, 256, .symmetric, 0x40000000⟩

/-- `N = 8`, `W = 4`, `H = 256`. -/
def eight : Build := ⟨3, 2, 256, .symmetric, 0x40000000⟩

/-- A build just after reset. -/
def idle (b : Build) : State := State.resetOf b 0 0 []

/-- A command in flight. -/
def running (op : BitVec 4) (s : State) : State := s.setStatus (acceptStatus op s.status)

/-- Samples in IN_RAM and their count. -/
def withSamples (bytes : List Byte) (count : Word) (s : State) : State :=
  (s.store inBase bytes).setInCount count

/-- A host write at an offset, at the bus address it has in the small builds. -/
def hostWrite (a d : Word) : Event := .busWrite (0x40000000 + a) d

/-- A host read at an offset, likewise. -/
def hostRead (a : Word) : Event := .busRead (0x40000000 + a)

/-- The next state, or the given one. -/
def nextOf (r : Result) (otherwise : State) : State :=
  match r with
  | .next t => t
  | .fault _ => otherwise
  | .refused _ => otherwise

/-- All frame points of a state. -/
def points (s : State) : List (Nat × Int) :=
  (List.range (displayWidth s.build)).map fun j => ((frameX s j).toNat, (frameY s j).toInt)

/-- All RES entries of a state, as DECIM reads them. -/
def results (s : State) : List Int := (resList s).map BitVec.toInt

/-- The sample bytes of V-MAG-CMD. -/
def magBytes : List Byte :=
  [0x7F, 0x00, 0x80, 0x80, 0x03, 0xFC, 0xFF, 0x01, 0x00, 0x00, 0x64, 0x64, 0xF9, 0x02, 0x01, 0x01]

/-- The sample bytes of program P2. -/
def ramp : List Byte := [10, 0, 20, 0, 30, 0, 40, 0]

/-! ### Well-formedness: each check refuses an ill-formed build (R8) -/

theorem test_legal_builds : Build.reference.legal = true ∧ tiny.legal = true ∧ eight.legal = true := by decide
theorem test_refuses_short_transform : Build.legal ⟨1, 0, 256, .symmetric, 0x40000000⟩ = false := by decide
theorem test_refuses_long_transform : Build.legal ⟨17, 0, 256, .symmetric, 0x40000000⟩ = false := by decide
theorem test_refuses_wide_display : Build.legal ⟨2, 3, 256, .symmetric, 0x40000000⟩ = false := by decide
theorem test_refuses_zero_height : Build.legal ⟨2, 1, 0, .symmetric, 0x40000000⟩ = false := by decide
theorem test_refuses_tall_display : Build.legal ⟨2, 1, 32768, .symmetric, 0x40000000⟩ = false := by decide
theorem test_every_command_is_wellFormed (i : Instr) : i.wellFormed = true := by cases i <;> rfl

/-! ### Decoding: the words of the opcode map (R111), written out byte by byte (R80) -/

theorem test_decode_nop : decode [0x00, 0x00, 0x00, 0x00] = .ok (.nop, []) := by rfl
theorem test_decode_mag : decode [0x01, 0x00, 0x00, 0x00] = .ok (.mag, []) := by rfl
theorem test_decode_win : decode [0x02, 0x00, 0x00, 0x00] = .ok (.win, []) := by rfl
theorem test_decode_fft : decode [0x03, 0x00, 0x00, 0x00] = .ok (.fft, []) := by rfl
theorem test_decode_logp : decode [0x04, 0x00, 0x00, 0x00] = .ok (.logp, []) := by rfl
theorem test_decode_shift : decode [0x05, 0x00, 0x00, 0x00] = .ok (.shift, []) := by rfl
theorem test_decode_decim : decode [0x06, 0x00, 0x00, 0x00] = .ok (.decim, []) := by rfl
theorem test_decode_magFrame : decode [0x08, 0x00, 0x00, 0x00] = .ok (.magFrame, []) := by rfl
theorem test_decode_specFrame : decode [0x09, 0x00, 0x00, 0x00, 0xAA] = .ok (.specFrame, [0xAA]) := by rfl
theorem test_decode_reserved_opcode : decode [0x07, 0x00, 0x00, 0x00] = .error (.reservedOpcode 0x7) := by rfl
theorem test_decode_reserved_bits : decode [0x09, 0x00, 0x00, 0x80] = .error (.reservedBits 0x80000009) := by rfl
theorem test_decode_too_short : decode [0x01, 0x00, 0x00] = .error (.tooShort 3) := by rfl
theorem test_encode_specFrame : encode .specFrame = [0x00000009] := by rfl
theorem test_table_word : decodeTableWord 32 8 = some .magFrame ∧ decodeTableWord 32 0x107 = none := by decide

/-! ### Reset and the fetch of a command -/

/-- R58, R36, R37: the reference build after reset. -/
theorem test_reset_registers :
    (memRead State.reset 0x004, memRead State.reset 0x008, memRead State.reset 0x010,
      memRead State.reset 0x01C, irq State.reset) =
    (some 0x00000A0D, some 0x00000100, some 0, some 0x00010000, false) := by decide

/-- R220: a loaded command is the very next step's. -/
theorem test_fetch_runs_nop :
    (nextOf (step (State.reset.withFetchWord 32 0)) State.reset).status = ⟨false, true, false, false, 0⟩ := by
  decide

/-- R241: a loaded word that is no command is rejected by the very next step. -/
theorem test_fetch_rejects_reserved :
    (nextOf (step ((idle tiny).withFetchWord 32 7)) (idle tiny)).errCmd = 7 := by decide

/-! ### The commands (95_test_vectors.md, Part 2) -/

/-- V-NOP. -/
theorem test_nop : statusWord (nextOf (exec .nop (running 0 (idle tiny))) (idle tiny)).status = 0x00000002 := by
  decide

/-- V-MAG-CMD, IN_COUNT 7. -/
theorem test_mag_odd_count :
    results (nextOf (exec .mag (withSamples magBytes 7 (idle eight))) (idle eight)) =
      [127, 192, 5, 0, 0, 0, 0, 0] := by decide +kernel

/-- V-MAG-CMD, IN_COUNT 0xFFFFFFFF. -/
theorem test_mag_long_count :
    results (nextOf (exec .mag (withSamples magBytes 0xFFFFFFFF (idle eight))) (idle eight)) =
      [127, 192, 5, 1, 0, 150, 8, 1] := by decide +kernel

/-- V-WIN, third row: negative samples times +0.0. -/
theorem test_win_signed_zeros :
    workList (nextOf (exec .win (withSamples [0xFD, 0, 5, 0xFE, 0xF9, 4, 9, 0x80] 8 (idle tiny))) (idle tiny)) =
      [(0x8000000000000000, 0), (0x400E000000000000, 0xBFF8000000000000),
       (0xC015000000000000, 0x4008000000000000), (0, 0x8000000000000000)] := by decide +kernel

/-- V-WIN, fourth row: IN_COUNT 5. -/
theorem test_win_zero_fill :
    workList (nextOf (exec .win (withSamples ramp 5 (idle tiny))) (idle tiny)) =
      [(0, 0), (0x402E000000000000, 0), (0, 0), (0, 0)] := by decide +kernel

/-- V-FFT, first row. -/
theorem test_fft_ramp :
    workList (nextOf (exec .fft ((idle tiny).writeWork
      [(f64OfInt 1, 0), (f64OfInt 2, 0), (f64OfInt 3, 0), (f64OfInt 4, 0)])) (idle tiny)) =
      [(f64OfInt 10, 0), (f64OfInt (-2), f64OfInt 2), (f64OfInt (-2), 0), (f64OfInt (-2), f64OfInt (-2))] := by
  decide +kernel

/-- V-FFT, `e^(+j 2 pi n / 4)`: the forward sign. -/
theorem test_fft_tone :
    workList (nextOf (exec .fft ((idle tiny).writeWork
      [(f64OfInt 1, 0), (0, f64OfInt 1), (f64OfInt (-1), 0), (0, f64OfInt (-1))])) (idle tiny)) =
      [(0, 0), (f64OfInt 4, 0), (0, 0), (0, 0)] := by decide +kernel

/-- V-LOGP: powers 0, 25, 100, +Inf. -/
theorem test_logp :
    results (nextOf (exec .logp ((idle tiny).writeWork
      [(0, 0), (f64OfInt 3, f64OfInt 4), (f64OfInt 10, 0), (0x7FF0000000000000, 0)])) (idle tiny)) =
      [0, 13, 20, 256] := by decide +kernel

/-- V-LOGP with gain -1 and baseline -100: powers 100, 0, 1e6, NaN. -/
theorem test_logp_negative_gain :
    results (nextOf (exec .logp ((((idle tiny).setGain 0xFFFF0000).setBaseline 0xFF9C0000).writeWork
      [(f64OfInt 10, 0), (0, 0), (f64OfInt 1000, 0), (0x7FF8000000000000, 0)])) (idle tiny)) =
      [80, 196, 40, 0] := by decide +kernel

/-- V-SHIFT, host-written patterns. -/
theorem test_shift :
    results (nextOf (exec .shift ((idle tiny).writeRes [0xFFFF, 0x8000, 0x7FFF, 0x0000])) (idle tiny)) =
      [32767, 0, -1, -32768] := by decide +kernel

/-- V-DECIM, `N = 4`, `W = 2`: no clamp. -/
theorem test_decim :
    points (nextOf (exec .decim ((idle tiny).writeRes [0x7FFF, 5, 0xFFFF, 6])) (idle tiny)) =
      [(0, -32511), (1, 257)] := by decide +kernel

/-- V-DECIM, `N = 4`, `W = 1`, `H = 32767`: the largest Y. -/
theorem test_decim_single_point :
    points (nextOf (exec .decim ((idle ⟨2, 0, 32767, .symmetric, 0x40000000⟩).writeRes [0x8000, 5, 6, 7])) (idle tiny)) =
      [(0, 65535)] := by decide +kernel

/-- Program P1. -/
theorem test_magFrame :
    points (nextOf (exec .magFrame (withSamples magBytes 16 (idle eight))) (idle eight)) =
      [(0, 129), (1, 251), (2, 256), (3, 248)] := by decide +kernel

/-- Program P2: WORK, RES and FRAME. -/
theorem test_specFrame :
    (let t := nextOf (exec .specFrame (withSamples ramp 8 (idle tiny))) (idle tiny)
     (workEntry t 1, results t, points t)) =
      ((0xC036800000000000, 0xC02E000000000000), [17, 28, 31, 28], [(0, 239), (1, 225)]) := by
  decide +kernel

/-! ### Issue, STATUS, interrupt, bus (V-CMD, V-BUS, P3) -/

/-- V-CMD, last row: acceptance clears DONE and keeps ILLEGAL. -/
theorem test_accept :
    statusWord (busWrite ((idle tiny).setStatus ⟨false, true, true, false, 9⟩) 0x00C 1).status = 0x00000105 := by
  decide

/-- V-CMD: an invalid word while BUSY is an OVERRUN only. -/
theorem test_overrun :
    (let t := busWrite (running 9 (idle tiny)) 0x00C 7; (statusWord t.status, t.errCmd)) = (0x00000909, 7) := by
  decide

/-- V-CMD, STATUS write of 0x00000F01. -/
theorem test_status_write_ignores_other_bits :
    statusWord (busWrite ((idle tiny).setStatus ⟨false, true, true, true, 9⟩) 0x010 0xF01).status = 0x0000090E := by
  decide

/-- P3: ILLEGAL raises `irq` when ERR_IE is set. -/
theorem test_irq : irq (busWrite (busWrite (idle eight) 0x014 3) 0x00C 7) = true := by decide

/-- V-BUS: the last word of a RAM region, past it, and a ROM word. -/
theorem test_region_ends :
    (memRead (idle eight) 0x10000C).isSome = true ∧ memRead (idle eight) 0x100010 = none ∧
      memRead (idle eight) 0x300020 = none ∧ memRead (running 1 (idle eight)) 0x200000 = none := by
  decide +kernel

/-- V-BUS: WIN[1] of `N = 8`. -/
theorem test_rom_word :
    (memRead (idle eight) 0x500008, memRead (idle eight) 0x50000C) = (some 0x3AE8245D, some 0x3FC818BE) := by
  decide +kernel

/-- R50: the host word 0x00F08000 at IN_RAM offset 0. -/
theorem test_sample_word :
    (let t := busWrite (idle tiny) 0x100000 0x00F08000
     (sampleI t 0, sampleQ t 0, sampleI t 1, sampleQ t 1)) = (0, -128, -16, 0) := by decide +kernel

/-- R89: an offset of the block is a bus address from BASE on, and addresses about the block get ERROR. -/
theorem test_base_address :
    (nextOf (step ((idle tiny).setInputs [.busRead 0x40000000])) (idle tiny)).resp = some (.okayData 0x53414331) ∧
    (nextOf (step ((idle tiny).setInputs [.busRead 0x3FFFFFFC])) (idle tiny)).resp = some .error ∧
    (nextOf (step ((idle tiny).setInputs [.busRead 0x40700000])) (idle tiny)).resp = some .error := by
  decide

/-! ### Exact comparisons behind the rounding: known cosines and logarithms -/

/-- `cos (pi / 3) = 1/2`, `cos (2 pi / 3) = -1/2`, `cos (pi / 4)` between 0.7 and 0.71. -/
theorem test_cosVersus :
    [cosVersus 1 6 (1 / 2), cosVersus 2 6 (-1 / 2), cosVersus 5 6 (1 / 2), cosVersus 1 8 (7 / 10),
      cosVersus 1 8 (71 / 100)] = [.eq, .eq, .eq, .gt, .lt] := by decide +kernel

/-- `log10 100 = 2`, `log10 1 = 0`, `log10 2` between 0.30 and 0.31, `log10 2^-10` below -3. -/
theorem test_log10Versus :
    [log10Versus (100 * 2 ^ 1074) 2, log10Versus (2 ^ 1074) 0, log10Versus (2 ^ 1075) (3 / 10),
      log10Versus (2 ^ 1075) (31 / 100), log10Versus (2 ^ 1064) (-3)] = [.eq, .eq, .gt, .lt, .lt] := by
  decide +kernel

/-- Where the two ends round apart, the exact comparison gives the right neighbour: TW[1] of `N = 8` (R156)
from either side. -/
theorem test_exact_choice :
    [nearerOf 0x3FE6A09E667F3BCC 0x3FE6A09E667F3BCD (cosVersus 1 8),
      nearerOf 0x3FE6A09E667F3BCD 0x3FE6A09E667F3BCE (cosVersus 1 8)] =
      [0x3FE6A09E667F3BCD, 0x3FE6A09E667F3BCD] := by decide +kernel

/-! ### Witnesses: the hypotheses of each statement can be met -/

theorem witness_DecodeAndEncodeAgreeOnBytes :
    Instr.wellFormed .fft = true ∧ decode (encodeBytes .fft ++ [7]) = .ok (.fft, [7]) := by decide

theorem witness_StepServesEventsAndRunsTheDecodedCommand :
    (let s := (running 3 (idle tiny)).setInputs [.engineTurn]
     s.status.busy = true ∧ decodeOpcode s.status.curOp = some .fft ∧ s.inputs = [.engineTurn]) ∧
    (running 3 (idle tiny)).inputs = [] ∧ (idle tiny).status.busy = false ∧ (idle tiny).inputs = [] ∧
    ((idle tiny).setInputs [.engineTurn]).inputs = [.engineTurn] ∧
    (let s := (idle tiny).setInputs [hostRead 0xFFFFFFFF]
     s.inputs = [.busRead (s.build.base + 0xFFFFFFFF)]) ∧
    (let s := (idle tiny).setInputs [hostWrite 0xC 3]
     s.inputs = [.busWrite (s.build.base + 0xC) 3]) ∧
    ((idle tiny).setInputs [.reset]).inputs = [.reset] := by decide

/-- Reset states of the small builds satisfy the invariant. -/
theorem inv_idle (b : Build) (h : b.legal = true) : (idle b).Inv :=
  ⟨h, rfl, fun _ hc => absurd hc List.not_mem_nil, rfl, .inl rfl⟩

theorem inv_running (b : Build) (h : b.legal = true) (op : BitVec 4) (ho : (decodeOpcode op).isSome = true)
    (es : List Event) : ((running op (idle b)).setInputs es).Inv :=
  ⟨h, rfl, by simp [idle, running], ho, .inl rfl⟩

theorem witness_EveryAcceptedCommandCompletes :
    ((running 9 (idle eight)).setInputs [hostRead 0x10, hostWrite 0xC 7]).Inv ∧
    ((running 9 (idle eight)).setInputs [hostRead 0x10, hostWrite 0xC 7]).status.busy = true ∧
    Event.reset ∉ ((running 9 (idle eight)).setInputs [hostRead 0x10, hostWrite 0xC 7]).inputs :=
  ⟨inv_running _ (by decide) _ (by decide) _, rfl, by decide⟩

theorem witness_HostCannotDisturbCommandInFlight :
    (running 9 (idle eight)).status.busy = true ∧
    busRead (running 9 (idle eight)) 0x100000 = (running 9 (idle eight)).setResp .error ∧
    (busWrite (running 9 (idle eight)) 0x014 3).doneIe = true := by decide

theorem witness_CtrlWriteIssuesOrRejects :
    (running 1 (idle tiny)).status.busy = true ∧ (idle tiny).status.busy = false ∧
    validCommand 0x10 = false ∧ validCommand 0x9 = true := by decide

theorem witness_RegisterMapReads :
    (idle eight).build.legal = true ∧ Build.hann ⟨3, 2, 256, .periodic, 0x40000000⟩ = .periodic ∧
    0x28 < (0x02C : Word).toNat ∧ (0x0FF : Word).toNat < 0x100 := by decide

theorem witness_ConfigurationRegistersReadBackAsWritten :
    (idle tiny).status.busy = false ∧ (running 1 (idle tiny)).status.busy = true := by decide

theorem witness_ReadErrorsAreExactlyTheListedCases :
    (idle eight).build.legal = true ∧ memRead (idle eight) 0x028 = some 0 ∧ memRead (idle eight) 0x02C = none ∧
    memRead (idle eight) 0x026 = none ∧ memRead (idle eight) 0x6FFFFC = none ∧
    memRead (running 1 (idle eight)) 0x10000C = none := by decide +kernel

theorem witness_WriteErrorsAreExactlyTheListedCases :
    (idle eight).build.legal = true ∧ memWrite (idle eight) 0x024 1 = none ∧
    memWrite (idle eight) 0x600000 1 = none ∧ memWrite (running 1 (idle eight)) 0x018 1 = none ∧
    (memWrite (idle eight) 0x018 1).isSome = true := by decide +kernel

theorem witness_ReadsAndRefusedWritesChangeNothing :
    (busWrite (idle tiny) 0x500000 0).resp = some .error := by decide

theorem witness_RamWriteChangesExactlyItsFourBytes :
    (idle eight).build.legal = true ∧ (idle eight).status.busy = false ∧
    (0x10000C : Word).toNat % 4 = 0 ∧ ramAddress eight (0x10000C : Word).toNat ∧
    (0x40007C : Word).toNat % 4 = 0 ∧ ramAddress eight (0x40007C : Word).toNat := by decide

theorem witness_RamWordsAreTheElementsOfTheRams :
    (idle eight).build.legal = true ∧ (idle eight).status.busy = false ∧ 4 * 3 < 2 * transformLength eight ∧
    2 * 3 < transformLength eight ∧ 3 < displayWidth eight ∧ 7 < transformLength eight := by decide

theorem witness_RomWordsAreServedAtAnyTime :
    (running 1 (idle eight)).build.legal = true ∧ 7 < transformLength eight ∧ 3 < transformLength eight / 2 := by
  decide

theorem witness_RomReadsNeverChange :
    step ((idle eight).setInputs [.reset]) = .next (resetPulse (idle eight)) ∧
    romAddress eight (0x50003C : Word).toNat ∧ romAddress eight (0x60003C : Word).toNat :=
  ⟨rfl, by decide, by decide⟩

theorem witness_MagnitudeClosedFormAndMonotone :
    Int.natAbs 2 ≤ Int.natAbs (-3) ∧ Int.natAbs (-1) ≤ Int.natAbs 1 ∧ (-128 : Int) ≤ -128 ∧ (-128 : Int) ≤ 127 := by
  decide

theorem witness_MagWritesEveryResult :
    (let s := withSamples magBytes 7 (idle eight)
     2 < transformLength s.build ∧ 2 < suppliedPairs s ∧ suppliedPairs s ≤ 3 ∧ 3 < transformLength s.build) := by
  decide

theorem witness_RoundingIsToNearestEven :
    InRoundingRange ((1 / 3 : Rat) : ℝ) ∧ ¬ InRoundingRange (((2 ^ 1024 - 2 ^ 970 : Nat) : Rat) : ℝ) := by
  constructor
  · unfold InRoundingRange
    have h : |((1 / 3 : Rat) : ℝ)| < 1 := by norm_num
    have h2 : (1 : ℝ) ≤ 2 ^ 970 := one_le_pow₀ (by norm_num)
    have h3 : (2 : ℝ) ^ 1024 = 2 ^ 54 * 2 ^ 970 := by rw [← pow_add]
    rw [h3]
    generalize (2 : ℝ) ^ 970 = A at h2
    norm_num at h ⊢
    linarith
  · unfold InRoundingRange
    have hle : (2 : Nat) ^ 970 ≤ 2 ^ 1024 := Nat.pow_le_pow_right Nat.two_pos (Nat.le_add_right 970 54)
    rw [Rat.cast_natCast, Nat.cast_sub hle, Nat.cast_pow, Nat.cast_pow, Nat.cast_ofNat]
    exact not_lt.mpr (le_abs_self _)

theorem witness_ArithmeticRoundsTheExactResultOnce :
    classify 0xBFF0000000000000 = .fin true (2 ^ 1074) ∧ classify 0x3FF0000000000000 = .fin false (2 ^ 1074) ∧
    classify 0x8000000000000000 = .fin true 0 ∧ classify 0x0000000000000001 = .fin false 1 := by decide +kernel

theorem witness_InfinitiesAndNaNsFollowIEEE :
    isNaN 0x7FF8000000000000 = true ∧ isNaN 0x7FF0000000000001 = true ∧
    classify 0x7FF0000000000000 = .inf false ∧ classify 0xFFF0000000000000 = .inf true ∧
    classify 0x0000000000000000 = .fin false 0 ∧ classify 0x3FF0000000000000 = .fin false (2 ^ 1074) := by
  decide +kernel

theorem witness_WindowRomIsTheRoundedHannWindow :
    eight.legal = true ∧ 7 < transformLength eight ∧ Build.legal ⟨16, 16, 32767, .periodic, 0⟩ = true := by decide

theorem witness_TwiddleRomIsTheRoundedRotation : eight.legal = true ∧ 3 < transformLength eight / 2 := by decide

theorem witness_RomEntriesAreBoundedAndSymmetric :
    eight.legal = true ∧ eight.hann = .symmetric ∧ Build.legal ⟨3, 2, 256, .periodic, 0x40000000⟩ = true ∧
    7 < transformLength eight ∧ 3 < transformLength eight / 2 := by decide

theorem witness_WinWritesEveryWorkEntry :
    (let s := withSamples ramp 5 (idle tiny)
     s.build.legal = true ∧ 1 < suppliedPairs s ∧ suppliedPairs s ≤ 2 ∧ 2 < transformLength s.build) := by decide

theorem witness_BitReversalSwapsEachPairOnce :
    6 < 2 ^ 3 ∧ bitrev 3 6 = 3 ∧ (List.range 8).length = 2 ^ 3 := by decide

theorem witness_StageAppliesEachButterflyOnce :
    (List.replicate 8 ((0 : Int), (0 : Int))).length = 2 ^ 3 ∧ 1 ≤ 2 ∧ 2 ≤ 3 ∧ 1 < 2 ^ (3 - 2) ∧ 1 < 2 ^ (2 - 1) := by
  decide

theorem witness_ExactTransformIsTheForwardDft :
    (List.replicate 8 ((1 : ℝ), (0 : ℝ))).length = 2 ^ 3 ∧ 7 < 2 ^ 3 := by simp

theorem witness_legal_reference_build : State.reset.build.legal = true := by decide

theorem witness_TransformOfWindowedSamplesIsFinite :
    (withSamples ramp 8 (idle tiny)).build.legal = true ∧ 3 < transformLength tiny := by decide

theorem witness_PowerIsNeverNegative :
    isNaN 0x7FF8000000000000 = true ∧ IsFinite (f64OfInt 3) ∧ IsFinite 0x8000000000000000 :=
  ⟨by decide, ⟨false, 3 * 2 ^ 1074, by decide +kernel⟩, ⟨true, 0, by decide +kernel⟩⟩

theorem witness_Log10IsTheRoundedLogarithm :
    classify (f64OfInt 100) = .fin false (100 * 2 ^ 1074) ∧ 0 < 100 * 2 ^ 1074 ∧
    classify 0x0000000000000001 = .fin false 1 ∧ classify 0x7FF0000000000000 = .inf false := by decide +kernel

theorem witness_DisplayValueIsClampedAndMonotone :
    256 ≤ 32767 ∧ le64 (f64OfInt 3) (f64OfInt 300) = true ∧ toDisplay 256 (f64OfInt 300) = 256 ∧
    toDisplay 256 (f64OfInt 3) = 3 ∧ HasValue 0 0 ∧ isNaN 0x7FF8000000000000 = true ∧
    classify 0xFFF0000000000000 = .inf true :=
  ⟨by decide, by decide +kernel, by decide +kernel, by decide +kernel,
    ⟨false, 0, by decide +kernel, by simp [signedUnits]⟩, by decide, by decide⟩

theorem witness_LogPowerIsTenLogTimesGainMinusBaseline :
    isNaN 0x3DF0000000000000 = false ∧ isNaN 0x7FF8000000000000 = true ∧
    lt64 0x3DEFFFFFFFFFFFFF 0x3DF0000000000000 = true ∧ lt64 0x3DF0000000000000 0x3DF0000000000000 = false ∧
    HasValue 0 0 ∧ classify 0x7FF0000000000000 = .inf false :=
  ⟨by decide, by decide, by decide +kernel, by decide +kernel,
    ⟨false, 0, by decide +kernel, by simp [signedUnits]⟩, by decide⟩

theorem witness_LogpWritesEveryResult :
    (let s := (idle tiny).writeWork [(0x7FF8000000000000, 0), (0x3FF0000000000000, 0)]
     let nan : F64 := 0xFFF0000000000001
     let p := fun i : Nat => power nan (workEntry s i)
     s.build.legal = true ∧ 1 < transformLength s.build ∧ isNaN nan = true ∧
       isNaN (p 0) = true ∧ isNaN (p 1) = false) := by
  decide +kernel

theorem witness_PermutationFlipsTheTopBit : eight.legal = true ∧ 7 < transformLength eight ∧ perm eight 7 = 3 := by
  decide

theorem witness_ShiftSwapsTheHalves : (idle eight).build.legal = true ∧ 7 < transformLength eight := by decide

theorem witness_ShiftTwiceRestoresRam : (idle eight).build.legal = true := by decide

theorem witness_StrideAndCountOfLegalBuilds : eight.legal = true ∧ 3 < pointCount eight ∧ stride eight = 2 := by
  decide

theorem witness_DecimWritesEveryPoint : (idle eight).build.legal = true ∧ 3 < 2 ^ eight.log2w := by decide

theorem witness_MagFrameClosedForm :
    (let s := withSamples magBytes 7 (idle eight)
     s.build.legal = true ∧ 2 < suppliedPairs s ∧ suppliedPairs s ≤ 3 * 2 ^ (3 - 2) ∧
       1 * 2 ^ (3 - 2) < suppliedPairs s ∧ 3 < 2 ^ s.build.log2w) := by decide

theorem witness_SpecFrameRunsItsFivePrimitives : (withSamples ramp 8 (idle tiny)).build.legal = true := by decide

theorem witness_FrameCommandsEqualTheirPrimitives : (withSamples ramp 8 (idle tiny)).status.busy = false := by decide

/-- Two states that agree on the supplied bytes and differ past them and in RES. -/
theorem witness_FramesDependOnTheirInputsAlone :
    (let s := withSamples ramp 5 (idle tiny)
     let s' := (withSamples [10, 0, 20, 0, 99, 98, 97, 96] 5 (idle tiny)).writeRes [1, 2, 3, 4]
     s.build.legal = true ∧ s'.build = s.build ∧ s'.inCount = s.inCount ∧ s'.gain = s.gain ∧
       s'.baseline = s.baseline ∧ ∀ j, j < 2 * suppliedPairs s → inByte s' j = inByte s j) := by decide +kernel

theorem witness_SpecFrameTwiceGivesTheSameFrame : (withSamples ramp 8 (idle tiny)).build.legal = true := by decide

theorem witness_EveryStepKeepsTheInvariant :
    ((running 1 (idle eight)).setInputs []).Inv ∧ ∃ t, step ((running 1 (idle eight)).setInputs []) = .next t :=
  ⟨inv_running _ (by decide) _ (by decide) _, ⟨_, rfl⟩⟩

theorem witness_ResetSatisfiesTheInvariant : eight.legal = true := by decide

theorem witness_NoStepStopsTheBlock : ((running 1 (idle eight)).setInputs [.engineTurn]).Inv :=
  inv_running _ (by decide) _ (by decide) _

theorem witness_ResetRestoresEveryRegister :
    ((running 9 (withSamples ramp 8 (idle tiny))).setInputs [.reset, hostRead 0x10]).inputs =
      [.reset, hostRead 0x10] := by decide

theorem witness_CommandsLeaveTheHostsInputsAlone :
    (idle tiny).build.legal = true ∧ ∃ t, exec .specFrame (idle tiny) = .next t := ⟨by decide, ⟨_, rfl⟩⟩

/-- One step for each clause. -/
theorem witness_StatusChangesOnlyAtItsEvents :
    (nextOf (step ((idle tiny).setInputs [hostWrite 0xC 3])) (idle tiny)).status = ⟨true, false, false, false, 3⟩ ∧
    (nextOf (step ((running 3 (idle tiny)).setInputs [.engineTurn])) (idle tiny)).status =
      ⟨false, true, false, false, 3⟩ ∧
    (nextOf (step ((idle tiny).setInputs [hostWrite 0xC 7])) (idle tiny)).status.illegal = true ∧
    (nextOf (step ((running 3 (idle tiny)).setInputs [hostWrite 0xC 0])) (idle tiny)).status.overrun = true ∧
    (let s := (idle tiny).setStatus ⟨false, true, true, true, 9⟩
     (nextOf (step (s.setInputs [hostWrite 0x10 0xE])) s).status = ⟨false, false, false, false, 9⟩ ∧
     (nextOf (step (s.setInputs [hostWrite 0xC 1])) s).status = ⟨true, false, true, true, 1⟩ ∧
     (nextOf (step (s.setInputs [.reset])) s).status = ⟨false, false, false, false, 0⟩) := by
  decide

theorem witness_FrameCountAndErrCmdChangeOnlyAtTheirEvents :
    (running 6 (idle tiny)).build.legal = true ∧
    (nextOf (step (running 6 (idle tiny))) (idle tiny)).frameCount = 2 ∧
    (nextOf (step ((idle tiny).setInputs [hostWrite 0xC 7])) (idle tiny)).errCmd = 7 := by decide

end Sys2Proof.Tests
end

section
/-!
PROOFS. Every step keeps the invariant: what each update of the state needs so as to keep it, then the
commands, the host's transactions and the step.
-/
namespace Sys2Proof.Machine

/-! ### What keeps the invariant -/

/-- The invariant speaks of the build, RAM, CUR_OP and FRAME_COUNT alone. -/
theorem State.Inv.congr {s t : State} (h : s.Inv) (hbuild : t.build = s.build) (hmem : t.mem = s.mem)
    (hop : t.status.curOp = s.status.curOp) (hcount : t.frameCount = s.frameCount) : t.Inv where
  buildLegal := hbuild ▸ h.buildLegal
  memCanonical := hmem ▸ h.memCanonical
  memInside := by rw [hmem, hbuild]; exact h.memInside
  opLegal := hop ▸ h.opLegal
  frameCountLegal := by rw [hcount, hbuild]; exact h.frameCountLegal

/-- A store of bytes that the build has (R49). -/
theorem State.Inv.store {s : State} (h : s.Inv) (a : Nat) (bs : List Byte)
    (hin : ∀ x, inRange a bs.length x → ramAddress s.build x) : (s.store a bs).Inv where
  buildLegal := h.buildLegal
  memCanonical := memWf_memStore _ _ _ h.memCanonical
  memInside c hc := (mem_memStore s.mem a bs c hc).elim (h.memInside c) (hin c.1)
  opLegal := h.opLegal
  frameCountLegal := h.frameCountLegal

/-- A store of a run of elements of one width. -/
theorem State.Inv.store_elements {α : Type} {s : State} (h : s.Inv) (f : α → List Byte) (w : Nat)
    (hw : ∀ x, (f x).length = w) (a : Nat) (l : List α)
    (hin : ∀ x, inRange a (w * l.length) x → ramAddress s.build x) : (s.store a (l.flatMap f)).Inv :=
  h.store a _ (by rwa [length_flatMap_width f w hw])

/-- A write of all `N` RES entries (R51). -/
theorem State.Inv.writeRes {s : State} (h : s.Inv) (hs : List Half)
    (hlen : hs.length = transformLength s.build) : (s.writeRes hs).Inv :=
  h.store_elements halfBytes 2 length_halfBytes resBase hs fun _ hx => .inr (.inl (hlen ▸ hx))

/-- A write of all `N` WORK entries (R52). -/
theorem State.Inv.writeWork {s : State} (h : s.Inv) (zs : List (F64 × F64))
    (hlen : zs.length = transformLength s.build) : (s.writeWork zs).Inv :=
  h.store_elements workBytes 16 length_workBytes workBase zs fun _ hx => .inr (.inr (.inr (hlen ▸ hx)))

/-- A write of all `W` frame points (R53). -/
theorem State.Inv.writeFrame {s : State} (h : s.Inv) (ps : List (Word × Word))
    (hlen : ps.length = displayWidth s.build) : (s.writeFrame ps).Inv :=
  h.store_elements pointBytes 8 length_pointBytes frameBase ps fun _ hx => .inr (.inr (.inl (hlen ▸ hx)))

/-- FRAME_COUNT becomes `W` (R45). -/
theorem State.Inv.setFrameCount {s : State} (h : s.Inv) :
    (s.setFrameCount (BitVec.ofNat 32 (displayWidth s.build))).Inv :=
  ⟨h.buildLegal, h.memCanonical, h.memInside, h.opLegal, .inr rfl⟩

/-- A STATUS update to the opcode of a command (R39). -/
theorem State.Inv.setStatus {s : State} (h : s.Inv) (st : Status)
    (hop : (decodeOpcode st.curOp).isSome = true) : (s.setStatus st).Inv :=
  ⟨h.buildLegal, h.memCanonical, h.memInside, hop, h.frameCountLegal⟩

/-- Every legal build meets the invariant right after reset (R58). -/
theorem State.resetOf_inv (b : Build) (r d : Nat) (es : List Event) (h : b.legal = true) :
    (State.resetOf b r d es).Inv :=
  ⟨h, rfl, fun _ hc => by simp at hc, rfl, .inl rfl⟩

/-! ### The commands -/

theorem runMag_inv {s : State} (h : s.Inv) : (runMag s).Inv := h.writeRes _ (by simp)

theorem runWin_inv {s : State} (h : s.Inv) : (runWin s).Inv := h.writeWork _ (by simp)

theorem runFft_inv {s : State} (h : s.Inv) : (runFft s).Inv :=
  (h.writeWork (transform (blockArith s.draws) s.build.log2n (twRom s.build) (workList s)) (by simp)).congr
    rfl rfl rfl rfl

theorem runLogp_inv {s : State} (h : s.Inv) : (runLogp s).Inv := h.writeRes _ (by simp)

theorem runShift_inv {s : State} (h : s.Inv) : (runShift s).Inv := h.writeRes _ (by simp)

/-- DECIM writes `COUNT = W` points and sets FRAME_COUNT to their number (R201, R204). -/
theorem runDecim_inv {s : State} (h : s.Inv) : (runDecim s).Inv := by
  rw [runDecim, pointCount_eq s.build h.buildLegal]
  exact (h.writeFrame _ (by simp)).setFrameCount

theorem runMagFrame_inv {s : State} (h : s.Inv) : (runMagFrame s).Inv := runDecim_inv (runMag_inv h)

theorem runSpecFrame_inv {s : State} (h : s.Inv) : (runSpecFrame s).Inv :=
  runDecim_inv (runShift_inv (runLogp_inv (runFft_inv (runWin_inv h))))

/-- A completion keeps CUR_OP (R220). -/
theorem completeCommand_inv {s : State} (h : s.Inv) : (completeCommand s).Inv := h.setStatus _ h.opLegal

/-- Every command keeps the invariant. -/
theorem exec_inv {i : Instr} {s t : State} (h : s.Inv) (ht : exec i s = .next t) : t.Inv := by
  obtain ⟨u, rfl, hu⟩ := exec_cases ht
  refine completeCommand_inv ?_
  simp only [List.mem_cons, List.not_mem_nil, or_false] at hu
  obtain rfl | rfl | rfl | rfl | rfl | rfl | rfl | rfl | rfl := hu
  · exact h
  · exact runMag_inv h
  · exact runWin_inv h
  · exact runFft_inv h
  · exact runLogp_inv h
  · exact runShift_inv h
  · exact runDecim_inv h
  · exact runMagFrame_inv h
  · exact runSpecFrame_inv h

theorem engineStep_inv {s t : State} (h : s.Inv) (ht : engineStep s = .next t) : t.Inv := by
  obtain ⟨_, rfl⟩ | ⟨_, i, _, hexec⟩ := engineStep_cases ht
  · exact h
  · exact exec_inv h hexec

/-! ### Host transactions -/

/-- A valid CTRL word holds the opcode of a command (R112). -/
theorem decodeOpcode_of_validCommand {d : Word} (h : validCommand d = true) :
    (decodeOpcode (opField d)).isSome = true := by
  cases hd : decodeOpcode (opField d) with
  | some i => rfl
  | none => by_cases hr : rsvField d = 0#28 <;> simp [validCommand, decodeWord, hd, hr] at h

/-- CUR_OP is loaded at acceptance only, with the opcode of a valid word (R240). -/
theorem issueCommand_inv {s : State} (h : s.Inv) (d : Word) : (issueCommand d s).Inv := by
  obtain ⟨_, heq⟩ | ⟨_, _, heq⟩ | ⟨_, hvalid, heq⟩ := issueCommand_cases d s <;> rw [heq]
  · exact h.congr rfl rfl rfl rfl
  · exact h.congr rfl rfl rfl rfl
  · exact h.setStatus _ (decodeOpcode_of_validCommand hvalid)

theorem regWrite_inv {s t : State} {a d : Word} (h : s.Inv) (ht : regWrite s a d = some t) : t.Inv := by
  obtain ⟨_, rfl⟩ | ⟨_, rfl⟩ | ⟨_, rfl⟩ | ⟨_, _, rfl⟩ | ⟨_, _, rfl⟩ | ⟨_, _, rfl⟩ := regWrite_cases ht
  · exact issueCommand_inv h d
  · exact h.setStatus _ h.opLegal
  all_goals exact h.congr rfl rfl rfl rfl

/-- The four bytes of an aligned word lie in the same RAM as its first: every RAM begins and ends at a
multiple of 4 (R49). -/
theorem ramAddress_of_aligned {b : Build} (hb : b.legal = true) {a x : Nat} (ha : a % 4 = 0)
    (hin : ramAddress b a) (hx : inRange a 4 x) : ramAddress b x := by
  have heven := (transformLength_even b hb).1
  unfold ramAddress inRange inBase resBase frameBase workBase at *
  omega

theorem memWrite_inv {s t : State} {a d : Word} (h : s.Inv) (ht : memWrite s a d = some t) : t.Inv := by
  obtain ⟨haligned, hreg | ⟨_, hin, rfl⟩⟩ := memWrite_cases ht
  · exact regWrite_inv h hreg
  · exact h.store _ _ fun _ => ramAddress_of_aligned h.buildLegal haligned hin

theorem busWrite_inv {s : State} (h : s.Inv) (a d : Word) : (busWrite s a d).Inv := by
  obtain ⟨t, ht, heq⟩ | ⟨_, heq⟩ := busWrite_cases s a d <;> rw [heq]
  · exact (memWrite_inv h ht).congr rfl rfl rfl rfl
  · exact h.congr rfl rfl rfl rfl

theorem busRead_inv {s : State} (h : s.Inv) (a : Word) : (busRead s a).Inv := by
  obtain ⟨r, heq⟩ := busRead_cases s a
  rw [heq]
  exact h.congr rfl rfl rfl rfl

/-! ### The step -/

/-- Settles O53, by cases on the event the step serves. -/
theorem everyStepKeepsTheInvariant : Obligations.EveryStepKeepsTheInvariant := by
  unfold Obligations.EveryStepKeepsTheInvariant
  intro s t h ht
  obtain ⟨_, hengine⟩ | ⟨_, rest, _, hevent⟩ := step_cases ht
  · exact engineStep_inv h hengine
  have hrest : (s.setInputs rest).Inv := h.congr rfl rfl rfl rfl
  obtain ⟨_, _, rfl⟩ | ⟨_, _, _, rfl⟩ | ⟨_, hengine⟩ | ⟨_, rfl⟩ := hevent
  · exact busRead_inv hrest _
  · exact busWrite_inv hrest _ _
  · exact engineStep_inv hrest hengine
  · exact State.resetOf_inv _ _ _ _ h.buildLegal

end Sys2Proof.Machine
end

section
/-!
PROOFS. `roundUnits` rounds to the nearest binary64, ties to even: first among the integers, then among
the multiples of a binade's unit, then among all finite binary64 values, with their signs.
-/
namespace Sys2Proof.Machine

/-! ### Nearest integers -/

theorem abs_nearestEven_sub_le (n d : Nat) (hd : 0 < d) : |(nearestEven n d : ℝ) - n / d| ≤ 1 / 2 := by
  obtain ⟨h1, h2, _⟩ := nearestEven_spec n d hd
  have hd' : (0 : ℝ) < d := by exact_mod_cast hd
  have h1' : 2 * ((nearestEven n d : ℝ) * d) ≤ 2 * n + d := by exact_mod_cast h1
  have h2' : 2 * (n : ℝ) ≤ 2 * (nearestEven n d * d) + d := by exact_mod_cast h2
  rw [abs_le, neg_le_sub_iff_le_add, sub_le_iff_le_add, div_le_iff₀ hd', ← sub_le_iff_le_add', le_div_iff₀ hd']
  constructor <;> linarith

theorem nearestEven_even_of_tie (n d : Nat) (hd : 0 < d) (h : |(nearestEven n d : ℝ) - n / d| = 1 / 2) :
    nearestEven n d % 2 = 0 := by
  have hd' : (0 : ℝ) < d := by exact_mod_cast hd
  refine (nearestEven_spec n d hd).2.2 ?_
  rcases (abs_eq (by norm_num)).1 h with h' | h' <;>
    rw [sub_eq_iff_eq_add, eq_comm, ← eq_sub_iff_add_eq', div_eq_iff hd'.ne'] at h'
  · left
    have : 2 * ((nearestEven n d : ℝ) * d) = 2 * n + d := by linarith
    exact_mod_cast this
  · right
    have : 2 * (n : ℝ) = 2 * (nearestEven n d * d) + d := by linarith
    exact_mod_cast this

/-- No integer is nearer to `n / d` than `nearestEven n d`, and only an even one has an equal. -/
theorem nearestEven_nearest (n d : Nat) (hd : 0 < d) (k : Nat) (hk : k ≠ nearestEven n d) :
    |(nearestEven n d : ℝ) - n / d| < |(k : ℝ) - n / d| ∨
    |(nearestEven n d : ℝ) - n / d| = |(k : ℝ) - n / d| ∧ nearestEven n d % 2 = 0 := by
  have hhalf := abs_nearestEven_sub_le n d hd
  have heven := nearestEven_even_of_tie n d hd
  generalize nearestEven n d = m at *
  have hapart : (1 : ℝ) ≤ |(k : ℝ) - m| := by
    have : (1 : ℤ) ≤ |(k : ℤ) - m| := Int.one_le_abs (by omega)
    exact_mod_cast this
  have htri := abs_sub_le (k : ℝ) (n / d) m
  rw [abs_sub_comm ((n : ℝ) / d) m] at htri
  rcases hhalf.lt_or_eq with h | h
  · left; linarith
  · rcases (show |(m : ℝ) - n / d| ≤ |(k : ℝ) - n / d| by linarith).lt_or_eq with h' | h'
    · exact .inl h'
    · exact .inr ⟨h', heven h⟩

/-! ### The binade of a quotient -/

theorem two_pow_le_of_excessBits_pos {n d : Nat} (h : 0 < excessBits n d) :
    2 ^ (52 + excessBits n d) ≤ n / d := by
  have hlog : (n / d).log2 = 52 + excessBits n d := by unfold excessBits at h ⊢; omega
  rw [← hlog]
  refine Nat.log2_self_le fun h0 => ?_
  rw [h0, Nat.log2_zero] at hlog
  omega

theorem div_lt_two_pow_excessBits (n d : Nat) : n / d < 2 ^ (53 + excessBits n d) :=
  Nat.lt_log2_self.trans_le (Nat.pow_le_pow_right (by norm_num) (by unfold excessBits; omega))

/-- The units of a binary64 value that are no multiple of `2^t` lie below the binades of that unit. -/
theorem lt_two_pow_of_not_dvd {u t : Nat} (hu : 2 ^ (Nat.log2 u - 52) ∣ u) (h : ¬ 2 ^ t ∣ u) :
    u < 2 ^ (52 + t) := by
  have hlt : Nat.log2 u - 52 < t := by
    by_contra hc
    exact h ((pow_dvd_pow 2 (not_lt.1 hc)).trans hu)
  exact Nat.lt_log2_self.trans_le (Nat.pow_le_pow_right (by norm_num) (by omega))

/-- Of all units of binary64 values none is nearer to `n / d` than the rounded quotient, and only one with
an even significand has an equal. -/
theorem roundedUnits_nearest (n d : Nat) (hd : 0 < d) (u : Nat) (hu : 2 ^ (Nat.log2 u - 52) ∣ u) :
    let t := excessBits n d
    let m := nearestEven n (d * 2 ^ t)
    u ≠ m * 2 ^ t →
      |((m * 2 ^ t : Nat) : ℝ) - n / d| < |(u : ℝ) - n / d| ∨
      |((m * 2 ^ t : Nat) : ℝ) - n / d| = |(u : ℝ) - n / d| ∧ m % 2 = 0 := by
  intro t m hne
  have hg : (0 : ℝ) < 2 ^ t := by positivity
  have hnear := nearestEven_nearest n (d * 2 ^ t) (by positivity)
  have hscale (k : Nat) : |((k * 2 ^ t : Nat) : ℝ) - n / d| = |(k : ℝ) - n / (d * 2 ^ t : Nat)| * 2 ^ t := by
    have hd' : (d : ℝ) ≠ 0 := by exact_mod_cast hd.ne'
    rw [← abs_of_pos hg, ← abs_mul]
    congr 1
    push_cast
    field_simp
  by_cases hdvd : 2 ^ t ∣ u
  · obtain ⟨k, rfl⟩ := hdvd
    rw [mul_comm (2 ^ t) k] at hne ⊢
    rw [hscale, hscale, mul_lt_mul_iff_left₀ hg, mul_left_inj' hg.ne']
    exact hnear k fun hk => hne (by rw [hk])
  · left
    have ht : 0 < t := Nat.pos_of_ne_zero fun h0 => hdvd (by simp [h0])
    have hlt : (u : ℝ) < (2 ^ 52 * 2 ^ t : Nat) := by
      rw [← pow_add]; exact_mod_cast lt_two_pow_of_not_dvd hu hdvd
    have hle : ((2 ^ 52 * 2 ^ t : Nat) : ℝ) ≤ n / d := by
      rw [← pow_add]
      exact (Nat.cast_le.2 (two_pow_le_of_excessBits_pos ht)).trans Nat.cast_div_le
    have hbinade : |((m * 2 ^ t : Nat) : ℝ) - n / d| ≤ |((2 ^ 52 * 2 ^ t : Nat) : ℝ) - n / d| := by
      rw [hscale, hscale]
      refine mul_le_mul_of_nonneg_right ?_ hg.le
      by_cases hk : 2 ^ 52 = m
      · rw [hk]
      · exact (hnear _ hk).elim le_of_lt fun h => h.1.le
    rw [abs_of_nonpos (sub_nonpos.2 hle)] at hbinade
    rw [abs_of_neg (a := (u : ℝ) - n / d) (sub_neg.2 (hlt.trans_le hle))]
    exact hbinade.trans_lt (neg_lt_neg (sub_lt_sub_right hlt _))

/-! ### The overflow bound -/

/-- A quotient rounds to a finite pattern exactly when it lies below the largest finite number of units by
less than half a unit of the last place. -/
theorem roundUnits_finite_iff (n d : Nat) (hd : 0 < d) :
    excessBits n d * 2 ^ 52 + nearestEven n (d * 2 ^ excessBits n d) < infPattern ↔
      n < d * ((2 ^ 54 - 1) * 2 ^ 2044) := by
  obtain ⟨hm, hm'⟩ := nearestEven_bounds n d
  have hlow := two_pow_le_of_excessBits_pos (n := n) (d := d)
  have hup := div_lt_two_pow_excessBits n d
  have hspec := nearestEven_spec n (d * 2 ^ excessBits n d) (by positivity)
  rw [Nat.div_lt_iff_lt_mul hd, mul_comm] at hup
  rw [Nat.le_div_iff_mul_le hd, mul_comm] at hlow
  generalize excessBits n d = t at *
  generalize nearestEven n (d * 2 ^ t) = m at *
  have hbinade {i j : Nat} (h : i ≤ j) : d * 2 ^ i ≤ d * 2 ^ j :=
    Nat.mul_le_mul_left d (Nat.pow_le_pow_right (by norm_num) h)
  have e1 : d * 2 ^ 2097 = 2 ^ 53 * (d * 2 ^ 2044) := by
    rw [show 2097 = 53 + 2044 by rfl, pow_add, Nat.mul_left_comm]
  have e2 : d * 2 ^ 2098 = 2 ^ 54 * (d * 2 ^ 2044) := by
    rw [show 2098 = 54 + 2044 by rfl, pow_add, Nat.mul_left_comm]
  have e3 : d * 2 ^ 2045 = 2 * (d * 2 ^ 2044) := by
    rw [show 2045 = 1 + 2044 by rfl, pow_add, pow_one, Nat.mul_left_comm]
  have hpos : 0 < d * 2 ^ 2044 := by positivity
  rw [Nat.mul_left_comm]
  unfold infPattern
  rcases lt_trichotomy t 2045 with ht | rfl | ht
  · have := hbinade (show 53 + t ≤ 2097 by omega)
    omega
  · rw [e3] at hspec
    generalize d * 2 ^ 2044 = P at *
    obtain ⟨h1, h2, h3⟩ := hspec
    constructor
    · intro hlt
      have hmul : m * (2 * P) ≤ (2 ^ 53 - 1) * (2 * P) := Nat.mul_le_mul_right _ (by omega)
      by_contra hc
      have hodd : m * (2 * P) = (2 ^ 53 - 1) * (2 * P) := by omega
      have := Nat.eq_of_mul_eq_mul_right (by omega) hodd
      omega
    · intro hlt
      by_contra hc
      have hmul : 2 ^ 53 * (2 * P) ≤ m * (2 * P) := Nat.mul_le_mul_right _ (by omega)
      omega
  · have := hbinade (show 2098 ≤ 52 + t by omega)
    omega

/-- The same for a real number of that many units. -/
theorem inRoundingRange_iff {x : ℝ} {n d : Nat} (hd : 0 < d) (hx : |x| * 2 ^ 1074 = n / d) :
    InRoundingRange x ↔ n < d * ((2 ^ 54 - 1) * 2 ^ 2044) := by
  have hd' : (0 : ℝ) < d := by exact_mod_cast hd
  have hbound : ((2 ^ 1024 - 2 ^ 970 : ℝ)) * 2 ^ 1074 = ((2 ^ 54 - 1) * 2 ^ 2044 : Nat) := by
    rw [Nat.cast_mul, Nat.cast_pow, Nat.cast_ofNat, show 1024 = 54 + 970 by rfl, show 2044 = 970 + 1074 by rfl,
      pow_add 2 54, pow_add 2 970]
    generalize (2 : ℝ) ^ 970 = a
    generalize (2 : ℝ) ^ 1074 = b
    norm_num
    ring
  unfold InRoundingRange
  rw [← mul_lt_mul_iff_left₀ (show (0 : ℝ) < 2 ^ 1074 by positivity), hx, hbound, div_lt_iff₀ hd', mul_comm _ (d : ℝ)]
  norm_cast

/-! ### Signs -/

/-- A value that has no nearer and, if odd, no equally near one is the rounded one. -/
theorem IsRounded.of_forall {x y : ℝ} {v : F64} (hy : HasValue v y)
    (h : ∀ w z, HasValue w z → z ≠ y →
      |y - x| < |z - x| ∨ |y - x| = |z - x| ∧ v.getLsbD 0 = false) : IsRounded x v := by
  refine ⟨y, hy, fun w z hz => ?_, fun w z hz hne htie => ?_⟩
  · by_cases hne : z = y
    · rw [hne]
    · exact (h w z hz hne).elim le_of_lt fun h => h.1.le
  · exact (h w z hz hne).elim (fun h => absurd htie.symm h.ne) fun h => h.2

/-- Numbers of opposite signs are as far apart as their sizes together. -/
theorem abs_signedUnits_sub_of_opposite {X A : ℝ} {neg : Bool} (hA : |X| = A) (hsign : if neg then X ≤ 0 else 0 ≤ X)
    (u : Nat) : |(signedUnits (!neg) u : ℝ) - X| = u + A := by
  have hu : (0 : ℝ) ≤ u := u.cast_nonneg
  cases neg
  · rw [if_neg (by decide)] at hsign
    have h : ((signedUnits (!false) u : Int) : ℝ) - X = -(u + X) := by simp [signedUnits]; ring
    rw [← hA, abs_of_nonneg hsign, h, abs_neg, abs_of_nonneg (by linarith)]
  · rw [if_pos rfl] at hsign
    have h : ((signedUnits (!true) u : Int) : ℝ) - X = u + -X := by simp [signedUnits]; ring
    rw [← hA, abs_of_nonpos hsign, h, abs_of_nonneg (by linarith)]

theorem abs_signedUnits_sub_of_same {X A : ℝ} {neg : Bool} (hA : |X| = A) (hsign : if neg then X ≤ 0 else 0 ≤ X)
    (u : Nat) : |(signedUnits neg u : ℝ) - X| = |u - A| := by
  cases neg
  · rw [← hA, abs_of_nonneg (a := X) (by simpa using hsign)]
    simp [signedUnits]
  · rw [← hA, abs_of_nonpos (a := X) (by simpa using hsign), abs_sub_comm]
    simp [signedUnits, add_comm]

/-- Nearest among the sizes is nearest among the numbers with a sign, for a number of the same sign. -/
theorem signedUnits_nearest {X A : ℝ} {neg : Bool} {U : Nat} {even : Prop} (hA : |X| = A)
    (hsign : if neg then X ≤ 0 else 0 ≤ X)
    (hnear : ∀ u, 2 ^ (Nat.log2 u - 52) ∣ u → u ≠ U →
      |(U : ℝ) - A| < |(u : ℝ) - A| ∨ |(U : ℝ) - A| = |(u : ℝ) - A| ∧ even)
    {neg' : Bool} {u : Nat} (hu : 2 ^ (Nat.log2 u - 52) ∣ u) (hne : signedUnits neg' u ≠ signedUnits neg U) :
    |(signedUnits neg U : ℝ) - X| < |(signedUnits neg' u : ℝ) - X| ∨
    |(signedUnits neg U : ℝ) - X| = |(signedUnits neg' u : ℝ) - X| ∧ even := by
  rw [abs_signedUnits_sub_of_same hA hsign]
  by_cases hsame : signedUnits neg' u = signedUnits neg u
  · rw [hsame, abs_signedUnits_sub_of_same hA hsign]
    exact hnear u hu fun h => hne (by rw [hsame, h])
  · left
    have hopposite : neg' = !neg := Bool.eq_not_of_ne fun h => hsame (by rw [h])
    have hu0 : u ≠ 0 := by rintro rfl; cases neg <;> cases neg' <;> exact hsame rfl
    rw [hopposite, abs_signedUnits_sub_of_opposite hA hsign]
    have hA0 : 0 ≤ A := hA ▸ abs_nonneg X
    have hzero : |(U : ℝ) - A| ≤ |((0 : Nat) : ℝ) - A| := by
      by_cases hU : U = 0
      · rw [hU]
      · exact (hnear 0 (by simp) (Ne.symm hU)).elim le_of_lt fun h => h.1.le
    rw [Nat.cast_zero, zero_sub, abs_neg, abs_of_nonneg hA0] at hzero
    have : (0 : ℝ) < u := by exact_mod_cast Nat.pos_of_ne_zero hu0
    linarith

/-- Nearest among the numbers of units, with the sign of the number, is nearest among the values. -/
theorem isRounded_of_units {x A : ℝ} {v : F64} {neg : Bool} {U : Nat} (hv : classify v = .fin neg U)
    (hA : |x| * 2 ^ 1074 = A) (hsign : if neg then x ≤ 0 else 0 ≤ x)
    (hnear : ∀ u, 2 ^ (Nat.log2 u - 52) ∣ u → u ≠ U →
      |(U : ℝ) - A| < |(u : ℝ) - A| ∨ |(U : ℝ) - A| = |(u : ℝ) - A| ∧ v.getLsbD 0 = false) :
    IsRounded x v := by
  have hc : (0 : ℝ) < 2 ^ 1074 := by positivity
  have hscale (s : Int) : |(s : ℝ) / 2 ^ 1074 - x| * 2 ^ 1074 = |(s : ℝ) - x * 2 ^ 1074| := by
    rw [← abs_of_pos hc, ← abs_mul, abs_of_pos hc, sub_mul, div_mul_cancel₀ _ hc.ne']
  refine IsRounded.of_forall ⟨neg, U, hv, rfl⟩ ?_
  rintro w _ ⟨neg', u, hw, rfl⟩ hne
  rw [← mul_lt_mul_iff_left₀ hc, ← mul_left_inj' hc.ne', hscale, hscale]
  refine signedUnits_nearest (by rw [abs_mul, abs_of_pos hc, hA]) ?_ hnear (units_dvd hw) fun h => hne (by rw [h])
  cases neg
  · exact mul_nonneg (by simpa using hsign) hc.le
  · exact mul_nonpos_of_nonpos_of_nonneg (by simpa using hsign) hc.le

/-! ### `roundUnits` and `RN` -/

/-- The last bit of a finite rounded pattern is that of the significand. -/
theorem getLsbD_roundUnits {neg : Bool} {n d : Nat}
    (hfinite : excessBits n d * 2 ^ 52 + nearestEven n (d * 2 ^ excessBits n d) < infPattern)
    (heven : nearestEven n (d * 2 ^ excessBits n d) % 2 = 0) : (roundUnits neg n d).getLsbD 0 = false := by
  rw [BitVec.getLsbD, Nat.testBit_zero, decide_eq_false_iff_not]
  unfold roundUnits
  simp only
  rw [min_eq_left hfinite.le, toNat_packSign _ _ (hfinite.trans (by decide))]
  split <;> omega

/-- `roundUnits` rounds every number of `n / d` units that does not overflow (R13). -/
theorem roundUnits_isRounded {x : ℝ} {neg : Bool} {n d : Nat} (hd : 0 < d) (hx : |x| * 2 ^ 1074 = n / d)
    (hsign : if neg then x ≤ 0 else 0 ≤ x) (hrange : InRoundingRange x) : IsRounded x (roundUnits neg n d) := by
  have hfinite := (roundUnits_finite_iff n d hd).2 ((inRoundingRange_iff hd hx).1 hrange)
  have hclass := classify_roundUnits neg n d
  rw [if_pos hfinite] at hclass
  refine isRounded_of_units hclass hx hsign fun u hu hne => ?_
  exact (roundedUnits_nearest n d hd u hu hne).imp_right fun h => ⟨h.1, getLsbD_roundUnits hfinite h.2⟩

/-- `roundUnits` gives infinity from the overflow bound on. -/
theorem classify_roundUnits_of_overflow {x : ℝ} {n d : Nat} (neg : Bool) (hd : 0 < d)
    (hx : |x| * 2 ^ 1074 = n / d) (hrange : ¬ InRoundingRange x) : classify (roundUnits neg n d) = .inf neg := by
  rw [classify_roundUnits, if_neg]
  rwa [roundUnits_finite_iff n d hd, ← inRoundingRange_iff hd hx]

theorem cast_unitsPerOne : (unitsPerOne : ℝ) = 2 ^ 1074 := by
  rw [unitsPerOne, Nat.cast_pow, Nat.cast_ofNat]

/-- The units of a rational, as `rnRat` hands them to `roundUnits`. -/
theorem abs_rat_mul_units (x : Rat) : |(x : ℝ)| * 2 ^ 1074 = (x.num.natAbs * unitsPerOne : Nat) / x.den := by
  rw [Nat.cast_mul, cast_unitsPerOne, Nat.cast_natAbs, Int.cast_abs, Rat.cast_def, abs_div, Nat.abs_cast]
  exact (mul_div_right_comm _ _ _).symm

/-- `RN` rounds to nearest, ties to even, below the overflow bound (R13). -/
theorem rnRat_isRounded (x : Rat) (h : InRoundingRange (x : ℝ)) : IsRounded (x : ℝ) (rnRat x) := by
  refine roundUnits_isRounded x.den_pos (abs_rat_mul_units x) ?_ h
  simp only [decide_eq_true_eq, Rat.num_neg]
  split
  · exact_mod_cast le_of_lt ‹_›
  · exact_mod_cast not_lt.1 ‹_›

/-- Settles O24, from the nearest multiple of a binade's unit and the overflow bound. -/
theorem roundingIsToNearestEven : Obligations.RoundingIsToNearestEven := by
  unfold Obligations.RoundingIsToNearestEven
  intro x
  refine ⟨rnRat_isRounded x, fun h => ?_, fun h => ?_⟩
  · rw [rnRat, classify_roundUnits_of_overflow _ x.den_pos (abs_rat_mul_units x) h]
    simp only [Rat.num_neg]
  · rw [h, rnRat, Rat.num_zero, Int.natAbs_zero, Nat.zero_mul, roundUnits_zero]
    rfl

end Sys2Proof.Machine
end

section
/-!
PROOFS. The arithmetic of binary64: finite operands give the exact result rounded once, infinities and NaN
follow IEEE-754.
-/
namespace Sys2Proof.Machine

/-! ### `RN` of a quotient of units -/

theorem unitsPerOne_pos : 0 < unitsPerOne := by unfold unitsPerOne; positivity

/-- `RN` of any rational of `n / d` units, whatever the fraction it is given as. -/
theorem rnRat_eq_roundUnits {x : Rat} {n : Int} {d : Nat} (hd : 0 < d) (h : x * unitsPerOne = n / d) :
    rnRat x = roundUnits (decide (n < 0)) n.natAbs d := by
  have hc : (0 : Rat) < unitsPerOne := Nat.cast_pos.2 unitsPerOne_pos
  have hd' : (0 : Rat) < d := by exact_mod_cast hd
  have hsign : x.num < 0 ↔ n < 0 := by
    rw [Rat.num_neg, ← mul_lt_mul_iff_left₀ hc, zero_mul, h, div_lt_iff₀ hd', zero_mul, Int.cast_lt_zero]
  have hcross : x.num * unitsPerOne * d = n * x.den := by
    have hx : (x.num : Rat) = x * x.den := (Rat.mul_den_eq_num x).symm
    rw [eq_div_iff hd'.ne'] at h
    have : (x.num : Rat) * unitsPerOne * d = n * x.den := by rw [hx, ← h]; ring
    exact_mod_cast this
  unfold rnRat
  simp only [hsign]
  refine roundUnits_congr _ x.den_pos hd ?_
  have habs := congrArg Int.natAbs hcross
  rwa [Int.natAbs_mul, Int.natAbs_mul, Int.natAbs_mul, Int.natAbs_natCast, Int.natAbs_natCast, Int.natAbs_natCast]
    at habs

/-! ### Finite operands -/

theorem signedUnits_not (neg : Bool) (u : Nat) : signedUnits (!neg) u = -signedUnits neg u := by
  cases neg <;> simp [signedUnits]

theorem natAbs_signedUnits (neg : Bool) (u : Nat) : (signedUnits neg u).natAbs = u := by
  cases neg <;> simp [signedUnits]

/-- The sign of an exact product that is not 0 (R13). -/
theorem signedUnits_mul_neg_iff {na nb : Bool} {ua ub : Nat} (h : signedUnits na ua * signedUnits nb ub ≠ 0) :
    decide (signedUnits na ua * signedUnits nb ub < 0) = (na != nb) := by
  have hpos : 0 < ua * ub := by
    rw [← natAbs_signedUnits na ua, ← natAbs_signedUnits nb ub, ← Int.natAbs_mul]
    exact Int.natAbs_pos.2 h
  have hpos' : (0 : Int) < ua * ub := by exact_mod_cast hpos
  cases na <;> cases nb <;> simp [signedUnits] <;> omega

/-- `neg64` flips bit 63 and keeps the bits below it. -/
theorem toNat_neg64 (b : F64) :
    (neg64 b).toNat % 2 ^ 63 = b.toNat % 2 ^ 63 ∧ (neg64 b).toNat / 2 ^ 63 = 1 - b.toNat / 2 ^ 63 := by
  rw [neg64, BitVec.toNat_xor, Nat.xor_mod_two_pow, Nat.xor_div_two_pow]
  refine ⟨Nat.xor_zero _, ?_⟩
  obtain h | h : b.toNat / 2 ^ 63 = 0 ∨ b.toNat / 2 ^ 63 = 1 := by omega
  · rw [h]; rfl
  · rw [h]; rfl

theorem classify_neg64 {b : F64} {nb : Bool} {ub : Nat} (h : classify b = .fin nb ub) :
    classify (neg64 b) = .fin (!nb) ub := by
  obtain ⟨hlow, hhigh⟩ := toNat_neg64 b
  have hexp : (neg64 b).toNat / 2 ^ 52 % 2048 = b.toNat / 2 ^ 52 % 2048 := by omega
  have hfrac : (neg64 b).toNat % 2 ^ 52 = b.toNat % 2 ^ 52 := by omega
  have hsign : decide (2 ^ 63 ≤ (neg64 b).toNat) = !decide (2 ^ 63 ≤ b.toNat) := by
    rw [← decide_not, decide_eq_decide]; omega
  unfold classify at h ⊢
  simp only [hexp, hfrac, hsign] at h ⊢
  split_ifs at h ⊢ <;> simp_all

section
variable {nan a b : F64} {na nb : Bool} {ua ub : Nat} (ha : classify a = .fin na ua) (hb : classify b = .fin nb ub)
include ha hb

/-- A sum of finite values that is not 0 is the exact sum rounded once. -/
theorem add64_eq_rnRat {z : Rat} (hz : z * unitsPerOne = (signedUnits na ua + signedUnits nb ub : Int))
    (h0 : signedUnits na ua + signedUnits nb ub ≠ 0) : add64 nan a b = rnRat z := by
  rw [add64_finite ha hb, sumSign, if_neg h0, rnRat_eq_roundUnits one_pos (by rw [hz, Nat.cast_one, div_one])]

/-- An exact zero sum of finite values is negative for two negative operands only. -/
theorem add64_eq_zero (h0 : signedUnits na ua + signedUnits nb ub = 0) :
    add64 nan a b = packSign (na && nb) 0 := by
  rw [add64_finite ha hb, h0, sumSign, if_pos rfl, Int.natAbs_zero, roundUnits_zero]

/-- A product of finite values that is not 0 is the exact product rounded once. -/
theorem mul64_eq_rnRat {z : Rat}
    (hz : z * unitsPerOne = (signedUnits na ua * signedUnits nb ub : Int) / unitsPerOne)
    (h0 : signedUnits na ua * signedUnits nb ub ≠ 0) : mul64 nan a b = rnRat z := by
  rw [mul64_finite ha hb, rnRat_eq_roundUnits unitsPerOne_pos hz, signedUnits_mul_neg_iff h0, Int.natAbs_mul,
    natAbs_signedUnits, natAbs_signedUnits]

/-- An exact zero product of finite values has the sign of its operands. -/
theorem mul64_eq_zero (h0 : signedUnits na ua * signedUnits nb ub = 0) :
    mul64 nan a b = packSign (na != nb) 0 := by
  have hunits : ua * ub = 0 := by
    rw [← natAbs_signedUnits na ua, ← natAbs_signedUnits nb ub, ← Int.natAbs_mul, h0, Int.natAbs_zero]
  rw [mul64_finite ha hb, hunits, roundUnits_zero]

end

/-- Settles O25, from the sums and products of units. -/
theorem arithmeticRoundsTheExactResultOnce : Obligations.ArithmeticRoundsTheExactResultOnce := by
  unfold Obligations.ArithmeticRoundsTheExactResultOnce
  intro nan a b na nb ua ub ha hb
  rw [← unitsPerOne]
  intro x y
  have hc : (unitsPerOne : Rat) ≠ 0 := (Nat.cast_pos.2 unitsPerOne_pos).ne'
  have hx : x * unitsPerOne = signedUnits na ua := div_mul_cancel₀ _ hc
  have hy : y * unitsPerOne = signedUnits nb ub := div_mul_cancel₀ _ hc
  have hzero {z k : Rat} {n : Int} (hk : k ≠ 0) (h : z * k = n) : z = 0 ↔ n = 0 := by
    rw [← mul_left_inj' hk, zero_mul, h, Int.cast_eq_zero]
  have hadd : (x + y) * unitsPerOne = (signedUnits na ua + signedUnits nb ub : Int) := by
    rw [add_mul, hx, hy, Int.cast_add]
  have hsub : (x - y) * unitsPerOne = (signedUnits na ua + signedUnits (!nb) ub : Int) := by
    rw [sub_mul, hx, hy, signedUnits_not, ← sub_eq_add_neg, Int.cast_sub]
  have hmul : x * y * (unitsPerOne * unitsPerOne) = (signedUnits na ua * signedUnits nb ub : Int) := by
    rw [mul_mul_mul_comm, hx, hy, Int.cast_mul]
  have hmul' : x * y * unitsPerOne = (signedUnits na ua * signedUnits nb ub : Int) / unitsPerOne := by
    rw [← hmul, ← mul_assoc, mul_div_cancel_right₀ _ hc]
  have hneg := classify_neg64 hb
  simp only [ne_eq, hzero hc hadd, hzero hc hsub, hzero (mul_ne_zero hc hc) hmul]
  exact ⟨add64_eq_rnRat ha hb hadd, add64_eq_zero ha hb, add64_eq_rnRat ha hneg hsub, add64_eq_zero ha hneg,
    mul64_eq_rnRat ha hb hmul', mul64_eq_zero ha hb⟩

/-! ### Infinities and NaN -/

theorem add64_nan_left {nan a : F64} (b : F64) (ha : classify a = .nan) : add64 nan a b = nan := by
  simp only [add64, ha]

theorem add64_nan_right {nan b : F64} (a : F64) (hb : classify b = .nan) : add64 nan a b = nan := by
  cases ha : classify a <;> simp only [add64, ha, hb]

theorem mul64_nan_left {nan a : F64} (b : F64) (ha : classify a = .nan) : mul64 nan a b = nan := by
  simp only [mul64, ha]

theorem mul64_nan_right {nan b : F64} (a : F64) (hb : classify b = .nan) : mul64 nan a b = nan := by
  cases ha : classify a <;> simp only [mul64, ha, hb]

theorem classify_packSign_infPattern (neg : Bool) : classify (packSign neg infPattern) = .inf neg := by
  rw [classify_packSign neg infPattern (by decide), if_pos (by decide), if_pos (by decide)]

section
variable {nan a b : F64} {na nb : Bool} {u : Nat}

theorem add64_inf_inf (ha : classify a = .inf na) (hb : classify b = .inf nb) :
    add64 nan a b = if na = nb then a else nan := by
  simp only [add64, ha, hb]

theorem mul64_inf_inf (ha : classify a = .inf na) (hb : classify b = .inf nb) :
    mul64 nan a b = packSign (na != nb) infPattern := by
  simp only [mul64, ha, hb]

theorem add64_inf_finite (ha : classify a = .inf na) (hb : classify b = .fin nb u) :
    add64 nan a b = a ∧ add64 nan b a = a := by
  simp only [add64, ha, hb, and_self]

theorem mul64_inf_finite (ha : classify a = .inf na) (hb : classify b = .fin nb u) :
    mul64 nan a b = (if u = 0 then nan else packSign (na != nb) infPattern) ∧
    mul64 nan b a = (if u = 0 then nan else packSign (na != nb) infPattern) := by
  simp only [mul64, ha, hb, bne_comm (a := nb), and_self]

end

/-- Settles O26, by cases on what the operands stand for. -/
theorem infinitiesAndNaNsFollowIEEE : Obligations.InfinitiesAndNaNsFollowIEEE := by
  unfold Obligations.InfinitiesAndNaNsFollowIEEE
  intro nan a b hnan
  refine ⟨?_, fun na nb ha hb => ⟨fun heq => ?_, fun hne => ?_, ?_⟩, fun na nb u ha hb => ?_⟩
  · rw [isNaN_iff a, isNaN_iff b]
    rintro (ha | hb)
    · rw [add64_nan_left b ha, mul64_nan_left b ha]; exact ⟨hnan, hnan⟩
    · rw [add64_nan_right a hb, mul64_nan_right a hb]; exact ⟨hnan, hnan⟩
  · rw [add64_inf_inf ha hb, if_pos heq]
  · rw [add64_inf_inf ha hb, if_neg hne]; exact hnan
  · rw [mul64_inf_inf ha hb]; exact classify_packSign_infPattern _
  · obtain ⟨hab, hba⟩ := mul64_inf_finite (nan := nan) ha hb
    refine ⟨(add64_inf_finite ha hb).1, (add64_inf_finite ha hb).2, fun hu => ?_, fun hu => ?_⟩
    · rw [hab, hba, if_pos hu]; exact ⟨hnan, hnan⟩
    · rw [hab, hba, if_neg hu]; exact ⟨classify_packSign_infPattern _, classify_packSign_infPattern _⟩

end Sys2Proof.Machine
end

section
/-!
PROOFS. A real number between two rationals is rounded correctly: through the rounding of the ends where
they round alike, and through the exact comparison with the midpoint where they are neighbours.
-/
namespace Sys2Proof.Machine

/-! ### The pattern and the value of a finite binary64 -/

/-- The exponent field `e` and the fraction field `f` of a finite pattern, and the units they stand for. -/
theorem fields_of_classify {v : F64} {neg : Bool} {u : Nat} (h : classify v = .fin neg u) :
    ∃ e f, e < 2047 ∧ f < 2 ^ 52 ∧ v.toNat = (if neg then 2 ^ 63 else 0) + (e * 2 ^ 52 + f) ∧
      u = if e = 0 then f else (2 ^ 52 + f) * 2 ^ (e - 1) := by
  have hv := v.isLt
  have hsplit : v.toNat = (if decide (2 ^ 63 ≤ v.toNat) then 2 ^ 63 else 0) +
      (v.toNat / 2 ^ 52 % 2048 * 2 ^ 52 + v.toNat % 2 ^ 52) := by
    simp only [decide_eq_true_eq]
    split <;> omega
  refine ⟨v.toNat / 2 ^ 52 % 2048, v.toNat % 2 ^ 52, ?_⟩
  unfold classify at h
  simp only at h
  split at h
  · split at h <;> cases h
  · have hexp : v.toNat / 2 ^ 52 % 2048 < 2047 := by omega
    split at h <;> rename_i he <;> injection h with hneg hu <;> subst hneg
    · exact ⟨hexp, Nat.mod_lt _ (by norm_num), hsplit, by rw [if_pos he, hu]⟩
    · exact ⟨hexp, Nat.mod_lt _ (by norm_num), hsplit, by rw [if_neg he, hu]⟩

/-- The exponent field from the units: one more than the bits past the 53rd, but 0 for a subnormal. -/
theorem log2_units {e f : Nat} (hf : f < 2 ^ 52) :
    Nat.log2 (if e = 0 then f else (2 ^ 52 + f) * 2 ^ (e - 1)) - 52 = e - 1 := by
  split
  · by_cases h0 : f = 0
    · rw [h0, Nat.log2_zero]; omega
    · have := (Nat.log2_lt h0).2 hf
      omega
  · have h0 : (2 ^ 52 + f) * 2 ^ (e - 1) ≠ 0 := by positivity
    have hlow : 52 + (e - 1) ≤ Nat.log2 ((2 ^ 52 + f) * 2 ^ (e - 1)) :=
      (Nat.le_log2 h0).2 (by rw [pow_add]; exact Nat.mul_le_mul_right _ (by omega))
    have hup : Nat.log2 ((2 ^ 52 + f) * 2 ^ (e - 1)) < 53 + (e - 1) :=
      (Nat.log2_lt h0).2 (by rw [pow_add]; exact Nat.mul_lt_mul_of_pos_right (by omega) (by positivity))
    omega

/-- The pattern of a finite value, from its sign and its units: the inverse of `classify`. -/
theorem toNat_of_classify {v : F64} {neg : Bool} {u : Nat} (h : classify v = .fin neg u) :
    v.toNat = (if neg then 2 ^ 63 else 0) + ((u.log2 - 52) * 2 ^ 52 + u / 2 ^ (u.log2 - 52)) := by
  obtain ⟨e, f, -, hf, hv, rfl⟩ := fields_of_classify h
  rw [hv, log2_units hf, Nat.add_left_cancel_iff]
  split
  · rename_i he
    rw [he, pow_zero, Nat.div_one]
  · rw [Nat.mul_div_cancel _ (by positivity)]
    omega

/-- The units of a finite value lie below the overflow bound. -/
theorem units_lt {v : F64} {neg : Bool} {u : Nat} (h : classify v = .fin neg u) :
    u < (2 ^ 54 - 1) * 2 ^ 2044 := by
  obtain ⟨e, f, he, hf, -, rfl⟩ := fields_of_classify h
  generalize hk : 2044 = k
  have hP : 0 < 2 ^ k := by positivity
  have hle : 2 ^ (e - 1) ≤ 2 * 2 ^ k := by
    rw [← pow_succ']
    exact Nat.pow_le_pow_right (by norm_num) (by omega)
  generalize 2 ^ k = P at *
  split
  · omega
  · calc (2 ^ 52 + f) * 2 ^ (e - 1) ≤ (2 ^ 53 - 1) * (2 * P) := Nat.mul_le_mul (by omega) hle
      _ < (2 ^ 54 - 1) * P := by omega

theorem HasValue.mul_units {v : F64} {y : ℝ} (h : HasValue v y) :
    ∃ neg u, classify v = .fin neg u ∧ y * 2 ^ 1074 = signedUnits neg u := by
  obtain ⟨neg, u, hc, rfl⟩ := h
  exact ⟨neg, u, hc, div_mul_cancel₀ _ (by positivity)⟩

theorem HasValue.abs_mul_units {v : F64} {y : ℝ} {neg : Bool} {u : Nat} (h : HasValue v y)
    (hc : classify v = .fin neg u) : |y| * 2 ^ 1074 = u := by
  obtain ⟨neg', u', hc', hy⟩ := h.mul_units
  rw [hc] at hc'
  obtain ⟨rfl, rfl⟩ := Num.fin.inj hc'
  rw [← abs_of_pos (show (0 : ℝ) < 2 ^ 1074 by positivity), ← abs_mul, hy]
  cases neg <;> simp [signedUnits]

/-- A pattern has one value. -/
theorem HasValue.unique {v : F64} {y z : ℝ} (hy : HasValue v y) (hz : HasValue v z) : y = z := by
  obtain ⟨n, u, hc, rfl⟩ := hy
  obtain ⟨n', u', hc', rfl⟩ := hz
  rw [hc] at hc'
  obtain ⟨rfl, rfl⟩ := Num.fin.inj hc'
  rfl

/-- Values of the same size come from the same number of units. -/
theorem HasValue.units_eq {v w : F64} {y z : ℝ} {n n' : Bool} {u u' : Nat} (hy : HasValue v y) (hz : HasValue w z)
    (hc : classify v = .fin n u) (hc' : classify w = .fin n' u') (h : |y| = |z|) : u = u' := by
  have : (u : ℝ) = u' := by rw [← hy.abs_mul_units hc, ← hz.abs_mul_units hc', h]
  exact_mod_cast this

/-- Patterns of one value have the same last bit: they are equal, or the two zeros. -/
theorem HasValue.getLsbD_congr {v w : F64} {y : ℝ} (hv : HasValue v y) (hw : HasValue w y) :
    v.getLsbD 0 = w.getLsbD 0 := by
  obtain ⟨n, u, hc, -⟩ := hv.mul_units
  obtain ⟨n', u', hc', -⟩ := hw.mul_units
  obtain rfl := hv.units_eq hw hc hc' rfl
  rw [BitVec.getLsbD, BitVec.getLsbD, Nat.testBit_zero, Nat.testBit_zero, toNat_of_classify hc, toNat_of_classify hc',
    decide_eq_decide]
  split <;> split <;> omega

theorem HasValue.inRoundingRange {v : F64} {y : ℝ} (h : HasValue v y) : InRoundingRange y := by
  obtain ⟨n, u, hc, -⟩ := h.mul_units
  rw [inRoundingRange_iff one_pos (n := u) (by rw [h.abs_mul_units hc, Nat.cast_one, div_one]), one_mul]
  exact units_lt hc

theorem InRoundingRange.midpoint {y z : ℝ} (hy : InRoundingRange y) (hz : InRoundingRange z) :
    InRoundingRange ((y + z) / 2) := by
  unfold InRoundingRange at *
  generalize (2 : ℝ) ^ 1024 - 2 ^ 970 = B at *
  rw [abs_lt] at *
  constructor <;> linarith

theorem HasValue.finiteValue {v : F64} {y : ℝ} (h : HasValue v y) : (finiteValue v : ℝ) = y := by
  obtain ⟨n, u, hc, rfl⟩ := h
  unfold Machine.finiteValue
  simp only [hc]
  rw [Rat.mkRat_eq_div, Rat.cast_div, Rat.cast_intCast, Rat.cast_natCast, cast_unitsPerOne]

/-! ### The spacing of binary64 -/

theorem units_spacing {u w : Nat} (hu : 2 ^ (Nat.log2 u - 52) ∣ u) (hw : 2 ^ (Nat.log2 w - 52) ∣ w) (h : u < w) :
    w ≤ 2 ^ 54 * (w - u) := by
  by_cases hhalf : 2 * u ≤ w
  · omega
  have hu0 : u ≠ 0 := by omega
  have hlog : Nat.log2 w ≤ Nat.log2 u + 1 := by
    have : Nat.log2 w < Nat.log2 u + 2 := (Nat.log2_lt (by omega)).2 (by
      have := Nat.lt_log2_self (n := u)
      rw [pow_succ]; omega)
    omega
  have hdvd : 2 ^ (Nat.log2 w - 52) ∣ 2 * (w - u) := by
    rw [Nat.mul_sub]
    refine Nat.dvd_sub (hw.mul_left 2) ?_
    calc 2 ^ (Nat.log2 w - 52) ∣ 2 ^ (Nat.log2 u - 52 + 1) := pow_dvd_pow 2 (by omega)
      _ ∣ 2 * u := by rw [pow_succ, mul_comm]; exact Nat.mul_dvd_mul_left 2 hu
  have hle := Nat.le_of_dvd (by omega) hdvd
  have hlt : w < 2 ^ (53 + (Nat.log2 w - 52)) :=
    Nat.lt_log2_self.trans_le (Nat.pow_le_pow_right (by norm_num) (by omega))
  rw [pow_add] at hlt
  omega

/-- A value is at most `2^54` times as large as its distance from any other value. -/
theorem HasValue.abs_le_spacing {v w : F64} {y z : ℝ} (hy : HasValue v y) (hz : HasValue w z) (hne : y ≠ z) :
    |z| ≤ 2 ^ 54 * |z - y| := by
  have hc : (0 : ℝ) < 2 ^ 1074 := by positivity
  obtain ⟨n, u, hcy, hyu⟩ := hy.mul_units
  obtain ⟨n', u', hcz, hzu⟩ := hz.mul_units
  have hsigned : signedUnits n u ≠ signedUnits n' u' := fun h =>
    hne (mul_right_cancel₀ hc.ne' (by rw [hyu, hzu, h]))
  have hup := units_spacing (units_dvd hcy) (units_dvd hcz)
  have hdown := units_spacing (units_dvd hcz) (units_dvd hcy)
  have hint : (signedUnits n' u').natAbs ≤ 2 ^ 54 * (signedUnits n' u' - signedUnits n u).natAbs := by
    cases n <;> cases n' <;> simp only [signedUnits, if_true, if_false, Bool.false_eq_true] at hsigned ⊢ <;> omega
  rw [← mul_le_mul_iff_left₀ hc, mul_assoc, ← abs_of_pos hc, ← abs_mul, ← abs_mul, sub_mul, hzu, hyu]
  have hreal : (((signedUnits n' u').natAbs : Nat) : ℝ) ≤
      2 ^ 54 * ((signedUnits n' u' - signedUnits n u).natAbs : Nat) := by exact_mod_cast hint
  rwa [Nat.cast_natAbs, Nat.cast_natAbs, Int.cast_abs, Int.cast_abs, Int.cast_sub] at hreal

/-! ### Rounding by comparing with midpoints -/

theorem abs_sub_le_abs_sub_iff (x y z : ℝ) : |y - x| ≤ |z - x| ↔ 0 ≤ (z - y) * (y + z - 2 * x) := by
  rw [← sq_le_sq]
  constructor <;> intro h <;> linarith

theorem abs_sub_eq_abs_sub_iff {x y z : ℝ} (hne : z ≠ y) : |z - x| = |y - x| ↔ 2 * x = y + z := by
  rw [abs_eq_abs]
  constructor
  · rintro (h | h)
    · exact absurd (by linarith) hne
    · linarith
  · intro h
    right; linarith

/-- Correct rounding by midpoints: the number lies on the value's side of the point halfway to any other
value, and on that point only if the last bit is 0. -/
theorem isRounded_iff_midpoints {x y : ℝ} {v : F64} (hv : HasValue v y) :
    IsRounded x v ↔ ∀ w z, HasValue w z →
      (z < y → y + z ≤ 2 * x) ∧ (y < z → 2 * x ≤ y + z) ∧
      (z ≠ y → 2 * x = y + z → v.getLsbD 0 = false) := by
  constructor
  · rintro ⟨y', hv', hnear, htie⟩ w z hw
    obtain rfl := hv.unique hv'
    have hprod := (abs_sub_le_abs_sub_iff x y z).1 (hnear w z hw)
    refine ⟨fun hlt => ?_, fun hlt => ?_, fun hne h => htie w z hw hne ((abs_sub_eq_abs_sub_iff hne).2 h)⟩
    · have := nonpos_of_mul_nonneg_right hprod (sub_neg.2 hlt)
      linarith
    · have := nonneg_of_mul_nonneg_right hprod (sub_pos.2 hlt)
      linarith
  · intro h
    refine ⟨y, hv, fun w z hw => (abs_sub_le_abs_sub_iff x y z).2 ?_, fun w z hw hne heq =>
      (h w z hw).2.2 hne ((abs_sub_eq_abs_sub_iff hne).1 heq)⟩
    obtain ⟨hbelow, habove, -⟩ := h w z hw
    rcases lt_trichotomy z y with hlt | rfl | hlt
    · exact mul_nonneg_of_nonpos_of_nonpos (by linarith) (by linarith [hbelow hlt])
    · rw [sub_self, zero_mul]
    · exact mul_nonneg (by linarith) (by linarith [habove hlt])

/-- A number between two that round alike rounds as they do. -/
theorem IsRounded.between {x l r : ℝ} {v : F64} (hl : IsRounded l v) (hr : IsRounded r v) (hlx : l ≤ x) (hxr : x ≤ r) :
    IsRounded x v := by
  have ⟨y, hv, _⟩ := hl
  rw [isRounded_iff_midpoints hv] at *
  intro w z hw
  obtain ⟨hl1, -, hl3⟩ := hl w z hw
  obtain ⟨-, hr2, hr3⟩ := hr w z hw
  refine ⟨fun h => (hl1 h).trans (by linarith), fun h => le_trans (by linarith) (hr2 h), fun hne h => ?_⟩
  rcases hne.lt_or_gt with hlt | hgt
  · exact hl3 hne (le_antisymm (by linarith) (hl1 hlt))
  · exact hr3 hne (le_antisymm (hr2 hgt) (by linarith))

/-- Two finite values with none between them. -/
structure Neighbours (a b : F64) (ya yb : ℝ) : Prop where
  left : HasValue a ya
  right : HasValue b yb
  lt : ya < yb
  none_between : ∀ w z, HasValue w z → z ≤ ya ∨ yb ≤ z

/-- A number that lies past one that rounds to the left neighbour, but not past the midpoint. -/
theorem Neighbours.isRounded_left {a b : F64} {ya yb l x : ℝ} (h : Neighbours a b ya yb) (hl : IsRounded l a)
    (hlx : l ≤ x) (hmid : 2 * x ≤ ya + yb) (htie : 2 * x = ya + yb → a.getLsbD 0 = false) : IsRounded x a := by
  rw [isRounded_iff_midpoints h.left] at *
  intro w z hw
  obtain ⟨hl1, -, hl3⟩ := hl w z hw
  refine ⟨fun hlt => (hl1 hlt).trans (by linarith), fun hlt => ?_, fun hne heq => ?_⟩
  · rcases h.none_between w z hw with hz | hz <;> linarith
  · rcases hne.lt_or_gt with hlt | hgt
    · exact hl3 hne (le_antisymm (by linarith) (hl1 hlt))
    · rcases h.none_between w z hw with hz | hz
      · linarith
      · exact htie (by linarith)

/-- A number that lies short of one that rounds to the right neighbour, but not short of the midpoint. -/
theorem Neighbours.isRounded_right {a b : F64} {ya yb r x : ℝ} (h : Neighbours a b ya yb) (hr : IsRounded r b)
    (hxr : x ≤ r) (hmid : ya + yb ≤ 2 * x) (htie : 2 * x = ya + yb → b.getLsbD 0 = false) : IsRounded x b := by
  rw [isRounded_iff_midpoints h.right] at *
  intro w z hw
  obtain ⟨-, hr2, hr3⟩ := hr w z hw
  refine ⟨fun hlt => ?_, fun hlt => le_trans (by linarith) (hr2 hlt), fun hne heq => ?_⟩
  · rcases h.none_between w z hw with hz | hz <;> linarith
  · rcases hne.lt_or_gt with hlt | hgt
    · rcases h.none_between w z hw with hz | hz
      · exact htie (by linarith)
      · linarith
    · exact hr3 hne (le_antisymm (hr2 hgt) (by linarith))

/-- Of two neighbours one is even: the midpoint rounds to it. -/
theorem Neighbours.even_or_even {a b : F64} {ya yb : ℝ} (h : Neighbours a b ya yb) :
    a.getLsbD 0 = false ∨ b.getLsbD 0 = false := by
  have hm : (((finiteValue a + finiteValue b) / 2 : Rat) : ℝ) = (ya + yb) / 2 := by
    rw [Rat.cast_div, Rat.cast_add, h.left.finiteValue, h.right.finiteValue, Rat.cast_ofNat]
  have hround := rnRat_isRounded ((finiteValue a + finiteValue b) / 2)
    (hm ▸ h.left.inRoundingRange.midpoint h.right.inRoundingRange)
  rw [hm] at hround
  have ⟨y, hv, _⟩ := hround
  rw [isRounded_iff_midpoints hv] at hround
  have hlt := h.lt
  obtain ⟨-, ha2, ha3⟩ := hround a ya h.left
  obtain ⟨hb1, -, hb3⟩ := hround b yb h.right
  rcases h.none_between _ y hv with hy | hy
  · obtain rfl : y = ya := le_antisymm hy (not_lt.1 fun hc => by linarith [ha2 hc])
    left
    rw [h.left.getLsbD_congr hv]
    exact hb3 hlt.ne' (by ring)
  · obtain rfl : y = yb := le_antisymm (not_lt.1 fun hc => by linarith [hb1 hc]) hy
    right
    rw [h.right.getLsbD_congr hv]
    exact ha3 hlt.ne (by ring)

/-- The exact comparison with the midpoint picks the neighbour a number rounds to. -/
theorem Neighbours.isRounded_nearerOf {a b : F64} {ya yb l r x : ℝ} (h : Neighbours a b ya yb) (hl : IsRounded l a)
    (hr : IsRounded r b) (hlx : l ≤ x) (hxr : x ≤ r) {versus : Rat → Ordering}
    (hversus : ∀ m, Compares (versus m) x m) : IsRounded x (nearerOf a b versus) := by
  have hm : (((finiteValue a + finiteValue b) / 2 : Rat) : ℝ) = (ya + yb) / 2 := by
    rw [Rat.cast_div, Rat.cast_add, h.left.finiteValue, h.right.finiteValue, Rat.cast_ofNat]
  obtain ⟨hlt, heq, hgt⟩ := hversus ((finiteValue a + finiteValue b) / 2)
  rw [hm] at hlt heq hgt
  unfold nearerOf
  split
  · have := hlt.1 ‹_›
    exact h.isRounded_left hl hlx (by linarith) fun h' => by linarith
  · have := hgt.1 ‹_›
    exact h.isRounded_right hr hxr (by linarith) fun h' => by linarith
  · have := heq.1 ‹_›
    split
    · rename_i hodd
      exact h.isRounded_right hr hxr (by linarith) fun _ => h.even_or_even.resolve_left (by simp [hodd])
    · rename_i heven
      exact h.isRounded_left hl hlx (by linarith) fun _ => by simpa using heven

/-! ### Close enclosures -/

/-- The ends of a close enclosure are numbers of one sign. -/
theorem EnclosesClosely.neg_iff {e : Enclosure} {x : ℝ} (h : EnclosesClosely e x) : e.lo < 0 ↔ e.hi < 0 := by
  obtain ⟨hlo, hhi, hwidth⟩ := h
  have hlohi : (e.lo : ℝ) ≤ e.hi := hlo.trans hhi
  refine ⟨fun hneg => ?_, fun hneg => lt_of_le_of_lt (by exact_mod_cast hlohi) hneg⟩
  by_contra hc
  have hneg' : (e.lo : ℝ) < 0 := by exact_mod_cast hneg
  have hpos' : (0 : ℝ) ≤ e.hi := by exact_mod_cast not_lt.1 hc
  have hx : |x| ≤ e.hi - e.lo := abs_le.2 ⟨by linarith, by linarith⟩
  rw [le_div_iff₀ (by positivity)] at hwidth
  norm_num at hwidth
  linarith

/-- A rounded value has the sign of the rational. -/
theorem classify_rnRat {x : Rat} {y : ℝ} (h : HasValue (rnRat x) y) :
    ∃ u, classify (rnRat x) = .fin (decide (x < 0)) u := by
  obtain ⟨neg, u, hc, -⟩ := h
  have hclass := hc
  rw [rnRat, classify_roundUnits] at hclass
  split at hclass
  · obtain ⟨hneg, -⟩ := Num.fin.inj hclass
    rw [← hneg] at hc
    exact ⟨u, by simpa only [Rat.num_neg] using hc⟩
  · cases hclass

/-- Where the ends of a close enclosure round to one value, they round alike. -/
theorem EnclosesClosely.eq_of_value_eq {e : Enclosure} {x y : ℝ} (h : EnclosesClosely e x)
    (ha : HasValue (rnRat e.lo) y) (hb : HasValue (rnRat e.hi) y) : rnRat e.lo = rnRat e.hi := by
  obtain ⟨u, hclo⟩ := classify_rnRat ha
  obtain ⟨u', hchi⟩ := classify_rnRat hb
  obtain rfl := ha.units_eq hb hclo hchi rfl
  apply BitVec.eq_of_toNat_eq
  rw [toNat_of_classify hclo, toNat_of_classify hchi, decide_eq_decide.2 h.neg_iff]

/-- The roundings of the ends of a close enclosure are equal or neighbours: a value between them would leave
the ends too far apart for its spacing. -/
theorem EnclosesClosely.neighbours {e : Enclosure} {x ya yb : ℝ} (h : EnclosesClosely e x)
    (hlo : IsRounded e.lo (rnRat e.lo)) (hhi : IsRounded e.hi (rnRat e.hi)) (ha : HasValue (rnRat e.lo) ya)
    (hb : HasValue (rnRat e.hi) yb) (hne : rnRat e.lo ≠ rnRat e.hi) :
    Neighbours (rnRat e.lo) (rnRat e.hi) ya yb := by
  have ⟨hlx, hxr, hwidth⟩ := h
  rw [isRounded_iff_midpoints ha] at hlo
  rw [isRounded_iff_midpoints hb] at hhi
  have hlohi : (e.lo : ℝ) < e.hi :=
    lt_of_le_of_ne (hlx.trans hxr) fun heq => hne (by rw [Rat.cast_injective heq])
  have hlt : ya < yb := by
    rcases lt_trichotomy ya yb with hlt | rfl | hgt
    · exact hlt
    · exact absurd (h.eq_of_value_eq ha hb) hne
    · have := (hlo _ yb hb).1 hgt
      have := (hhi _ ya ha).2.1 hgt
      linarith
  refine ⟨ha, hb, hlt, fun w z hz => ?_⟩
  by_contra hc
  obtain ⟨haz, hzb⟩ : ya < z ∧ z < yb := by simpa using hc
  have hloz := (hlo w z hz).2.1 haz
  have hhiz := (hhi w z hz).1 hzb
  have hspace := ha.abs_le_spacing hz haz.ne
  rw [abs_of_pos (sub_pos.2 haz)] at hspace
  have hx : |x| ≤ |z| + (e.hi - e.lo) := by
    have := abs_sub_abs_le_abs_sub x z
    have : |x - z| ≤ e.hi - e.lo := abs_le.2 ⟨by linarith, by linarith⟩
    linarith
  rw [le_div_iff₀ (by positivity)] at hwidth
  norm_num at hwidth hspace
  linarith

/-- The real number of a close enclosure, rounded with the help of an exact comparison, is correctly
rounded (R13). -/
theorem rnBetween_isRounded {e : Enclosure} {x : ℝ} {versus : Rat → Ordering} (h : EnclosesClosely e x)
    (hlo : InRoundingRange e.lo) (hhi : InRoundingRange e.hi) (hversus : ∀ m, Compares (versus m) x m) :
    IsRounded x (rnBetween e versus) := by
  have hl := rnRat_isRounded e.lo hlo
  have hr := rnRat_isRounded e.hi hhi
  unfold rnBetween
  split
  · rename_i heq
    rw [← heq] at hr
    exact hl.between hr h.1 h.2.1
  · rename_i hne
    have ⟨ya, ha, _⟩ := hl
    have ⟨yb, hb, _⟩ := hr
    exact (h.neighbours hl hr ha hb hne).isRounded_nearerOf hl hr h.1 h.2.1 hversus

theorem rnBetween_eq_end (e : Enclosure) (versus : Rat → Ordering) :
    rnBetween e versus = rnRat e.lo ∨ rnBetween e versus = rnRat e.hi := by
  unfold rnBetween nearerOf
  split
  · exact .inl rfl
  · split
    · exact .inl rfl
    · exact .inr rfl
    · split
      · exact .inr rfl
      · exact .inl rfl

end Sys2Proof.Machine
end

section
/-!
PROOFS. `LOG10`: the two rationals lie close about the decimal logarithm, so its rounding is correct.
-/
namespace Sys2Proof.Machine

/-! ### Quotients of bounds -/

/-- A quotient near `A / D`, from how near its numerator and its denominator are. -/
theorem abs_div_sub_div_le {n d A D V W : ℝ} (hd : 0 < d) (hD : D ≠ 0) (hn : |n - A| ≤ V) (hdD : |D - d| ≤ W) :
    |n / d - A / D| ≤ (V + |A / D| * W) / d := by
  have heq : n / d - A / D = ((n - A) + A / D * (D - d)) / d := by field_simp; ring
  rw [heq, abs_div, abs_of_pos hd]
  refine div_le_div_of_nonneg_right ((abs_add_le _ _).trans ?_) hd.le
  rw [abs_mul]
  exact add_le_add hn (mul_le_mul_of_nonneg_left hdD (abs_nonneg _))

/-- A lower bound of a quotient divides by the far bound of the denominator where the numerator is not
negative, else by the near one. -/
theorem mkRat_le_div {n : Int} {p q : Nat} {A D : ℝ} (hp : 0 < p) (hpD : p ≤ D) (hDq : D ≤ q) (hn : n ≤ A) :
    ((mkRat n (if 0 ≤ n then q else p) : Rat) : ℝ) ≤ A / D := by
  have hp' : (0 : ℝ) < p := by exact_mod_cast hp
  rw [Rat.mkRat_eq_div, Rat.cast_div, Rat.cast_intCast, Rat.cast_natCast]
  split
  · have hn0 : (0 : ℝ) ≤ n := by exact_mod_cast ‹0 ≤ n›
    exact div_le_div₀ (hn0.trans hn) hn (hp'.trans_le hpD) hDq
  · have hn0 : (n : ℝ) ≤ 0 := by exact_mod_cast (not_le.1 ‹_›).le
    rw [div_le_div_iff₀ hp' (hp'.trans_le hpD)]
    exact (mul_le_mul_of_nonpos_left hpD hn0).trans (mul_le_mul_of_nonneg_right hn hp'.le)

theorem div_le_mkRat {n : Int} {p q : Nat} {A D : ℝ} (hp : 0 < p) (hpD : p ≤ D) (hDq : D ≤ q) (hn : A ≤ n) :
    A / D ≤ ((mkRat n (if 0 ≤ n then p else q) : Rat) : ℝ) := by
  have hp' : (0 : ℝ) < p := by exact_mod_cast hp
  have hD : 0 < D := hp'.trans_le hpD
  rw [Rat.mkRat_eq_div, Rat.cast_div, Rat.cast_intCast, Rat.cast_natCast]
  split
  · have hn0 : (0 : ℝ) ≤ n := by exact_mod_cast ‹0 ≤ n›
    exact div_le_div₀ hn0 hn hp' hpD
  · have hn0 : (n : ℝ) ≤ 0 := by exact_mod_cast (not_le.1 ‹_›).le
    rw [div_le_div_iff₀ hD (hD.trans_le hDq)]
    exact (mul_le_mul_of_nonneg_right hn (hD.le.trans hDq)).trans (mul_le_mul_of_nonpos_left hDq hn0)

/-! ### The enclosure -/

theorem two_lt_log_ten : 2 < Real.log 10 := by
  have h : 3 * Real.log 2 ≤ Real.log 10 := by
    rw [← Nat.cast_ofNat, ← Real.log_pow]
    exact Real.log_le_log (by norm_num) (by norm_num)
  linarith [Real.log_two_gt_d9]

theorem log_ten_lt_three : Real.log 10 < 3 := by
  have h : Real.log 10 ≤ 4 * Real.log 2 := by
    rw [← Nat.cast_ofNat (n := 4), ← Real.log_pow]
    exact Real.log_le_log (by norm_num) (by norm_num)
  linarith [Real.log_two_lt_d9]

theorem logb_eq_scaled (y : ℝ) : Real.logb 10 y = Real.log y * fixOne / (Real.log 10 * fixOne) :=
  (mul_div_mul_right _ _ fixOne_pos.ne').symm

theorem fixOne_le_ln10Bounds : (fixOne : ℝ) ≤ ln10Bounds.1 ∧ (fixOne : ℝ) ≤ ln10Bounds.2 := by
  obtain ⟨h1, h2, h3⟩ := ln10Bounds_brackets
  have hF : (32 : ℝ) ≤ fixOne := by
    have : 32 ≤ fixOne := by decide +kernel
    exact_mod_cast this
  have hlog := mul_le_mul_of_nonneg_right two_lt_log_ten.le fixOne_pos.le
  constructor <;> linarith

theorem ln10Bounds_pos : 0 < ln10Bounds.1 := by
  have := fixOne_pos.trans_le fixOne_le_ln10Bounds.1
  exact_mod_cast this

/-- The two ends lie about the logarithm. -/
theorem log10Enclosure_brackets (u : Nat) (hu : 0 < u) (hdvd : 2 ^ (Nat.log2 u - 52) ∣ u) :
    ((log10Enclosure u).lo : ℝ) ≤ Real.logb 10 ((u : ℝ) / 2 ^ 1074) ∧
    Real.logb 10 ((u : ℝ) / 2 ^ 1074) ≤ (log10Enclosure u).hi := by
  obtain ⟨h1, h2, -⟩ := lnUnits_brackets u hu hdvd
  obtain ⟨d1, d2, -⟩ := ln10Bounds_brackets
  rw [logb_eq_scaled]
  exact ⟨mkRat_le_div ln10Bounds_pos d1 d2 h1, div_le_mkRat ln10Bounds_pos d1 d2 h2⟩

/-- Either bound of `ln x` over either bound of `ln 10` is close to `log10 x`, for `x` other than 1. -/
theorem abs_quotient_sub_log10_le {u : Nat} (hu : 0 < u) (hdvd : 2 ^ (Nat.log2 u - 52) ∣ u) (h1 : u ≠ 2 ^ 1074)
    {n : Int} {d : Nat} (hn : n = (lnUnits u).1 ∨ n = (lnUnits u).2) (hd : d = ln10Bounds.1 ∨ d = ln10Bounds.2) :
    |(mkRat n d : Rat) - Real.logb 10 ((u : ℝ) / 2 ^ 1074)| ≤ |Real.logb 10 ((u : ℝ) / 2 ^ 1074)| / 2 ^ 251 := by
  obtain ⟨n1, n2, n3⟩ := lnUnits_brackets u hu hdvd
  obtain ⟨d1, d2, d3⟩ := ln10Bounds_brackets
  have hgrow := le_abs_log_units u hu hdvd h1
  generalize (u : ℝ) / 2 ^ 1074 = y at *
  have hF := fixOne_pos
  have hFd : (fixOne : ℝ) ≤ d := by
    rcases hd with h | h <;> rw [h]
    · exact fixOne_le_ln10Bounds.1
    · exact fixOne_le_ln10Bounds.2
  have hnA : |(n : ℝ) - Real.log y * fixOne| ≤ 2 ^ 58 * |Real.log y| := by
    rw [abs_le]
    rcases hn with h | h <;> rw [h] <;> constructor <;> linarith
  have hdD : |Real.log 10 * fixOne - (d : ℝ)| ≤ 32 := by
    rw [abs_le]
    rcases hd with h | h <;> rw [h] <;> constructor <;> linarith
  have hlog10 := two_lt_log_ten
  have hclose := abs_div_sub_div_le (hF.trans_le hFd) (mul_pos (by linarith) hF).ne' hnA hdD
  rw [Rat.mkRat_eq_div, Rat.cast_div, Rat.cast_intCast, Rat.cast_natCast]
  rw [← logb_eq_scaled] at hclose
  have hlog : |Real.log y| ≤ |Real.logb 10 y| * 3 := by
    have h : Real.log y = Real.logb 10 y * Real.log 10 := (div_mul_cancel₀ _ (by linarith)).symm
    rw [h, abs_mul, abs_of_pos (a := Real.log 10) (by linarith)]
    exact mul_le_mul_of_nonneg_left log_ten_lt_three.le (abs_nonneg _)
  generalize |Real.logb 10 y| = x at *
  have hx : 0 ≤ x := by linarith [abs_nonneg (Real.log y)]
  have hscale : (2 : ℝ) ^ 60 * 2 ^ 251 ≤ d := by
    refine le_trans ?_ hFd
    rw [fixOne, Nat.cast_pow, Nat.cast_ofNat, ← pow_add]
    exact pow_le_pow_right₀ (by norm_num) (by norm_num)
  refine hclose.trans ?_
  rw [div_le_div_iff₀ (hF.trans_le hFd) (by positivity)]
  calc (2 ^ 58 * |Real.log y| + x * 32) * 2 ^ 251 ≤ x * 2 ^ 60 * 2 ^ 251 :=
        mul_le_mul_of_nonneg_right (by linarith) (by positivity)
    _ = x * (2 ^ 60 * 2 ^ 251) := mul_assoc _ _ _
    _ ≤ x * d := mul_le_mul_of_nonneg_left hscale hx

/-- The logarithm of 1 is enclosed exactly. -/
theorem log10Enclosure_one : log10Enclosure (2 ^ 1074) = ⟨0, 0⟩ := by
  have h : lnUnits (2 ^ 1074) = (0, 0) := by decide +kernel
  unfold log10Enclosure
  simp only [h, Rat.zero_mkRat]

theorem log10Enclosure_closely (u : Nat) (hu : 0 < u) (hdvd : 2 ^ (Nat.log2 u - 52) ∣ u) :
    EnclosesClosely (log10Enclosure u) (Real.logb 10 ((u : ℝ) / 2 ^ 1074)) := by
  obtain ⟨hlo, hhi⟩ := log10Enclosure_brackets u hu hdvd
  refine ⟨hlo, hhi, ?_⟩
  by_cases h1 : u = 2 ^ 1074
  · rw [h1, log10Enclosure_one, sub_self]
    exact div_nonneg (abs_nonneg _) (by positivity)
  · have hl : |((log10Enclosure u).lo : ℝ) - _| ≤ _ :=
      abs_quotient_sub_log10_le hu hdvd h1 (.inl rfl) (ite_eq_or_eq _ _ _).symm
    have hr : |((log10Enclosure u).hi : ℝ) - _| ≤ _ :=
      abs_quotient_sub_log10_le hu hdvd h1 (.inr rfl) (ite_eq_or_eq _ _ _)
    have htwice (z : ℝ) : z / 2 ^ 250 = z / 2 ^ 251 + z / 2 ^ 251 := by rw [pow_succ]; ring
    rw [htwice]
    linarith [(abs_le.1 hl).1, (abs_le.1 hr).2]

theorem abs_log10_le (u : Nat) (hu : 0 < u) (hlt : u < (2 ^ 54 - 1) * 2 ^ 2044) :
    |Real.logb 10 ((u : ℝ) / 2 ^ 1074)| ≤ 1074 := by
  have hup : Real.log u ≤ 2098 * Real.log 2 := by
    rw [← Nat.cast_ofNat (n := 2098), ← Real.log_pow]
    refine Real.log_le_log (by exact_mod_cast hu) ?_
    have : u ≤ 2 ^ 2098 := by
      rw [show 2098 = 54 + 2044 by rfl, pow_add]
      exact hlt.le.trans (Nat.mul_le_mul_right _ (by norm_num))
    exact (Nat.cast_le.2 this).trans_eq (by rw [Nat.cast_pow, Nat.cast_ofNat])
  have hlow : 0 ≤ Real.log u := Real.log_natCast_nonneg u
  have hlog : Real.log ((u : ℝ) / 2 ^ 1074) = Real.log u - 1074 * Real.log 2 := by
    rw [Real.log_div (by exact_mod_cast hu.ne') (by positivity), Real.log_pow, Nat.cast_ofNat]
  have h2 := Real.log_two_lt_d9
  have h2' := Real.log_two_gt_d9
  have h10 := two_lt_log_ten
  rw [Real.logb, hlog, abs_div, abs_of_pos (a := Real.log 10) (by linarith), div_le_iff₀ (by linarith), abs_le]
  constructor <;> linarith

/-- The ends of the enclosure do not overflow: a decimal logarithm of a binary64 value is small. -/
theorem EnclosesClosely.inRoundingRange {e : Enclosure} {x : ℝ} (h : EnclosesClosely e x) (hx : |x| ≤ 1074) :
    InRoundingRange e.lo ∧ InRoundingRange e.hi := by
  obtain ⟨hlo, hhi, hwidth⟩ := h
  have hbound : (4096 : ℝ) ≤ 2 ^ 1024 - 2 ^ 970 := by
    have h1 : (1 : ℝ) ≤ 2 ^ 970 := one_le_pow₀ (by norm_num)
    rw [show 1024 = 970 + 54 by rfl, pow_add]
    generalize (2 : ℝ) ^ 970 = P at *
    norm_num
    linarith
  unfold InRoundingRange
  generalize (2 : ℝ) ^ 1024 - 2 ^ 970 = B at *
  have hsmall : |x| / 2 ^ 250 ≤ |x| := div_le_self (abs_nonneg x) (one_le_pow₀ (by norm_num))
  obtain ⟨hx1, hx2⟩ := abs_le.1 hx
  rw [abs_lt, abs_lt]
  refine ⟨⟨?_, ?_⟩, ?_, ?_⟩ <;> linarith

/-- Settles O39, from the close enclosure of the logarithm and the exact comparison with midpoints. -/
theorem log10IsTheRoundedLogarithm : Obligations.Log10IsTheRoundedLogarithm := by
  unfold Obligations.Log10IsTheRoundedLogarithm
  refine ⟨fun v u hv hu => ?_, fun v hv => by simp only [log10F64, hv]⟩
  have hlog : log10F64 v = rnBetween (log10Enclosure u) (log10Versus u) := by simp only [log10F64, hv]
  have hclose := log10Enclosure_closely u hu (units_dvd hv)
  obtain ⟨hlo, hhi⟩ := hclose.inRoundingRange (abs_log10_le u hu (units_lt hv))
  rw [hlog]
  exact ⟨hclose, rnBetween_eq_end _ _, rnBetween_isRounded hclose hlo hhi (log10Versus_compares u hu)⟩

end Sys2Proof.Machine
end

section
/-!
PROOFS. The registers: the words STATUS, IRQ_EN, PARAM0 and PARAM1 read as, what the bus port answers at a
register offset, and the registers after reset.
-/
namespace Sys2Proof.Machine

/-! ### The words of the registers -/

/-- The place of each field of STATUS (R39). -/
theorem getLsbD_statusWord (st : Status) (i : Nat) :
    (statusWord st).getLsbD i =
      if i = 0 then st.busy
      else if i = 1 then st.done
      else if i = 2 then st.illegal
      else if i = 3 then st.overrun
      else if 8 ≤ i ∧ i < 12 then st.curOp.getLsbD (i - 8)
      else false := by
  simp only [statusWord, BitVec.getLsbD_append, BitVec.getLsbD_ofBool, Nat.sub_sub]
  grind

/-- The place of each field of IRQ_EN (R41). -/
theorem getLsbD_irqEnWord (doneIe errIe : Bool) (i : Nat) :
    (irqEnWord doneIe errIe).getLsbD i = if i = 0 then doneIe else if i = 1 then errIe else false := by
  simp only [irqEnWord, BitVec.getLsbD_append, BitVec.getLsbD_ofBool]
  grind

/-- IRQ_EN reads back as the two low bits of the word written to it (R41). -/
theorem irqEnWord_of_written (d : Word) : irqEnWord (d.getLsbD 0) (d.getLsbD 1) = d &&& 0x3 := by
  apply BitVec.eq_of_getLsbD_eq
  intro i hi
  rw [getLsbD_irqEnWord, BitVec.getLsbD_and]
  match i with
  | 0 => simp
  | 1 => simp
  | j + 2 => simp [BitVec.getLsbD, Nat.testBit_succ]

theorem toNat_append_eq_add {m n : Nat} (x : BitVec m) (y : BitVec n) :
    (x ++ y).toNat = x.toNat * 2 ^ n + y.toNat := by
  rw [BitVec.toNat_append, ← Nat.shiftLeft_add_eq_or_of_lt y.isLt, Nat.shiftLeft_eq]

/-- The fields of PARAM0 at their places (R36). -/
theorem param0Word_eq {b : Build} (h : b.legal = true) :
    param0Word b = BitVec.ofNat 32 (b.log2n + b.log2w * 2 ^ 8 + (if b.hann = .periodic then 2 ^ 16 else 0)) := by
  simp only [Build.legal, Build.log2nLegal, Build.log2wLegal, Bool.and_eq_true, decide_eq_true_eq] at h
  apply BitVec.eq_of_toNat_eq
  have hword (form : BitVec 1) : ((0 : BitVec 15) ++ form ++ (0 : BitVec 3) ++ BitVec.ofNat 5 b.log2w ++
      (0 : BitVec 3) ++ BitVec.ofNat 5 b.log2n).toNat = form.toNat * 2 ^ 16 + b.log2w * 2 ^ 8 + b.log2n := by
    simp only [toNat_append_eq_add, BitVec.ofNat_eq_ofNat, BitVec.toNat_ofNat]
    omega
  cases hform : b.hann <;> simp only [param0Word, hform]
  · refine (hword 0#1).trans ?_
    simp
    omega
  · refine (hword 1#1).trans ?_
    simp
    omega

/-- The field of PARAM1 (R37). -/
theorem param1Word_eq {b : Build} (h : b.legal = true) : param1Word b = BitVec.ofNat 32 b.height := by
  simp only [Build.legal, Build.heightLegal, Bool.and_eq_true, decide_eq_true_eq] at h
  apply BitVec.eq_of_toNat_eq
  refine (toNat_append_eq_add (0 : BitVec 16) (BitVec.ofNat 16 b.height)).trans ?_
  simp only [BitVec.ofNat_eq_ofNat, BitVec.toNat_ofNat]
  omega

/-! ### Reading a register -/

/-- A read below 0x100 is a register read at any time (R33, R85). -/
theorem memRead_register (s : State) {a : Word} (haligned : a.toNat % 4 = 0) (hlt : a.toNat < 0x100) :
    memRead s a = regRead s a := by
  have hregion : regionOf a = some .regs := by
    simp [regionOf, show a.toNat / 0x00100000 = 0 by omega, hlt]
  have hsize : ¬ regionBytes s.build .regs ≤ regionOffset a := by
    simp only [regionBytes, regionOffset]; omega
  simp [memRead, haligned, hregion, hsize, Region.isRam, regionRead]

section
variable (s : State)

theorem memRead_ID : memRead s 0x000 = some 0x53414331 :=
  memRead_register s (by decide) (by decide)
theorem memRead_PARAM0 : memRead s 0x004 = some (param0Word s.build) :=
  memRead_register s (by decide) (by decide)
theorem memRead_PARAM1 : memRead s 0x008 = some (param1Word s.build) :=
  memRead_register s (by decide) (by decide)
theorem memRead_CTRL : memRead s 0x00C = some 0 :=
  memRead_register s (by decide) (by decide)
theorem memRead_STATUS : memRead s 0x010 = some (statusWord s.status) :=
  memRead_register s (by decide) (by decide)
theorem memRead_IRQ_EN : memRead s 0x014 = some (irqEnWord s.doneIe s.errIe) :=
  memRead_register s (by decide) (by decide)
theorem memRead_IN_COUNT : memRead s 0x018 = some s.inCount :=
  memRead_register s (by decide) (by decide)
theorem memRead_GAIN : memRead s 0x01C = some s.gain :=
  memRead_register s (by decide) (by decide)
theorem memRead_BASELINE : memRead s 0x020 = some s.baseline :=
  memRead_register s (by decide) (by decide)
theorem memRead_FRAME_COUNT : memRead s 0x024 = some s.frameCount :=
  memRead_register s (by decide) (by decide)
theorem memRead_ERR_CMD : memRead s 0x028 = some s.errCmd :=
  memRead_register s (by decide) (by decide)

end

/-- No register lies past ERR_CMD, and none at a misaligned offset (R33, R47). -/
theorem memRead_past_registers (s : State) {a : Word} (hpast : 0x28 < a.toNat) (hlt : a.toNat < 0x100) :
    memRead s a = none := by
  by_cases haligned : a.toNat % 4 = 0
  · rw [memRead_register s haligned hlt]
    unfold regRead
    split
    case h_12 => rfl
    all_goals omega
  · simp [memRead, haligned]

/-! ### Writing a register -/

/-- A write below 0x100 is a register write (R86). -/
theorem memWrite_register (s : State) {a : Word} (d : Word) (haligned : a.toNat % 4 = 0) (hlt : a.toNat < 0x100) :
    memWrite s a d = regWrite s a d := by
  have hregion : regionOf a = some .regs := by
    simp [regionOf, show a.toNat / 0x00100000 = 0 by omega, hlt]
  simp [memWrite, haligned, hregion]

section
variable (s : State) (d : Word)

theorem memWrite_CTRL : memWrite s 0x00C d = some (issueCommand d s) :=
  memWrite_register s d (by decide) (by decide)
theorem memWrite_STATUS : memWrite s 0x010 d = some (s.setStatus (clearStatus d s.status)) :=
  memWrite_register s d (by decide) (by decide)
theorem memWrite_IRQ_EN : memWrite s 0x014 d = some (s.setIrqEn (d.getLsbD 0) (d.getLsbD 1)) :=
  memWrite_register s d (by decide) (by decide)
theorem memWrite_IN_COUNT : memWrite s 0x018 d = configWrite s (s.setInCount d) :=
  memWrite_register s d (by decide) (by decide)
theorem memWrite_GAIN : memWrite s 0x01C d = configWrite s (s.setGain d) :=
  memWrite_register s d (by decide) (by decide)
theorem memWrite_BASELINE : memWrite s 0x020 d = configWrite s (s.setBaseline d) :=
  memWrite_register s d (by decide) (by decide)

end

@[simp] theorem configWrite_idle {s : State} (t : State) (h : s.status.busy = false) :
    configWrite s t = some t := by simp [configWrite, h]

@[simp] theorem configWrite_busy {s : State} (t : State) (h : s.status.busy = true) :
    configWrite s t = none := by simp [configWrite, h]

/-! ### The register statements -/

/-- Settles O8, bit by bit from the places of the STATUS fields. -/
theorem statusWriteClearsTheWrittenOnes : Obligations.StatusWriteClearsTheWrittenOnes := by
  unfold Obligations.StatusWriteClearsTheWrittenOnes
  intro s d
  refine ⟨_, memWrite_STATUS s d, rfl, fun i => ?_⟩
  simp only [State.setStatus_status, getLsbD_statusWord]
  obtain rfl | rfl | rfl | ⟨h1, h2, h3⟩ : i = 1 ∨ i = 2 ∨ i = 3 ∨ i ≠ 1 ∧ i ≠ 2 ∧ i ≠ 3 := by omega
  · simp
  · simp
  · simp
  · simp [h1, h2, h3]

/-- Settles O9, from the places of the STATUS and IRQ_EN fields. -/
theorem interruptLevelFollowsStatusAndEnables : Obligations.InterruptLevelFollowsStatusAndEnables := by
  unfold Obligations.InterruptLevelFollowsStatusAndEnables
  intro s
  refine ⟨_, _, memRead_STATUS s, memRead_IRQ_EN s, ?_⟩
  simp only [getLsbD_statusWord, getLsbD_irqEnWord]
  rfl

/-- Settles O10: the two written bits are the whole of what IRQ_EN stores. -/
theorem irqEnableWriteTakesEffectAtOnce : Obligations.IrqEnableWriteTakesEffectAtOnce := by
  unfold Obligations.IrqEnableWriteTakesEffectAtOnce
  intro s d
  refine ⟨_, memWrite_IRQ_EN s d, rfl, ?_, rfl⟩
  rw [memRead_IRQ_EN, State.setIrqEn_doneIe, State.setIrqEn_errIe, irqEnWord_of_written]

/-- Settles O11, from the read of each register. -/
theorem registerMapReads : Obligations.RegisterMapReads := by
  unfold Obligations.RegisterMapReads
  intro s hlegal
  refine ⟨⟨_, memRead_STATUS s, getLsbD_statusWord s.status⟩,
    ⟨_, memRead_IRQ_EN s, getLsbD_irqEnWord s.doneIe s.errIe⟩, memRead_ID s, ?_, ?_, memRead_CTRL s,
    memRead_IN_COUNT s, memRead_GAIN s, memRead_BASELINE s, memRead_FRAME_COUNT s, memRead_ERR_CMD s,
    fun a => memRead_past_registers s⟩
  · rw [memRead_PARAM0, param0Word_eq hlegal]
  · rw [memRead_PARAM1, param1Word_eq hlegal]

/-- Settles O12, by cases on BUSY. -/
theorem configurationRegistersReadBackAsWritten : Obligations.ConfigurationRegistersReadBackAsWritten := by
  unfold Obligations.ConfigurationRegistersReadBackAsWritten
  intro s d
  rw [memWrite_IN_COUNT, memWrite_GAIN, memWrite_BASELINE]
  constructor
  · intro hidle
    rw [memRead_IN_COUNT, memRead_GAIN, memRead_BASELINE]
    simp [hidle]
  · intro hbusy
    simp [hbusy]

/-! ### Reset -/

/-- Settles O54, by the invariant of a reset block of any legal build. -/
theorem resetSatisfiesTheInvariant : Obligations.ResetSatisfiesTheInvariant := by
  unfold Obligations.ResetSatisfiesTheInvariant
  exact ⟨State.resetOf_inv _ _ _ _ (by decide), State.resetOf_inv⟩

/-- A RAM byte right after reset holds its draw (R58). -/
@[simp] theorem ramByte_resetOf (b : Build) (r d : Nat) (es : List Event) (a : Nat) :
    ramByte (State.resetOf b r d es) a = Config.ramDraw r a := rfl

/-- A reset event gives the reset state of the same build, one reset later (R270). -/
theorem step_reset {s : State} {rest : List Event} (h : s.inputs = .reset :: rest) :
    step s = .next (State.resetOf s.build (s.resets + 1) s.draws rest) := by
  rw [step, h]
  rfl

/-- Settles O56, from the registers of the reset state. -/
theorem resetRestoresEveryRegister : Obligations.ResetRestoresEveryRegister := by
  unfold Obligations.ResetRestoresEveryRegister
  intro s rest hnext
  have hstatus : statusWord Status.reset = 0x00000000 := by decide
  have hirqEn : irqEnWord false false = 0x00000000 := by decide
  refine ⟨_, step_reset hnext, rfl, (memRead_STATUS _).trans (congrArg some hstatus),
    (memRead_IRQ_EN _).trans (congrArg some hirqEn), memRead_IN_COUNT _, memRead_GAIN _, memRead_BASELINE _,
    memRead_FRAME_COUNT _, memRead_ERR_CMD _, rfl, rfl, rfl, ramByte_resetOf _ _ _ _⟩

end Sys2Proof.Machine
end

section
/-!
PROOFS. The RAMs and the ROMs on the bus: which word an offset of a region reads as.
-/
namespace Sys2Proof.Machine

/-! ### The places of a region -/

/-- The offset at which a region starts (R89). -/
def Region.base : Region → Nat
  | .regs => 0
  | .inRam => inBase
  | .resRam => resBase
  | .frameRam => frameBase
  | .workRam => workBase
  | .winRom => winBase
  | .twRom => twBase

/-- No region of a legal build is longer than the 1 MiB between region starts (R49, R89). -/
theorem regionBytes_le {b : Build} (h : b.legal = true) (r : Region) : regionBytes b r ≤ 0x00100000 := by
  simp only [Build.legal, Build.log2nLegal, Build.log2wLegal, Bool.and_eq_true, decide_eq_true_eq] at h
  obtain ⟨⟨⟨_, hn⟩, hw⟩, _⟩ := h
  have hN : transformLength b ≤ 2 ^ 16 := Nat.pow_le_pow_right Nat.two_pos hn
  have hW : displayWidth b ≤ 2 ^ 16 := Nat.pow_le_pow_right Nat.two_pos (hw.trans hn)
  cases r <;> simp only [regionBytes] <;> omega

theorem toNat_base_add {r : Region} {off : Nat} (h : off < 0x00100000) :
    (BitVec.ofNat 32 (r.base + off)).toNat = r.base + off := by
  rw [BitVec.toNat_ofNat]
  cases r <;> simp only [Region.base, inBase, resBase, frameBase, workBase, winBase, twBase] <;> omega

theorem regionOffset_base_add {r : Region} {off : Nat} (h : off < 0x00100000) :
    regionOffset (BitVec.ofNat 32 (r.base + off)) = off := by
  rw [regionOffset, toNat_base_add h]
  cases r <;> simp only [Region.base, inBase, resBase, frameBase, workBase, winBase, twBase] <;> omega

theorem regionOf_base_add {r : Region} {off : Nat} (hr : r ≠ .regs) (h : off < 0x00100000) :
    regionOf (BitVec.ofNat 32 (r.base + off)) = some r := by
  have hindex : (r.base + off) / 0x00100000 = r.base / 0x00100000 := by
    cases r <;> simp only [Region.base, inBase, resBase, frameBase, workBase, winBase, twBase] <;> omega
  rw [regionOf, toNat_base_add h, hindex]
  cases r
  case regs => contradiction
  all_goals rfl

theorem regionRead_ram (s : State) {r : Region} (hr : r.isRam = true) (a : Word) :
    regionRead s r a = some (ramWord s a.toNat) := by
  cases r
  case inRam | resRam | frameRam | workRam => rfl
  all_goals cases hr

section
variable {s : State} {r : Region} {off : Nat}

/-- A word of a region is served by the region, unless the busy lock covers it (R85, R90). -/
theorem memRead_base_add (hlegal : s.build.legal = true) (hregs : r ≠ .regs) (haligned : off % 4 = 0)
    (hinside : off < regionBytes s.build r) (hopen : (r.isRam && s.status.busy) = false) :
    memRead s (BitVec.ofNat 32 (r.base + off)) = regionRead s r (BitVec.ofNat 32 (r.base + off)) := by
  have hoff : off < 0x00100000 := hinside.trans_le (regionBytes_le hlegal r)
  have hbase : r.base % 4 = 0 := by cases r <;> rfl
  have hsum : (r.base + off) % 4 = 0 := by omega
  simp only [memRead, toNat_base_add hoff, hsum, regionOf_base_add hregs hoff, regionOffset_base_add hoff,
    not_le.2 hinside, hopen, ne_eq, not_true_eq_false, if_false, Bool.false_eq_true]

/-- An idle read of a RAM word (R85). -/
theorem memRead_ram (hlegal : s.build.legal = true) (hidle : s.status.busy = false) (hr : r.isRam = true)
    (haligned : off % 4 = 0) (hinside : off < regionBytes s.build r) :
    memRead s (BitVec.ofNat 32 (r.base + off)) = some (ramWord s (r.base + off)) := by
  have hregs : r ≠ .regs := by rintro rfl; cases hr
  have hoff : off < 0x00100000 := hinside.trans_le (regionBytes_le hlegal r)
  rw [memRead_base_add hlegal hregs haligned hinside (by rw [hidle, Bool.and_false]), regionRead_ram s hr,
    toNat_base_add hoff]

/-- A read of a WIN_ROM word, BUSY or not (R54, R90). -/
theorem memRead_winRom (hlegal : s.build.legal = true) (haligned : off % 4 = 0)
    (hinside : off < 8 * transformLength s.build) :
    memRead s (BitVec.ofNat 32 (winBase + off)) = some (winRomWord s.build off) := by
  have hoff : off < 0x00100000 := hinside.trans_le (regionBytes_le hlegal .winRom)
  refine (memRead_base_add (r := .winRom) hlegal nofun haligned hinside rfl).trans ?_
  rw [regionRead, regionOffset_base_add hoff]

/-- A read of a TW_ROM word, BUSY or not (R55, R90). -/
theorem memRead_twRom (hlegal : s.build.legal = true) (haligned : off % 4 = 0)
    (hinside : off < 8 * transformLength s.build) :
    memRead s (BitVec.ofNat 32 (twBase + off)) = some (twRomWord s.build off) := by
  have hoff : off < 0x00100000 := hinside.trans_le (regionBytes_le hlegal .twRom)
  refine (memRead_base_add (r := .twRom) hlegal nofun haligned hinside rfl).trans ?_
  rw [regionRead, regionOffset_base_add hoff]

end

/-! ### The words of the elements -/

/-- The low word of a binary64 value in RAM comes first (R81). -/
theorem extractLsb'_ramF64_low (s : State) (a : Nat) : (ramF64 s a).extractLsb' 0 32 = ramWord s a :=
  BitVec.extractLsb'_append_eq_right

theorem extractLsb'_ramF64_high (s : State) (a : Nat) : (ramF64 s a).extractLsb' 32 32 = ramWord s (a + 4) :=
  BitVec.extractLsb'_append_eq_left

/-- A word is its two halves (R80, R81). -/
theorem wordOfBytes_eq_halves (b0 b1 b2 b3 : Byte) : wordOfBytes b0 b1 b2 b3 = (b3 ++ b2) ++ (b1 ++ b0) :=
  BitVec.append_assoc

/-- The word at RES index `2m` is entries `2m + 1` and `2m` (R51, R81). -/
theorem ramWord_resBase (s : State) (m : Nat) :
    ramWord s (resBase + 4 * m) = resEntry s (2 * m + 1) ++ resEntry s (2 * m) := by
  rw [ramWord, wordOfBytes_eq_halves, resEntry, resEntry, show 2 * (2 * m + 1) = 4 * m + 2 by omega,
    show 2 * (2 * m) = 4 * m by omega]
  rfl

/-- The two words of a ROM coefficient, the low word first (R81). -/
theorem f64Word_low (x : F64) {off : Nat} (h : off % 8 = 0) : f64Word x off = x.extractLsb' 0 32 := by
  simp [f64Word, h]

theorem f64Word_high (x : F64) {off : Nat} (h : off % 8 = 4) : f64Word x off = x.extractLsb' 32 32 := by
  simp [f64Word, h]

/-- Settles O17: each RAM offset named there holds an aligned word of its region, and the word is that part of
the element by the definition of the element. -/
theorem ramWordsAreTheElementsOfTheRams : Obligations.RamWordsAreTheElementsOfTheRams := by
  unfold Obligations.RamWordsAreTheElementsOfTheRams
  intro s hlegal hidle
  have hread (r : Region) (hr : r.isRam = true) {off : Nat} (haligned : off % 4 = 0)
      (hinside : off < regionBytes s.build r) := memRead_ram hlegal hidle hr haligned hinside
  refine ⟨fun m hm => ?_, fun m hm => ?_, fun j hj => ⟨?_, ?_⟩, fun k hk => ⟨?_, ?_, ?_, ?_⟩⟩
  · exact hread .inRam rfl (by omega) hm
  · exact (hread .resRam rfl (by omega) (by simp only [regionBytes]; omega)).trans
      (congrArg some (ramWord_resBase s m))
  · exact hread .frameRam rfl (by omega) (by simp only [regionBytes]; omega)
  · exact hread .frameRam rfl (off := 8 * j + 4) (by omega) (by simp only [regionBytes]; omega)
  · exact (hread .workRam rfl (off := 16 * k) (by omega) (by simp only [regionBytes]; omega)).trans
      (congrArg some (extractLsb'_ramF64_low s _).symm)
  · exact (hread .workRam rfl (off := 16 * k + 4) (by omega) (by simp only [regionBytes]; omega)).trans
      (congrArg some (extractLsb'_ramF64_high s _).symm)
  · exact (hread .workRam rfl (off := 16 * k + 8) (by omega) (by simp only [regionBytes]; omega)).trans
      (congrArg some (extractLsb'_ramF64_low s _).symm)
  · exact (hread .workRam rfl (off := 16 * k + 12) (by omega) (by simp only [regionBytes]; omega)).trans
      (congrArg some (extractLsb'_ramF64_high s _).symm)

theorem winRomWord_low (b : Build) (k : Nat) : winRomWord b (8 * k) = (winRom b k).extractLsb' 0 32 := by
  rw [winRomWord, f64Word_low _ (by omega), show 8 * k / 8 = k by omega]

theorem winRomWord_high (b : Build) (k : Nat) : winRomWord b (8 * k + 4) = (winRom b k).extractLsb' 32 32 := by
  rw [winRomWord, f64Word_high _ (by omega), show (8 * k + 4) / 8 = k by omega]

section
variable (b : Build) (k : Nat)

theorem twRomWord_cos_low : twRomWord b (16 * k) = (twRom b k).1.extractLsb' 0 32 := by
  rw [twRomWord, f64Word_low _ (by omega), if_pos (by omega), show 16 * k / 16 = k by omega]

theorem twRomWord_cos_high : twRomWord b (16 * k + 4) = (twRom b k).1.extractLsb' 32 32 := by
  rw [twRomWord, f64Word_high _ (by omega), if_pos (by omega), show (16 * k + 4) / 16 = k by omega]

theorem twRomWord_sin_low : twRomWord b (16 * k + 8) = (twRom b k).2.extractLsb' 0 32 := by
  rw [twRomWord, f64Word_low _ (by omega), if_neg (by omega), show (16 * k + 8) / 16 = k by omega]

theorem twRomWord_sin_high : twRomWord b (16 * k + 12) = (twRom b k).2.extractLsb' 32 32 := by
  rw [twRomWord, f64Word_high _ (by omega), if_neg (by omega), show (16 * k + 12) / 16 = k by omega]

end

/-- Settles O18, word by word of each coefficient. -/
theorem romWordsAreServedAtAnyTime : Obligations.RomWordsAreServedAtAnyTime := by
  unfold Obligations.RomWordsAreServedAtAnyTime
  intro s hlegal
  constructor
  · intro k hk
    rw [← winRomWord_low, ← winRomWord_high]
    exact ⟨memRead_winRom hlegal (off := 8 * k) (by omega) (by omega),
      memRead_winRom hlegal (off := 8 * k + 4) (by omega) (by omega)⟩
  · intro k hk
    rw [← twRomWord_cos_low, ← twRomWord_cos_high, ← twRomWord_sin_low, ← twRomWord_sin_high]
    exact ⟨memRead_twRom hlegal (off := 16 * k) (by omega) (by omega),
      memRead_twRom hlegal (off := 16 * k + 4) (by omega) (by omega),
      memRead_twRom hlegal (off := 16 * k + 8) (by omega) (by omega),
      memRead_twRom hlegal (off := 16 * k + 12) (by omega) (by omega)⟩

/-- From WIN_ROM on, every region is a ROM (R89). -/
theorem isRom_of_winBase_le {a : Word} {r : Region} (h : regionOf a = some r) (hge : winBase ≤ a.toNat) :
    r = .winRom ∨ r = .twRom := by
  have hlt : regionOffset a < 0x00100000 := Nat.mod_lt _ (by decide)
  obtain ⟨_, ha⟩ | ⟨_, ha⟩ | ⟨_, ha⟩ | ⟨_, ha⟩ | ⟨_, ha⟩ | ⟨hr, _⟩ | ⟨hr, _⟩ := regionOf_eq_some h
  case inr.inr.inr.inr.inr.inl => exact .inl hr
  case inr.inr.inr.inr.inr.inr => exact .inr hr
  all_goals
    simp only [inBase, resBase, frameBase, workBase, winBase] at ha hge
    omega

/-- What a read in a ROM gives rests on the build alone (R54, R55). -/
theorem memRead_rom_congr {s t : State} {a : Word} (hbuild : t.build = s.build) (hrom : romAddress s.build a.toNat) :
    memRead t a = memRead s a := by
  have hge : winBase ≤ a.toNat := hrom.elim And.left fun h => le_trans (by decide) h.1
  unfold memRead
  cases hregion : regionOf a with
  | none => rfl
  | some r =>
    obtain rfl | rfl := isRom_of_winBase_le hregion hge <;> simp [Region.isRam, regionRead, hbuild]

end Sys2Proof.Machine
end

section
/-!
PROOFS. SHIFT's permutation, and what a command, a host transaction and a step leave as it was: the host's
inputs, the build, and, while a command is in flight, all that the command works on.
-/
namespace Sys2Proof.Machine

/-! ### SHIFT's permutation -/

/-- Adding the top bit to a number that lacks it is setting it. -/
theorem two_pow_add_eq_xor {n j : Nat} (hj : j < 2 ^ n) : 2 ^ n + j = j ^^^ 2 ^ n := by
  have hor := Nat.two_pow_add_eq_or_of_lt hj 1
  rw [Nat.mul_one] at hor
  rw [hor]
  apply Nat.eq_of_testBit_eq
  intro k
  rw [Nat.testBit_or, Nat.testBit_xor, Nat.testBit_two_pow]
  by_cases hk : n = k
  · subst hk
    simp [Nat.testBit_lt_two_pow hj]
  · simp [hk]

/-- Adding `N/2` modulo `N` flips the top bit (R56). -/
theorem perm_eq_xor {b : Build} (h : b.legal = true) {i : Nat} (hi : i < transformLength b) :
    perm b i = i ^^^ (transformLength b / 2) := by
  simp only [Build.legal, Build.log2nLegal, Bool.and_eq_true, decide_eq_true_eq] at h
  obtain ⟨n, hn⟩ : ∃ n, b.log2n = n + 1 := ⟨b.log2n - 1, by omega⟩
  have hN : transformLength b = 2 ^ n * 2 := by rw [transformLength, hn, Nat.pow_succ]
  rw [perm, hN, Nat.mul_div_cancel _ Nat.two_pos]
  rw [hN] at hi
  rcases lt_or_ge i (2 ^ n) with hlow | hhigh
  · rw [← two_pow_add_eq_xor hlow, Nat.add_comm, Nat.mod_eq_of_lt (by omega)]
  · obtain ⟨j, rfl⟩ := Nat.exists_eq_add_of_le hhigh
    have hj : j < 2 ^ n := by omega
    rw [show 2 ^ n + j + 2 ^ n = j + 2 ^ n * 2 by omega, Nat.add_mod_right, Nat.mod_eq_of_lt (by omega),
      two_pow_add_eq_xor hj, Nat.xor_xor_cancel_right]

/-- Settles O43; `N/2` goes to `N/2 XOR N/2`. -/
theorem permutationFlipsTheTopBit : Obligations.PermutationFlipsTheTopBit := by
  unfold Obligations.PermutationFlipsTheTopBit
  intro b i hlegal hi
  obtain ⟨hlt, hinv⟩ := perm_perm b hlegal i hi
  refine ⟨rfl, perm_eq_xor hlegal hi, hlt, hinv, ?_⟩
  obtain ⟨heven, hpos⟩ := transformLength_even b hlegal
  rw [perm_eq_xor hlegal (by omega), Nat.xor_self]

/-! ### Commands -/

/-- What no command changes: everything but STATUS, FRAME_COUNT, the counter of NaN draws and the RAMs from
RES_RAM on. -/
structure KeepsHostInputs (s t : State) : Prop where
  settings : SameSettings s t
  bytes : ∀ x, x < resBase → ramByte t x = ramByte s x

theorem SameSettings.trans {s t u : State} (h : SameSettings s t) (h' : SameSettings t u) : SameSettings s u where
  build := h'.build.trans h.build
  doneIe := h'.doneIe.trans h.doneIe
  errIe := h'.errIe.trans h.errIe
  inCount := h'.inCount.trans h.inCount
  gain := h'.gain.trans h.gain
  baseline := h'.baseline.trans h.baseline
  errCmd := h'.errCmd.trans h.errCmd
  resets := h'.resets.trans h.resets
  inputs := h'.inputs.trans h.inputs
  resp := h'.resp.trans h.resp

theorem KeepsHostInputs.trans {s t u : State} (h : KeepsHostInputs s t) (h' : KeepsHostInputs t u) :
    KeepsHostInputs s u :=
  ⟨h.settings.trans h'.settings, fun x hx => (h'.bytes x hx).trans (h.bytes x hx)⟩

section
variable (s : State)

/-- A store from RES_RAM on. -/
theorem store_keepsHostInputs {a : Nat} (bs : List Byte) (h : resBase ≤ a) : KeepsHostInputs s (s.store a bs) :=
  ⟨⟨rfl, rfl, rfl, rfl, rfl, rfl, rfl, rfl, rfl, rfl⟩,
    fun x hx => ramByte_store_outside s a bs x (.inl (hx.trans_le h))⟩

theorem nextDraws_keepsHostInputs : KeepsHostInputs s s.nextDraws :=
  ⟨⟨rfl, rfl, rfl, rfl, rfl, rfl, rfl, rfl, rfl, rfl⟩, fun _ _ => rfl⟩

theorem setFrameCount_keepsHostInputs (d : Word) : KeepsHostInputs s (s.setFrameCount d) :=
  ⟨⟨rfl, rfl, rfl, rfl, rfl, rfl, rfl, rfl, rfl, rfl⟩, fun _ _ => rfl⟩

theorem completeCommand_keepsHostInputs : KeepsHostInputs s (completeCommand s) :=
  ⟨⟨rfl, rfl, rfl, rfl, rfl, rfl, rfl, rfl, rfl, rfl⟩, fun _ _ => rfl⟩

theorem runMag_keepsHostInputs : KeepsHostInputs s (runMag s) := store_keepsHostInputs s _ le_rfl

theorem runWin_keepsHostInputs : KeepsHostInputs s (runWin s) := store_keepsHostInputs s _ (by decide)

theorem runFft_keepsHostInputs : KeepsHostInputs s (runFft s) :=
  (store_keepsHostInputs s _ (by decide)).trans (nextDraws_keepsHostInputs _)

theorem runLogp_keepsHostInputs : KeepsHostInputs s (runLogp s) := store_keepsHostInputs s _ le_rfl

theorem runShift_keepsHostInputs : KeepsHostInputs s (runShift s) := store_keepsHostInputs s _ le_rfl

theorem runDecim_keepsHostInputs : KeepsHostInputs s (runDecim s) :=
  (store_keepsHostInputs s _ (by decide)).trans (setFrameCount_keepsHostInputs _ _)

theorem runMagFrame_keepsHostInputs : KeepsHostInputs s (runMagFrame s) :=
  (runMag_keepsHostInputs s).trans (runDecim_keepsHostInputs _)

theorem runSpecFrame_keepsHostInputs : KeepsHostInputs s (runSpecFrame s) :=
  (runWin_keepsHostInputs s).trans <| (runFft_keepsHostInputs _).trans <| (runLogp_keepsHostInputs _).trans <|
    (runShift_keepsHostInputs _).trans (runDecim_keepsHostInputs _)

end

/-- Every command keeps the host's inputs (R284). -/
theorem exec_keepsHostInputs {i : Instr} {s t : State} (h : exec i s = .next t) : KeepsHostInputs s t := by
  have complete {u : State} (hu : KeepsHostInputs s u) : KeepsHostInputs s (completeCommand u) :=
    hu.trans (completeCommand_keepsHostInputs u)
  cases i <;> injection h with h <;> subst h
  case nop => exact completeCommand_keepsHostInputs s
  case mag => exact complete (runMag_keepsHostInputs s)
  case win => exact complete (runWin_keepsHostInputs s)
  case fft => exact complete (runFft_keepsHostInputs s)
  case logp => exact complete (runLogp_keepsHostInputs s)
  case shift => exact complete (runShift_keepsHostInputs s)
  case decim => exact complete (runDecim_keepsHostInputs s)
  case magFrame => exact complete (runMagFrame_keepsHostInputs s)
  case specFrame => exact complete (runSpecFrame_keepsHostInputs s)

/-- Every command ends with the completion update of STATUS (R220). -/
theorem exec_status {i : Instr} {s t : State} (h : exec i s = .next t) : t.status = completeStatus s.status := by
  cases i <;> injection h with h <;> subst h <;> simp

/-- FRAME_COUNT is written by the commands that draw a frame, and by no other (R45). -/
theorem exec_frameCount {i : Instr} {s t : State} (h : exec i s = .next t) :
    t.frameCount = s.frameCount ∨
    i ∈ [Instr.decim, .magFrame, .specFrame] ∧ t.frameCount = BitVec.ofNat 32 (pointCount s.build) := by
  cases i <;> injection h with h <;> subst h <;> simp

/-- Settles O57: IN_RAM lies below RES_RAM, the first RAM that a command writes. -/
theorem commandsLeaveTheHostsInputsAlone : Obligations.CommandsLeaveTheHostsInputsAlone := by
  unfold Obligations.CommandsLeaveTheHostsInputsAlone
  intro i s t hlegal hexec
  obtain ⟨hsettings, hbytes⟩ := exec_keepsHostInputs hexec
  refine ⟨fun j hj => hbytes (inBase + j) ?_, hsettings⟩
  have hsize : 2 * transformLength s.build ≤ 0x00100000 := regionBytes_le hlegal .inRam
  unfold inBase resBase
  omega

/-! ### Host transactions -/

/-- What no write of the host changes. -/
structure KeepsBlockState (s t : State) : Prop where
  build : t.build = s.build
  frameCount : t.frameCount = s.frameCount
  resets : t.resets = s.resets
  draws : t.draws = s.draws
  inputs : t.inputs = s.inputs

/-- A host write leaves the build, FRAME_COUNT and the model's counters alone. -/
theorem memWrite_keepsBlockState {s t : State} {a d : Word} (h : memWrite s a d = some t) : KeepsBlockState s t := by
  obtain ⟨_, hreg | ⟨_, _, rfl⟩⟩ := memWrite_cases h
  · obtain ⟨_, rfl⟩ | ⟨_, rfl⟩ | ⟨_, rfl⟩ | ⟨_, _, rfl⟩ | ⟨_, _, rfl⟩ | ⟨_, _, rfl⟩ := regWrite_cases hreg
    · obtain ⟨_, heq⟩ | ⟨_, _, heq⟩ | ⟨_, _, heq⟩ := issueCommand_cases d s <;> rw [heq] <;>
        exact ⟨rfl, rfl, rfl, rfl, rfl⟩
    all_goals exact ⟨rfl, rfl, rfl, rfl, rfl⟩
  · exact ⟨rfl, rfl, rfl, rfl, rfl⟩

theorem busWrite_keepsBlockState (s : State) (a d : Word) : KeepsBlockState s (busWrite s a d) := by
  obtain ⟨t, ht, heq⟩ | ⟨_, heq⟩ := busWrite_cases s a d <;> rw [heq]
  · obtain ⟨hbuild, hcount, hresets, hdraws, hinputs⟩ := memWrite_keepsBlockState ht
    exact ⟨hbuild, hcount, hresets, hdraws, hinputs⟩
  · exact ⟨rfl, rfl, rfl, rfl, rfl⟩

/-- All that an OKAY write can do while BUSY (R34, R90, R242): an OVERRUN, a STATUS or an IRQ_EN write. -/
theorem memWrite_busy_cases {s t : State} {a d : Word} (hbusy : s.status.busy = true) (h : memWrite s a d = some t) :
    t = rejectCommand .overrun d s ∨ t = s.setStatus (clearStatus d s.status) ∨
    t = s.setIrqEn (d.getLsbD 0) (d.getLsbD 1) := by
  obtain ⟨_, hreg | ⟨hidle, _⟩⟩ := memWrite_cases h
  · obtain ⟨_, rfl⟩ | ⟨_, rfl⟩ | ⟨_, rfl⟩ | ⟨hidle, _⟩ | ⟨hidle, _⟩ | ⟨hidle, _⟩ := regWrite_cases hreg
    · exact .inl (by simp [issueCommand, hbusy])
    · exact .inr (.inl rfl)
    · exact .inr (.inr rfl)
    all_goals simp [hbusy] at hidle
  · simp [hbusy] at hidle

/-- Settles O6, by the few writes that get OKAY while BUSY. -/
theorem hostCannotDisturbCommandInFlight : Obligations.HostCannotDisturbCommandInFlight := by
  unfold Obligations.HostCannotDisturbCommandInFlight
  rintro s a d hbusy t (rfl | rfl)
  · obtain ⟨r, heq⟩ := busRead_cases s a
    simp [heq, hbusy]
  · obtain ⟨t, ht, heq⟩ | ⟨_, heq⟩ := busWrite_cases s a d
    · obtain rfl | rfl | rfl := memWrite_busy_cases hbusy ht <;> simp [heq, hbusy, rejectCommand]
    · simp [heq, hbusy]

/-! ### The step -/

theorem engineStep_build {s t : State} (h : engineStep s = .next t) : t.build = s.build := by
  obtain ⟨_, rfl⟩ | ⟨_, i, _, hexec⟩ := engineStep_cases h
  · rfl
  · exact (exec_keepsHostInputs hexec).settings.build

/-- No step changes the build (R8). -/
theorem step_build {s t : State} (h : step s = .next t) : t.build = s.build := by
  obtain ⟨_, hengine⟩ | ⟨_, rest, _, hevent⟩ := step_cases h
  · exact engineStep_build hengine
  obtain ⟨x, _, rfl⟩ | ⟨x, d, _, rfl⟩ | ⟨_, hengine⟩ | ⟨_, rfl⟩ := hevent
  · obtain ⟨r, heq⟩ := busRead_cases (s.setInputs rest) (busOffset s.build x)
    rw [heq]; rfl
  · exact (busWrite_keepsBlockState (s.setInputs rest) _ d).build
  · exact (engineStep_build hengine).trans rfl
  · rfl

/-- Settles O19: a ROM read rests on the build, which no step changes. -/
theorem romReadsNeverChange : Obligations.RomReadsNeverChange := by
  unfold Obligations.RomReadsNeverChange
  intro s t a hstep hrom
  exact memRead_rom_congr (step_build hstep) hrom

end Sys2Proof.Machine
end

section
/-!
PROOFS. The events that change STATUS, ERR_CMD and FRAME_COUNT: what one step can do to the three, said once,
and what follows for each field.
-/
namespace Sys2Proof.Machine

/-! ### The events -/

/-- The next event is the Engine's turn, and a command is in flight (R220). -/
abbrev EngineTurn (s : State) : Prop :=
  s.status.busy = true ∧ (s.inputs = [] ∨ s.inputs.head? = some .engineTurn)

/-- The next event is a reset (R270). -/
abbrev ResetNext (s : State) : Prop := s.inputs.head? = some .reset

/-- The next event is a host write of `d` at the offset `a` (R86). -/
abbrev HostWrites (s : State) (a d : Word) : Prop := s.inputs.head? = some (.busWrite (s.build.base + a) d)

/-- All that a step can do to STATUS and ERR_CMD, with the event that does it (R39, R40, R240 to R244, R270). -/
inductive StatusStep (s t : State) : Prop where
  | quiet (status : t.status = s.status) (errCmd : t.errCmd = s.errCmd)
  | completes (turn : EngineTurn s) (status : t.status = completeStatus s.status) (errCmd : t.errCmd = s.errCmd)
  | resets (next : ResetNext s) (status : t.status = Status.reset)
  | clears (d : Word) (writes : HostWrites s 0x010 d) (status : t.status = clearStatus d s.status)
      (errCmd : t.errCmd = s.errCmd)
  | overruns (d : Word) (writes : HostWrites s 0x00C d) (busy : s.status.busy = true)
      (status : t.status = { s.status with overrun := true }) (errCmd : t.errCmd = d)
  | rejects (d : Word) (writes : HostWrites s 0x00C d) (idle : s.status.busy = false)
      (invalid : validCommand d = false) (status : t.status = { s.status with illegal := true })
      (errCmd : t.errCmd = d)
  | accepts (d : Word) (writes : HostWrites s 0x00C d) (idle : s.status.busy = false)
      (valid : validCommand d = true) (status : t.status = acceptStatus (opField d) s.status)
      (errCmd : t.errCmd = s.errCmd)

/-- The Engine's turn, at whatever place of the event list it stands. -/
theorem StatusStep.of_engineStep {s s' t : State} (hstatus : s'.status = s.status) (herr : s'.errCmd = s.errCmd)
    (hturn : s.inputs = [] ∨ s.inputs.head? = some .engineTurn) (h : engineStep s' = .next t) : StatusStep s t := by
  obtain ⟨_, rfl⟩ | ⟨hbusy, i, _, hexec⟩ := engineStep_cases h
  · exact .quiet hstatus herr
  · refine .completes ⟨hstatus ▸ hbusy, hturn⟩ ?_ ?_
    · rw [exec_status hexec, hstatus]
    · rw [(exec_keepsHostInputs hexec).settings.errCmd, herr]

/-- A host write at the offset `a`, with the event taken off the list. -/
theorem StatusStep.of_memWrite {s t : State} {rest : List Event} {a d : Word} (hwrites : HostWrites s a d)
    (h : memWrite (s.setInputs rest) a d = some t) : StatusStep s t := by
  obtain ⟨_, hreg | ⟨_, _, rfl⟩⟩ := memWrite_cases h
  · obtain ⟨rfl, rfl⟩ | ⟨rfl, rfl⟩ | ⟨_, rfl⟩ | ⟨_, _, rfl⟩ | ⟨_, _, rfl⟩ | ⟨_, _, rfl⟩ := regWrite_cases hreg
    · obtain ⟨hbusy, heq⟩ | ⟨hidle, hinvalid, heq⟩ | ⟨hidle, hvalid, heq⟩ :=
        issueCommand_cases d (s.setInputs rest) <;> rw [heq]
      · exact .overruns d hwrites hbusy rfl rfl
      · exact .rejects d hwrites hidle hinvalid rfl rfl
      · exact .accepts d hwrites hidle hvalid rfl rfl
    · exact .clears d hwrites rfl rfl
    all_goals exact .quiet rfl rfl
  · exact .quiet rfl rfl

theorem StatusStep.of_setResp {s t : State} (r : Response) (h : StatusStep s t) : StatusStep s (t.setResp r) := by
  cases h with
  | quiet status errCmd => exact .quiet status errCmd
  | completes turn status errCmd => exact .completes turn status errCmd
  | resets next status => exact .resets next status
  | clears d writes status errCmd => exact .clears d writes status errCmd
  | overruns d writes busy status errCmd => exact .overruns d writes busy status errCmd
  | rejects d writes idle invalid status errCmd => exact .rejects d writes idle invalid status errCmd
  | accepts d writes idle valid status errCmd => exact .accepts d writes idle valid status errCmd

/-- Every step is one of the seven. -/
theorem statusStep_of_step {s t : State} (h : step s = .next t) : StatusStep s t := by
  obtain ⟨hnil, hengine⟩ | ⟨e, rest, hnext, hevent⟩ := step_cases h
  · exact .of_engineStep rfl rfl (.inl hnil) hengine
  have hhead : s.inputs.head? = some e := by rw [hnext]; rfl
  obtain ⟨x, _, rfl⟩ | ⟨x, d, rfl, rfl⟩ | ⟨rfl, hengine⟩ | ⟨rfl, rfl⟩ := hevent
  · obtain ⟨r, heq⟩ := busRead_cases (s.setInputs rest) (busOffset s.build x)
    rw [heq]
    exact .quiet rfl rfl
  · have hwrites : HostWrites s (busOffset s.build x) d := by
      rwa [HostWrites, ← (busOffset_eq_iff s.build x _).1 rfl]
    obtain ⟨t, ht, heq⟩ | ⟨_, heq⟩ := busWrite_cases (s.setInputs rest) (busOffset s.build x) d <;> rw [heq]
    · exact (StatusStep.of_memWrite hwrites ht).of_setResp _
    · exact .quiet rfl rfl
  · exact .of_engineStep (s' := s.setInputs rest) rfl rfl (.inr hhead) hengine
  · exact .resets hhead rfl

/-! ### What follows for each field of STATUS and for ERR_CMD -/

section
variable {s t : State}

theorem StatusStep.busy_rises (h : StatusStep s t) (ht : t.status.busy = true) (hs : s.status.busy = false) :
    ∃ d, s.status.busy = false ∧ validCommand d = true ∧ HostWrites s 0x00C d := by
  cases h with
  | accepts d writes idle valid => exact ⟨d, idle, valid, writes⟩
  | resets _ status => simp [status, Status.reset] at ht
  | _ => simp_all

theorem StatusStep.busy_falls (h : StatusStep s t) (ht : t.status.busy = false) (hs : s.status.busy = true) :
    EngineTurn s ∨ ResetNext s := by
  cases h with
  | completes turn => exact .inl turn
  | resets next => exact .inr next
  | _ => simp_all

theorem StatusStep.curOp_changes (h : StatusStep s t) (hne : t.status.curOp ≠ s.status.curOp) :
    ResetNext s ∨ ∃ d, (s.status.busy = false ∧ validCommand d = true ∧ HostWrites s 0x00C d) ∧
      t.status.curOp = d.extractLsb' 0 4 := by
  cases h with
  | resets next => exact .inl next
  | accepts d writes idle valid status => exact .inr ⟨d, ⟨idle, valid, writes⟩, by rw [status]; rfl⟩
  | _ => simp_all

theorem StatusStep.done_rises (h : StatusStep s t) (ht : t.status.done = true) (hs : s.status.done = false) :
    EngineTurn s := by
  cases h with
  | completes turn => exact turn
  | resets _ status => simp [status, Status.reset] at ht
  | _ => simp_all

theorem StatusStep.illegal_rises (h : StatusStep s t) (ht : t.status.illegal = true) (hs : s.status.illegal = false) :
    s.status.busy = false ∧ ∃ d, validCommand d = false ∧ HostWrites s 0x00C d ∧ t.errCmd = d := by
  cases h with
  | rejects d writes idle invalid _ errCmd => exact ⟨idle, d, invalid, writes, errCmd⟩
  | resets _ status => simp [status, Status.reset] at ht
  | _ => simp_all

theorem StatusStep.overrun_rises (h : StatusStep s t) (ht : t.status.overrun = true) (hs : s.status.overrun = false) :
    s.status.busy = true ∧ ∃ d, HostWrites s 0x00C d ∧ t.errCmd = d := by
  cases h with
  | overruns d writes busy _ errCmd => exact ⟨busy, d, writes, errCmd⟩
  | resets _ status => simp [status, Status.reset] at ht
  | _ => simp_all

theorem StatusStep.done_falls (h : StatusStep s t) (ht : t.status.done = false) (hs : s.status.done = true) :
    ResetNext s ∨ (∃ d, HostWrites s 0x010 d ∧ d.getLsbD 1 = true) ∨
      ∃ d, s.status.busy = false ∧ validCommand d = true ∧ HostWrites s 0x00C d := by
  cases h with
  | resets next => exact .inl next
  | clears d writes status => exact .inr (.inl ⟨d, writes, by simpa [status, hs] using ht⟩)
  | accepts d writes idle valid => exact .inr (.inr ⟨d, idle, valid, writes⟩)
  | _ => simp_all

theorem StatusStep.illegal_falls (h : StatusStep s t) (ht : t.status.illegal = false) (hs : s.status.illegal = true) :
    ResetNext s ∨ ∃ d, HostWrites s 0x010 d ∧ d.getLsbD 2 = true := by
  cases h with
  | resets next => exact .inl next
  | clears d writes status => exact .inr ⟨d, writes, by simpa [status, hs] using ht⟩
  | _ => simp_all

theorem StatusStep.overrun_falls (h : StatusStep s t) (ht : t.status.overrun = false) (hs : s.status.overrun = true) :
    ResetNext s ∨ ∃ d, HostWrites s 0x010 d ∧ d.getLsbD 3 = true := by
  cases h with
  | resets next => exact .inl next
  | clears d writes status => exact .inr ⟨d, writes, by simpa [status, hs] using ht⟩
  | _ => simp_all

theorem StatusStep.errCmd_changes (h : StatusStep s t) (hne : t.errCmd ≠ s.errCmd) :
    ResetNext s ∨ ∃ d, HostWrites s 0x00C d ∧ t.errCmd = d ∧ (s.status.busy = true ∨ validCommand d = false) := by
  cases h with
  | resets next => exact .inl next
  | overruns d writes busy _ errCmd => exact .inr ⟨d, writes, errCmd, .inl busy⟩
  | rejects d writes _ invalid _ errCmd => exact .inr ⟨d, writes, errCmd, .inr invalid⟩
  | _ => contradiction

end

/-- Settles O58, field by field from what a step can do to STATUS. -/
theorem statusChangesOnlyAtItsEvents : Obligations.StatusChangesOnlyAtItsEvents := by
  unfold Obligations.StatusChangesOnlyAtItsEvents
  intro s t hstep
  have h := statusStep_of_step hstep
  exact ⟨h.busy_rises, h.busy_falls, h.curOp_changes, h.done_rises, h.illegal_rises, h.overrun_rises,
    h.done_falls, h.illegal_falls, h.overrun_falls⟩

/-! ### FRAME_COUNT -/

/-- The opcodes of the commands that draw a frame (R111). -/
theorem opcode_of_drawing {op : BitVec 4} {i : Instr} (hop : decodeOpcode op = some i)
    (hi : i ∈ [Instr.decim, .magFrame, .specFrame]) : op ∈ ([0x6, 0x8, 0x9] : List (BitVec 4)) := by
  revert op i
  decide

/-- The Engine's turn changes FRAME_COUNT only at the completion of a command that draws a frame. -/
theorem engineStep_frameCount {s t : State} (hlegal : s.build.legal = true) (h : engineStep s = .next t) :
    t.frameCount = s.frameCount ∨
    s.status.busy = true ∧ s.status.curOp ∈ ([0x6, 0x8, 0x9] : List (BitVec 4)) ∧
      t.frameCount = BitVec.ofNat 32 (displayWidth s.build) := by
  obtain ⟨_, rfl⟩ | ⟨hbusy, i, hop, hexec⟩ := engineStep_cases h
  · exact .inl rfl
  · obtain hkept | ⟨hi, hcount⟩ := exec_frameCount hexec
    · exact .inl hkept
    · rw [pointCount_eq _ hlegal] at hcount
      exact .inr ⟨hbusy, opcode_of_drawing hop hi, hcount⟩

/-- All that a step can do to FRAME_COUNT (R45). -/
theorem step_frameCount {s t : State} (hlegal : s.build.legal = true) (h : step s = .next t) :
    t.frameCount = s.frameCount ∨ ResetNext s ∨
    s.status.busy = true ∧ (s.inputs = [] ∨ s.inputs.head? = some .engineTurn) ∧
      s.status.curOp ∈ ([0x6, 0x8, 0x9] : List (BitVec 4)) ∧
      t.frameCount = BitVec.ofNat 32 (displayWidth s.build) := by
  obtain ⟨hnil, hengine⟩ | ⟨e, rest, hnext, hevent⟩ := step_cases h
  · obtain hkept | ⟨hbusy, hop, hcount⟩ := engineStep_frameCount hlegal hengine
    · exact .inl hkept
    · exact .inr (.inr ⟨hbusy, .inl hnil, hop, hcount⟩)
  have hhead : s.inputs.head? = some e := by rw [hnext]; rfl
  obtain ⟨x, _, rfl⟩ | ⟨x, d, _, rfl⟩ | ⟨rfl, hengine⟩ | ⟨rfl, _⟩ := hevent
  · obtain ⟨r, heq⟩ := busRead_cases (s.setInputs rest) (busOffset s.build x)
    rw [heq]
    exact .inl rfl
  · exact .inl (busWrite_keepsBlockState (s.setInputs rest) _ d).frameCount
  · obtain hkept | ⟨hbusy, hop, hcount⟩ := engineStep_frameCount (s := s.setInputs rest) hlegal hengine
    · exact .inl hkept
    · exact .inr (.inr ⟨hbusy, .inr hhead, hop, hcount⟩)
  · exact .inr (.inl hhead)

/-- Settles O59, from what a step can do to FRAME_COUNT and to ERR_CMD. -/
theorem frameCountAndErrCmdChangeOnlyAtTheirEvents : Obligations.FrameCountAndErrCmdChangeOnlyAtTheirEvents := by
  unfold Obligations.FrameCountAndErrCmdChangeOnlyAtTheirEvents
  intro s t hlegal hstep
  exact ⟨(step_frameCount hlegal hstep).resolve_left, (statusStep_of_step hstep).errCmd_changes⟩

end Sys2Proof.Machine
end

section
/-!
PROOFS. The command words and their bytes: the fields of a word, which words are commands, and decoding from
bytes.
-/
namespace Sys2Proof

/-- The opcode map answers a command at its own opcode and nowhere else (R111). -/
theorem decodeOpcode_eq_some_iff (op : BitVec 4) (i : Instr) : decodeOpcode op = some i ↔ op = i.opcode := by
  cases i <;> revert op <;> decide

/-- A word is its two fields (R110). -/
theorem rsvField_append_opField (d : Word) : rsvField d ++ opField d = d :=
  (BitVec.extractLsb'_append_extractLsb'_eq_extractLsb' rfl).trans BitVec.extractLsb'_eq_self

@[simp] theorem rsvField_encodeWord (i : Instr) : rsvField (encodeWord i) = 0#28 :=
  BitVec.extractLsb'_append_eq_left

@[simp] theorem opField_encodeWord (i : Instr) : opField (encodeWord i) = i.opcode :=
  BitVec.extractLsb'_append_eq_right

/-- A word is read as the command whose word it is (R111, R112). -/
theorem decodeWord_eq_ok_iff (d : Word) (i : Instr) : decodeWord d = .ok i ↔ d = encodeWord i := by
  constructor
  · intro h
    unfold decodeWord at h
    split at h <;> [split at h; skip] <;> cases h
    next hrsv _ hop =>
      rw [← rsvField_append_opField d, hrsv, (decodeOpcode_eq_some_iff _ _).1 hop]
      rfl
  · rintro rfl
    simp [decodeWord, (decodeOpcode_eq_some_iff i.opcode i).2 rfl]

/-- The four bytes of the word that four bytes make are those bytes (R80). -/
theorem wordBytes_wordOfBytes (b0 b1 b2 b3 : Byte) : wordBytes (wordOfBytes b0 b1 b2 b3) = [b0, b1, b2, b3] := by
  have low {m : Nat} (x : BitVec m) (y : Byte) : (x ++ y).extractLsb' 0 8 = y := BitVec.extractLsb'_append_eq_right
  have high {m k : Nat} (x : BitVec m) (y : Byte) (h : 8 ≤ k) :
      (x ++ y).extractLsb' k 8 = x.extractLsb' (k - 8) 8 := BitVec.extractLsb'_append_eq_of_le h
  have h0 : (wordOfBytes b0 b1 b2 b3).extractLsb' 0 8 = b0 := low _ _
  have h1 : (wordOfBytes b0 b1 b2 b3).extractLsb' 8 8 = b1 := (high _ _ (by decide)).trans (low _ _)
  have h2 : (wordOfBytes b0 b1 b2 b3).extractLsb' 16 8 = b2 :=
    (high _ _ (by decide)).trans ((high _ _ (by decide)).trans (low _ _))
  have h3 : (wordOfBytes b0 b1 b2 b3).extractLsb' 24 8 = b3 :=
    (high _ _ (by decide)).trans ((high _ _ (by decide)).trans BitVec.extractLsb'_append_eq_left)
  rw [wordBytes, h0, h1, h2, h3]

theorem encodeBytes_eq (i : Instr) : encodeBytes i = wordBytes (encodeWord i) := by
  simp [encodeBytes, encode]

/-- Decoding from bytes reads the first four as one word, lowest first (R80, R110). -/
theorem decode_eq_ok_iff (bytes rest : List Byte) (i : Instr) :
    decode bytes = .ok (i, rest) ↔ ∃ d, bytes = wordBytes d ++ rest ∧ decodeWord d = .ok i := by
  constructor
  · intro h
    unfold decode at h
    split at h <;> [split at h; skip] <;> cases h
    next hword => exact ⟨_, by rw [wordBytes_wordOfBytes]; rfl, hword⟩
  · rintro ⟨d, rfl, hword⟩
    simp [wordBytes, decode, Machine.wordOfBytes_extract, hword]

/-- Settles O2: the first four bytes are the word of the command. -/
theorem decodeAndEncodeAgreeOnBytes : Obligations.DecodeAndEncodeAgreeOnBytes := by
  unfold Obligations.DecodeAndEncodeAgreeOnBytes
  intro bytes rest i _
  simp only [decode_eq_ok_iff, decodeWord_eq_ok_iff, encodeBytes_eq, exists_eq_right]

end Sys2Proof
end

section
/-!
PROOFS. Host transactions that change nothing, and the write of one word of RAM.
-/
namespace Sys2Proof.Machine

/-- Settles O15: an OKAY write records OKAY, so a recorded ERROR is that of a refused write. -/
theorem readsAndRefusedWritesChangeNothing : Obligations.ReadsAndRefusedWritesChangeNothing := by
  unfold Obligations.ReadsAndRefusedWritesChangeNothing
  intro s a d
  refine ⟨busRead_cases s a, fun herror => ?_⟩
  obtain ⟨t, _, heq⟩ | ⟨_, heq⟩ := busWrite_cases s a d
  · simp [heq] at herror
  · exact heq

/-- An offset of a RAM byte lies in one of the four RAMs (R49, R89). -/
theorem exists_ram_of_ramAddress {b : Build} {a : Nat} (h : ramAddress b a) :
    ∃ r : Region, r.isRam = true ∧ inRange r.base (regionBytes b r) a := by
  obtain h | h | h | h := h
  · exact ⟨.inRam, rfl, h⟩
  · exact ⟨.resRam, rfl, h⟩
  · exact ⟨.frameRam, rfl, h⟩
  · exact ⟨.workRam, rfl, h⟩

/-- Every region starts at a multiple of 4 (R89). -/
theorem Region.base_aligned (r : Region) : r.base % 4 = 0 := by
  cases r <;> rfl

/-- An idle write of a RAM word stores its four bytes (R86). -/
theorem memWrite_ram {s : State} {r : Region} {off : Nat} (d : Word) (hlegal : s.build.legal = true)
    (hidle : s.status.busy = false) (hr : r.isRam = true) (haligned : off % 4 = 0)
    (hinside : off < regionBytes s.build r) :
    memWrite s (BitVec.ofNat 32 (r.base + off)) d = some (s.store (r.base + off) (wordBytes d)) := by
  have hregs : r ≠ .regs := by rintro rfl; cases hr
  have hoff : off < 0x00100000 := hinside.trans_le (regionBytes_le hlegal r)
  have hsum : (r.base + off) % 4 = 0 := by rw [Nat.add_mod, r.base_aligned, haligned]
  simp [memWrite, toNat_base_add hoff, hsum, regionOf_base_add hregs hoff, regionOffset_base_add hoff,
    not_le.2 hinside, hr, hidle]

/-- The four bytes of a stored word (R80). -/
theorem ramByte_store_wordBytes (s : State) (a : Nat) (d : Word) :
    ramByte (s.store a (wordBytes d)) a = d.extractLsb' 0 8 ∧
    ramByte (s.store a (wordBytes d)) (a + 1) = d.extractLsb' 8 8 ∧
    ramByte (s.store a (wordBytes d)) (a + 2) = d.extractLsb' 16 8 ∧
    ramByte (s.store a (wordBytes d)) (a + 3) = d.extractLsb' 24 8 := by
  have h (i : Nat) (hi : i < 4) : ramByte (s.store a (wordBytes d)) (a + i) = (wordBytes d)[i] :=
    ramByte_store_inside s a (wordBytes d) i hi
  exact ⟨h 0 (by decide), h 1 (by decide), h 2 (by decide), h 3 (by decide)⟩

/-- A store leaves every byte outside its run. -/
theorem store_sameBytesOutside (s : State) (a : Nat) (bs : List Byte) :
    SameBytesOutside s (s.store a bs) a bs.length := by
  intro x hx
  refine ramByte_store_outside s a bs x ?_
  unfold inRange at hx
  omega

/-- A store touches RAM alone. -/
theorem store_sameSettings (s : State) (a : Nat) (bs : List Byte) : SameSettings s (s.store a bs) :=
  ⟨rfl, rfl, rfl, rfl, rfl, rfl, rfl, rfl, rfl, rfl⟩

/-- Settles O16: the write is the store of the word's four bytes at its offset. -/
theorem ramWriteChangesExactlyItsFourBytes : Obligations.RamWriteChangesExactlyItsFourBytes := by
  unfold Obligations.RamWriteChangesExactlyItsFourBytes
  intro s a d hlegal hidle haligned hin
  obtain ⟨r, hr, hge, hlt⟩ := exists_ram_of_ramAddress hin
  obtain ⟨off, ha⟩ := Nat.exists_eq_add_of_le hge
  have hinside : off < regionBytes s.build r := by omega
  have hoff : off % 4 = 0 := by have := r.base_aligned; omega
  have hword : a = BitVec.ofNat 32 (r.base + off) := by rw [← ha, BitVec.ofNat_toNat, BitVec.setWidth_eq]
  have hread : memRead (s.store a.toNat (wordBytes d)) a = some d := by
    rw [hword, memRead_ram (s := s.store _ _) hlegal hidle hr hoff hinside, ← hword, ha, ramWord_store_word]
  obtain ⟨h0, h1, h2, h3⟩ := ramByte_store_wordBytes s a.toNat d
  refine ⟨s.store a.toNat (wordBytes d), ?_, hread, h0, h1, h2, h3, store_sameBytesOutside s _ _,
    store_sameSettings s _ _, rfl, rfl, rfl⟩
  rw [ha, hword, memWrite_ram d hlegal hidle hr hoff hinside]

end Sys2Proof.Machine
end

section
/-!
PROOFS. One stage of the transform: each butterfly works on two places of its own, so a stage leaves in them
the butterfly of what stood there before it.
-/
namespace Sys2Proof.Machine

/-! ### Loops whose steps work on places of their own -/

section
variable {α β γ : Type} {f : List α → β → List α} {obs : List α → γ}

/-- What no step of a loop changes, the loop does not change. -/
theorem foldl_observe_of_forall {xs : List β} (h : ∀ x ∈ xs, ∀ l, obs (f l x) = obs l) (l : List α) :
    obs (xs.foldl f l) = obs l := by
  induction xs generalizing l with
  | nil => rfl
  | cons x xs ih =>
    rw [List.foldl_cons, ih fun y hy => h y (List.mem_cons_of_mem x hy)]
    exact h x List.mem_cons_self l

/-- What one step of a loop alone changes is, after the loop, what that step makes of what stood there before
the loop. -/
theorem foldl_observe_of_mem {xs : List β} {x : β} {l : List α} {out : γ} (hnodup : xs.Nodup) (hx : x ∈ xs)
    (hlength : ∀ k y, (f k y).length = k.length) (hother : ∀ y ∈ xs, y ≠ x → ∀ k, obs (f k y) = obs k)
    (hown : ∀ k : List α, k.length = l.length → obs k = obs l → obs (f k x) = out) :
    obs (xs.foldl f l) = out := by
  obtain ⟨before, after, rfl⟩ := List.append_of_mem hx
  have hnotMem : x ∉ before ++ after := (List.nodup_middle.1 hnodup).notMem
  have hframe {ys : List β} (hys : ys ⊆ before ++ after) (k : List α) : obs (ys.foldl f k) = obs k :=
    foldl_observe_of_forall (fun y hy => hother y (List.perm_middle.mem_iff.2 (List.mem_cons_of_mem x (hys hy)))
      fun heq => hnotMem (heq ▸ hys hy)) k
  rw [List.foldl_append, List.foldl_cons, hframe (List.subset_append_right before after)]
  exact hown _ (length_foldl_of_step f hlength before l) (hframe (List.subset_append_left before after) l)

end

/-- The places of two groups of one stage lie apart. -/
theorem group_places_apart {g k : Nat} (m : Nat) (h : k ≠ g) : g * m + m ≤ k * m ∨ k * m + m ≤ g * m := by
  rw [← Nat.succ_mul, ← Nat.succ_mul]
  exact (Nat.lt_or_gt_of_ne h).symm.imp (Nat.mul_le_mul_right m) (Nat.mul_le_mul_right m)

/-! ### The two places of a butterfly -/

section
variable {α : Type} (A : Arith α)

/-- What stands in the two places of the butterfly at `i`, `h` apart. -/
def pairAt (i h : Nat) (l : List (α × α)) : (α × α) × (α × α) :=
  (l.getD i (A.zero, A.zero), l.getD (i + h) (A.zero, A.zero))

variable {u v : α × α}

/-- A butterfly leaves in its two places its two outputs (R165). -/
theorem pairAt_butterflyAt_self (site : Nat) (w : α × α) {i h : Nat} {l : List (α × α)} (hh : 0 < h)
    (hlt : i + h < l.length) (huv : pairAt A i h l = (u, v)) :
    pairAt A i h (butterflyAt A site w i h l) = butterfly A site w u v := by
  obtain ⟨rfl, rfl⟩ := Prod.mk.inj huv
  have hi : i < l.length := by omega
  have hne : i + h ≠ i := by omega
  simp [pairAt, butterflyAt, hi, hlt, List.getElem_set_ne hne]

/-- A butterfly leaves every other place. -/
theorem getD_butterflyAt_of_ne (site : Nat) (w z : α × α) {i h p : Nat} (l : List (α × α)) (hi : p ≠ i)
    (hih : p ≠ i + h) : (butterflyAt A site w i h l).getD p z = l.getD p z := by
  simp [butterflyAt, List.getD_eq_getElem?_getD, hi.symm, hih.symm]

/-! ### Groups and stages -/

variable (bits : Nat) (tw : Nat → α × α)

/-- A group leaves every place outside its `2^s` places. -/
theorem getD_fftGroup_outside (s base : Nat) (z : α × α) {p : Nat} (l : List (α × α))
    (hp : p < base ∨ base + 2 ^ s ≤ p) : (fftGroup A bits tw s base l).getD p z = l.getD p z := by
  refine foldl_observe_of_forall (obs := fun l => l.getD p z) (fun j hj l => ?_) l
  rw [List.mem_range] at hj
  exact getD_butterflyAt_of_ne A _ _ z l (by omega) (by omega)

/-- A group leaves in the two places of its butterfly `j` the outputs of that butterfly on what stood there:
the butterflies of a group share no place (R165). -/
theorem pairAt_fftGroup {s base j : Nat} {l : List (α × α)} (hj : j < 2 ^ s / 2) (hlt : base + 2 ^ s ≤ l.length)
    (huv : pairAt A (base + j) (2 ^ s / 2) l = (u, v)) :
    pairAt A (base + j) (2 ^ s / 2) (fftGroup A bits tw s base l) =
      butterfly A (siteOf s (base + j)) (tw (j * (2 ^ bits / 2 ^ s))) u v := by
  refine foldl_observe_of_mem (obs := pairAt A (base + j) (2 ^ s / 2)) List.nodup_range (List.mem_range.2 hj)
    (fun _ _ => length_butterflyAt A _ _ _ _ _) ?other ?own
  case other =>
    intro k hk hne l
    rw [List.mem_range] at hk
    rw [pairAt, getD_butterflyAt_of_ne A _ _ _ l (by omega) (by omega),
      getD_butterflyAt_of_ne A _ _ _ l (by omega) (by omega), pairAt]
  case own =>
    intro k hlength hpair
    exact pairAt_butterflyAt_self A _ _ (by omega) (by omega) (hpair.trans huv)

/-- A stage leaves in the two places of each butterfly its outputs on what stood there before the stage: the
groups share no place (R165). -/
theorem pairAt_fftStage {s g j : Nat} {l : List (α × α)} (hg : g < 2 ^ bits / 2 ^ s) (hj : j < 2 ^ s / 2)
    (hlength : l.length = 2 ^ bits) (huv : pairAt A (g * 2 ^ s + j) (2 ^ s / 2) l = (u, v)) :
    pairAt A (g * 2 ^ s + j) (2 ^ s / 2) (fftStage A bits tw l s) =
      butterfly A (siteOf s (g * 2 ^ s + j)) (tw (j * (2 ^ bits / 2 ^ s))) u v := by
  have hinside : g * 2 ^ s + 2 ^ s ≤ l.length := by
    calc g * 2 ^ s + 2 ^ s = (g + 1) * 2 ^ s := (Nat.succ_mul g _).symm
      _ ≤ 2 ^ bits / 2 ^ s * 2 ^ s := Nat.mul_le_mul_right _ hg
      _ ≤ 2 ^ bits := Nat.div_mul_le_self _ _
      _ = l.length := hlength.symm
  refine foldl_observe_of_mem (obs := pairAt A (g * 2 ^ s + j) (2 ^ s / 2)) List.nodup_range (List.mem_range.2 hg)
    (fun _ _ => length_fftGroup A bits tw _ _ _) ?other ?own
  case other =>
    intro k _ hne l
    have hapart := group_places_apart (2 ^ s) hne
    rw [pairAt, getD_fftGroup_outside A bits tw s _ _ l (by omega),
      getD_fftGroup_outside A bits tw s _ _ l (by omega), pairAt]
  case own =>
    intro k hk hpair
    exact pairAt_fftGroup A bits tw hj (hinside.trans_eq hk.symm) (hpair.trans huv)

end

/-- Settles O34: what a stage leaves in the two places of a butterfly, the butterfly written out. -/
theorem stageAppliesEachButterflyOnce : Obligations.StageAppliesEachButterflyOnce := by
  unfold Obligations.StageAppliesEachButterflyOnce
  intro α A bits s tw l hlength hs hbits g j hg hj
  rw [← Nat.pow_div hbits Nat.two_pos] at hg ⊢
  rw [← Nat.pow_div hs Nat.two_pos, Nat.pow_one] at hj ⊢
  exact Prod.mk.inj (pairAt_fftStage A bits tw hg hj hlength rfl)

end Sys2Proof.Machine
end

section
/-!
PROOFS. Which words are commands: a valid word is one that some command encodes to, and these are told by their
two fields.
-/
namespace Sys2Proof

/-- A word is valid when it is read as some command (R112). -/
theorem validCommand_iff_exists_decodeWord (d : Word) : validCommand d = true ↔ ∃ i, decodeWord d = .ok i := by
  unfold validCommand
  cases decodeWord d <;> simp

/-- The word of a command is the one with RSV = 0 and its opcode in OP (R110, R111). -/
theorem eq_encodeWord_iff (d : Word) (i : Instr) : d = encodeWord i ↔ rsvField d = 0#28 ∧ opField d = i.opcode := by
  constructor
  · rintro rfl
    exact ⟨rsvField_encodeWord i, opField_encodeWord i⟩
  · rintro ⟨hrsv, hop⟩
    rw [← rsvField_append_opField d, hrsv, hop]
    rfl

/-- The opcodes of the commands are the nine of R112. -/
theorem exists_eq_opcode_iff_mem (op : BitVec 4) :
    (∃ i : Instr, op = i.opcode) ↔ op ∈ ([0x0, 0x1, 0x2, 0x3, 0x4, 0x5, 0x6, 0x8, 0x9] : List (BitVec 4)) := by
  constructor
  · rintro ⟨i, rfl⟩
    cases i <;> decide
  · intro h
    have hsome : ∀ o ∈ ([0x0, 0x1, 0x2, 0x3, 0x4, 0x5, 0x6, 0x8, 0x9] : List (BitVec 4)),
        (decodeOpcode o).isSome = true := by decide
    obtain ⟨i, hi⟩ := Option.isSome_iff_exists.1 (hsome op h)
    exact ⟨i, (decodeOpcode_eq_some_iff op i).1 hi⟩

/-- Settles O1: the valid words are the words of the commands, and these have RSV = 0 and one of the nine
opcodes in OP. -/
theorem validWordsAreTheNineCommandWords : Obligations.ValidWordsAreTheNineCommandWords := by
  unfold Obligations.ValidWordsAreTheNineCommandWords
  intro d
  refine ⟨?valid, decodeWord_eq_ok_iff d⟩
  calc validCommand d = true
      ↔ ∃ i, d = encodeWord i := by simp only [validCommand_iff_exists_decodeWord, decodeWord_eq_ok_iff]
    _ ↔ rsvField d = 0#28 ∧ ∃ i : Instr, opField d = i.opcode := by simp only [eq_encodeWord_iff, exists_and_left]
    _ ↔ _ := and_congr_right' (exists_eq_opcode_iff_mem (opField d))

/-- Settles O3: the decoder run on the words of the opcode map, and on words of R114. -/
theorem opcodeMapWordsDecode : Obligations.OpcodeMapWordsDecode := by
  unfold Obligations.OpcodeMapWordsDecode
  constructor
  case left => decide
  case right => decide

end Sys2Proof
end

section
/-!
PROOFS. What all commands share: the word that issues a command, and the STATUS its completion leaves.
-/
namespace Sys2Proof.Machine

theorem validCommand_encodeWord (i : Instr) : validCommand (encodeWord i) = true :=
  (validCommand_iff_exists_decodeWord _).2 ⟨i, (decodeWord_eq_ok_iff _ i).2 rfl⟩

/-- The word of a command issues it, with its opcode in CUR_OP (R111, R240, R242). -/
theorem issuedBy_encodeWord (i : Instr) : IssuedBy i (encodeWord i) i.opcode := by
  refine ⟨(decodeOpcode_eq_some_iff i.opcode i).2 rfl, fun s => ⟨fun hidle => ?accepted, fun hbusy => ?overrun⟩⟩
  case accepted =>
    rw [memWrite_CTRL]
    simp [issueCommand, hidle, validCommand_encodeWord, acceptStatus]
  case overrun =>
    rw [memWrite_CTRL]
    simp [issueCommand, hbusy, rejectCommand]

/-- Every command shows its completion in STATUS (R220). -/
theorem exec_completed {i : Instr} {s t : State} (h : exec i s = .next t) : Completed s t := by
  rw [Completed, exec_status h]
  exact ⟨rfl, rfl, rfl, rfl, rfl⟩

@[simp] theorem ramByte_completeCommand (s : State) (x : Nat) : ramByte (completeCommand s) x = ramByte s x := rfl

@[simp] theorem resEntry_completeCommand (s : State) (i : Nat) : resEntry (completeCommand s) i = resEntry s i := rfl

/-- The supplied pairs are counted by halving IN_COUNT (R130). -/
theorem pairCount_eq_suppliedPairs (s : State) : pairCount s = suppliedPairs s := by
  rw [pairCount, suppliedPairs, Nat.shiftRight_one, transformLength]

end Sys2Proof.Machine
end

section
/-!
PROOFS. The magnitude approximation: its laws on integers, its distance from the true magnitude, and the
command that applies it to every sample pair.
-/
namespace Sys2Proof.Machine

/-! ### The laws of the approximation -/

/-- The closed form (R136). -/
theorem magnitude_eq_max_add_half_min (i q : Int) :
    magnitude i q = max i.natAbs q.natAbs + min i.natAbs q.natAbs / 2 := by
  simp only [magnitude, Nat.shiftRight_one]
  split
  case isTrue h => rw [max_eq_left h.le, min_eq_right h.le]
  case isFalse h => rw [max_eq_right (not_lt.1 h), min_eq_left (not_lt.1 h)]

theorem magnitude_congr {i i' q q' : Int} (hi : i.natAbs = i'.natAbs) (hq : q.natAbs = q'.natAbs) :
    magnitude i q = magnitude i' q' := by
  rw [magnitude, hi, hq, magnitude]

theorem magnitude_comm (i q : Int) : magnitude i q = magnitude q i := by
  rw [magnitude_eq_max_add_half_min, magnitude_eq_max_add_half_min, max_comm, min_comm]

/-- Larger absolute values give a magnitude that is no smaller (R137). -/
theorem magnitude_le_magnitude {i i' q q' : Int} (hi : i.natAbs ≤ i'.natAbs) (hq : q.natAbs ≤ q'.natAbs) :
    magnitude i q ≤ magnitude i' q' := by
  rw [magnitude_eq_max_add_half_min, magnitude_eq_max_add_half_min]
  exact Nat.add_le_add (max_le_max hi hq) (Nat.div_le_div_right (min_le_min hi hq))

/-- The largest magnitude of samples is that of two samples at the end of the range (R132, R134). -/
theorem magnitude_le_of_samples {i q : Int} (hi : i.natAbs ≤ 128) (hq : q.natAbs ≤ 128) : magnitude i q ≤ 192 :=
  magnitude_le_magnitude (i' := -128) (q' := -128) hi hq

/-- Settles O21, from the closed form. -/
theorem magnitudeClosedFormAndMonotone : Obligations.MagnitudeClosedFormAndMonotone := by
  unfold Obligations.MagnitudeClosedFormAndMonotone
  refine ⟨fun i i' q q' hi hq => magnitude_le_magnitude hi hq, fun i q => ?_⟩
  refine ⟨magnitude_eq_max_add_half_min i q, magnitude_comm i q, magnitude_congr (Int.natAbs_neg i) rfl,
    magnitude_congr rfl (Int.natAbs_neg q), fun hi hi' hq hq' => ?_⟩
  exact magnitude_le_of_samples (by omega) (by omega)

/-! ### The true magnitude -/

/-- The squared true magnitude, by the larger and the smaller absolute value. -/
theorem sq_add_sq_eq_max_min (i q : Int) :
    (i : ℝ) ^ 2 + (q : ℝ) ^ 2 = ((max i.natAbs q.natAbs : Nat) : ℝ) ^ 2 + ((min i.natAbs q.natAbs : Nat) : ℝ) ^ 2 := by
  have hi : (i : ℝ) ^ 2 = (i.natAbs : ℝ) ^ 2 := by rw [Nat.cast_natAbs, Int.cast_abs, sq_abs]
  have hq : (q : ℝ) ^ 2 = (q.natAbs : ℝ) ^ 2 := by rw [Nat.cast_natAbs, Int.cast_abs, sq_abs]
  rw [hi, hq]
  rcases le_total i.natAbs q.natAbs with h | h
  · rw [max_eq_right h, min_eq_left h, add_comm]
  · rw [max_eq_left h, min_eq_right h]

section
variable {M m : ℝ}

/-- `(M + m/2)² - (M² + m²) = m (M - 3m/4)` (R138). -/
theorem sqrt_le_add_half (hm : 0 ≤ m) (hmM : m ≤ M) : Real.sqrt (M ^ 2 + m ^ 2) ≤ M + m / 2 := by
  rw [Real.sqrt_le_iff]
  refine ⟨by linarith, ?_⟩
  have hgap : 0 ≤ m * (M - 3 * m / 4) := mul_nonneg hm (by linarith)
  linarith

/-- `(5/4) (M² + m²) - (M + m/2)² = (M/2 - m)²`: the ratio is largest at `m = M/2` (R138). -/
theorem add_half_le_sqrt : M + m / 2 ≤ Real.sqrt 5 / 2 * Real.sqrt (M ^ 2 + m ^ 2) := by
  have hscaled : Real.sqrt 5 / 2 * Real.sqrt (M ^ 2 + m ^ 2) = Real.sqrt (5 * (M ^ 2 + m ^ 2)) / 2 := by
    rw [Real.sqrt_mul (by norm_num)]
    ring
  have hroot : 2 * M + m ≤ Real.sqrt (5 * (M ^ 2 + m ^ 2)) := by
    apply Real.le_sqrt_of_sq_le
    linarith [sq_nonneg (M - 2 * m)]
  linarith

end

/-- The floor loses at most one half (R138). -/
theorem magnitude_floor_bounds (i q : Int) :
    (magnitude i q : ℝ) ≤ ((max i.natAbs q.natAbs : Nat) : ℝ) + ((min i.natAbs q.natAbs : Nat) : ℝ) / 2 ∧
    ((max i.natAbs q.natAbs : Nat) : ℝ) + ((min i.natAbs q.natAbs : Nat) : ℝ) / 2 - 1 / 2 ≤ magnitude i q := by
  rw [magnitude_eq_max_add_half_min]
  generalize max i.natAbs q.natAbs = M, min i.natAbs q.natAbs = m
  have hle : ((2 * (m / 2) : Nat) : ℝ) ≤ m := Nat.cast_le.2 (by omega)
  have hge : (m : ℝ) ≤ (2 * (m / 2) + 1 : Nat) := Nat.cast_le.2 (by omega)
  push_cast at hle hge ⊢
  constructor <;> linarith

/-- Settles O22: the unfloored value lies between the true magnitude and `√5/2` of it. -/
theorem magnitudeErrorBounds : Obligations.MagnitudeErrorBounds := by
  unfold Obligations.MagnitudeErrorBounds
  have hone : magnitude 1 1 = 1 := rfl
  refine ⟨hone, ?belowSqrtTwo, fun i q => ?bounds⟩
  case belowSqrtTwo =>
    rw [hone, Nat.cast_one]
    exact Real.one_lt_sqrt_two
  case bounds =>
    rw [sq_add_sq_eq_max_min]
    obtain ⟨hfloor_le, hfloor_ge⟩ := magnitude_floor_bounds i q
    have htrue := sqrt_le_add_half (Nat.cast_nonneg (α := ℝ) (min i.natAbs q.natAbs))
      (Nat.cast_le.2 (min_le_max (a := i.natAbs) (b := q.natAbs)))
    refine ⟨?_, by linarith, hfloor_le.trans add_half_le_sqrt, htrue⟩
    rw [magnitude_eq_max_add_half_min]
    exact Nat.le_add_right _ _

/-! ### The command -/

theorem natAbs_toInt_byte_le (b : Byte) : b.toInt.natAbs ≤ 128 := by
  have hlow := BitVec.le_toInt b
  have hhigh := BitVec.toInt_lt (x := b)
  omega

/-- A RES entry holds a magnitude unchanged (R134). -/
theorem toInt_magEntry {s : State} {i : Nat} (h : i < pairCount s) :
    (magEntry s i).toInt = magnitude (sampleI s i) (sampleQ s i) := by
  have hle : magnitude (sampleI s i) (sampleQ s i) ≤ 192 :=
    magnitude_le_of_samples (natAbs_toInt_byte_le _) (natAbs_toInt_byte_le _)
  rw [magEntry, if_pos h, BitVec.toInt_eq_toNat_of_lt] <;> rw [BitVec.toNat_ofNat] <;> omega

theorem magEntry_past_pairs {s : State} {i : Nat} (h : pairCount s ≤ i) : magEntry s i = 0 := by
  rw [magEntry, if_neg (not_lt.2 h)]

/-- MAG leaves every byte outside RES_RAM. -/
theorem runMag_sameBytesOutside (s : State) : SameBytesOutside s (runMag s) resBase (2 * transformLength s.build) := by
  intro x hx
  refine ramByte_runMag_outside s x ?_
  unfold inRange at hx
  omega

/-- Settles O23, entry by entry from the magnitude of a pair. -/
theorem magWritesEveryResult : Obligations.MagWritesEveryResult := by
  unfold Obligations.MagWritesEveryResult
  refine ⟨issuedBy_encodeWord .mag, fun s => ?_⟩
  have hexec : exec .mag s = .next (completeCommand (runMag s)) := rfl
  refine ⟨_, hexec, exec_completed hexec, (exec_keepsHostInputs hexec).settings, rfl, rfl,
    runMag_sameBytesOutside s, fun i hi => ?entries⟩
  case entries =>
    rw [resEntry_completeCommand, resEntry_runMag s i hi, ← pairCount_eq_suppliedPairs]
    refine ⟨fun hsupplied => ?_, magEntry_past_pairs⟩
    rw [toInt_magEntry hsupplied, magnitude_eq_max_add_half_min]
    rfl

end Sys2Proof.Machine
end

section
/-!
PROOFS. SHIFT: it moves each RES entry to its image under the permutation, and twice it restores every byte.
-/
namespace Sys2Proof.Machine

theorem sameBytesOutside_of_forall {s t : State} {a n : Nat}
    (h : ∀ x, x < a ∨ a + n ≤ x → ramByte t x = ramByte s x) : SameBytesOutside s t a n := by
  intro x hx
  refine h x ?_
  unfold inRange at hx
  omega

/-- An entry that reads as before is two bytes that do (R51). -/
theorem ramByte_congr_of_resEntry {s t : State} {i : Nat} (h : resEntry t i = resEntry s i) :
    ramByte t (resBase + 2 * i) = ramByte s (resBase + 2 * i) ∧
    ramByte t (resBase + 2 * i + 1) = ramByte s (resBase + 2 * i + 1) := by
  constructor
  · simpa only [resEntry, BitVec.extractLsb'_append_eq_right] using congrArg (BitVec.extractLsb' 0 8) h
  · simpa only [resEntry, BitVec.extractLsb'_append_eq_left] using congrArg (BitVec.extractLsb' 8 8) h

/-- RES_RAM read entry by entry is RES_RAM read byte by byte. -/
theorem ramByte_congr_of_resEntries {s t : State} {n x : Nat} (h : ∀ i, i < n → resEntry t i = resEntry s i)
    (hx : inRange resBase (2 * n) x) : ramByte t x = ramByte s x := by
  obtain ⟨hge, hlt⟩ := hx
  obtain ⟨hlow, hhigh⟩ := ramByte_congr_of_resEntry (h ((x - resBase) / 2) (by omega))
  obtain h2 | h2 : x = resBase + 2 * ((x - resBase) / 2) ∨ x = resBase + 2 * ((x - resBase) / 2) + 1 := by omega
  · rw [← h2] at hlow; exact hlow
  · rw [← h2] at hhigh; exact hhigh

theorem runShift_sameBytesOutside (s : State) :
    SameBytesOutside s (runShift s) resBase (2 * transformLength s.build) :=
  sameBytesOutside_of_forall (ramByte_runShift_outside s)

/-- Settles O44: the place SHIFT fills from `perm (perm i)` is `perm i`. -/
theorem shiftSwapsTheHalves : Obligations.ShiftSwapsTheHalves := by
  unfold Obligations.ShiftSwapsTheHalves
  refine ⟨issuedBy_encodeWord .shift, fun s hlegal => ?_⟩
  have hexec : exec .shift s = .next (completeCommand (runShift s)) := rfl
  refine ⟨_, hexec, exec_completed hexec, (exec_keepsHostInputs hexec).settings, rfl, rfl,
    runShift_sameBytesOutside s, fun i hi => ?_⟩
  obtain ⟨hlt, hinv⟩ := perm_perm s.build hlegal i hi
  change resEntry (runShift s) (perm s.build i) = resEntry s i
  rw [resEntry_runShift s hlegal _ hlt, hinv]

/-- Settles O45: outside RES neither SHIFT writes, in RES the permutation is its own inverse. -/
theorem shiftTwiceRestoresRam : Obligations.ShiftTwiceRestoresRam := by
  unfold Obligations.ShiftTwiceRestoresRam
  intro s hlegal
  refine ⟨_, _, rfl, rfl, fun x => ?_⟩
  change ramByte (runShift (completeCommand (runShift s))) x = ramByte s x
  by_cases hx : inRange resBase (2 * transformLength s.build) x
  · refine ramByte_congr_of_resEntries (fun i hi => ?_) hx
    obtain ⟨hlt, hinv⟩ := perm_perm s.build hlegal i hi
    rw [resEntry_runShift (completeCommand (runShift s)) hlegal i hi, resEntry_completeCommand]
    exact (resEntry_runShift s hlegal _ hlt).trans (by rw [hinv])
  · exact (runShift_sameBytesOutside (completeCommand (runShift s)) x hx).trans (runShift_sameBytesOutside s x hx)

end Sys2Proof.Machine
end

section
/-!
PROOFS. The transform: bit reversal and the swap loop that applies it, and the command that runs the transform
on WORK.
-/
namespace Sys2Proof.Machine

/-! ### Bit reversal -/

theorem bitrev_lt (bits i : Nat) : bitrev bits i < 2 ^ bits := by
  induction bits generalizing i with
  | zero => exact Nat.one_pos
  | succ n ih =>
    have hrest := ih (i / 2)
    have hbit : i % 2 * 2 ^ n ≤ 1 * 2 ^ n := Nat.mul_le_mul_right _ (by omega)
    rw [bitrev, pow_succ]
    omega

/-- Bit `b` of the reversal is bit `bits - 1 - b` (R166). -/
theorem testBit_bitrev {bits b : Nat} (i : Nat) (hb : b < bits) :
    (bitrev bits i).testBit b = i.testBit (bits - 1 - b) := by
  induction bits generalizing i with
  | zero => omega
  | succ n ih =>
    rw [bitrev, Nat.mul_comm, Nat.testBit_two_pow_mul_add _ (bitrev_lt n _)]
    split
    case isTrue hlow =>
      rw [ih _ hlow, Nat.testBit_div_two]
      congr 1
      omega
    case isFalse hhigh =>
      obtain rfl : b = n := by omega
      simp

theorem bitrev_bitrev {bits i : Nat} (hi : i < 2 ^ bits) : bitrev bits (bitrev bits i) = i := by
  apply Nat.eq_of_testBit_eq
  intro b
  rcases lt_or_ge b bits with hb | hb
  · rw [testBit_bitrev _ hb, testBit_bitrev _ (by omega)]
    congr 1
    omega
  · have hpow : 2 ^ bits ≤ 2 ^ b := Nat.pow_le_pow_right Nat.two_pos hb
    rw [Nat.testBit_lt_two_pow (hi.trans_le hpow), Nat.testBit_lt_two_pow ((bitrev_lt bits _).trans_le hpow)]

/-! ### The swap loop -/

section
variable {α : Type} (d : α)

theorem getD_swapAt {l : List α} {p q : Nat} (hpq : p ≠ q) (hp : p < l.length) (hq : q < l.length) :
    (swapAt d l p q).getD p d = l.getD q d ∧ (swapAt d l p q).getD q d = l.getD p d := by
  simp [swapAt, hp, hq, List.getElem_set_ne hpq.symm]

theorem getD_swapAt_of_ne (l : List α) {p q i : Nat} (hp : i ≠ p) (hq : i ≠ q) :
    (swapAt d l p q).getD i d = l.getD i d := by
  simp [swapAt, List.getD_eq_getElem?_getD, hp.symm, hq.symm]

variable {bits : Nat} {l : List α}

/-- A place that the reversal leaves is not touched. -/
theorem getD_bitrevSwaps_fixed {p : Nat} (hp : p < 2 ^ bits) (hfix : bitrev bits p = p) :
    (bitrevSwaps d bits l).getD p d = l.getD p d := by
  refine foldl_observe_of_forall (obs := fun k : List α => k.getD p d) (fun y hy k => ?_) l
  split
  case isFalse => rfl
  case isTrue hlt =>
    have hy := bitrev_bitrev (List.mem_range.1 hy)
    refine getD_swapAt_of_ne d k ?_ ?_ <;> rintro rfl <;> omega

variable (hl : l.length = 2 ^ bits)
include hl

/-- A pair of places that the reversal exchanges is exchanged once, at the step of the smaller place. -/
theorem getD_bitrevSwaps_pair {p q : Nat} (hp : p < q) (hpq : bitrev bits p = q) (hqp : bitrev bits q = p) :
    (bitrevSwaps d bits l).getD p d = l.getD q d ∧ (bitrevSwaps d bits l).getD q d = l.getD p d := by
  have hq : q < 2 ^ bits := hpq ▸ bitrev_lt bits p
  rw [← Prod.mk.injEq]
  refine foldl_observe_of_mem (obs := fun k : List α => (k.getD p d, k.getD q d)) List.nodup_range
    (List.mem_range.2 (hp.trans hq)) (fun k y => by split <;> simp [swapAt]) ?other ?own
  case other =>
    intro y hy hne k
    have hy' := bitrev_bitrev (List.mem_range.1 hy)
    split
    case isFalse => rfl
    case isTrue hlt =>
      have hyq : y ≠ q := by rintro rfl; omega
      have hrp : bitrev bits y ≠ p := by intro h; rw [h] at hy'; omega
      have hrq : bitrev bits y ≠ q := by intro h; rw [h] at hy'; omega
      simp only [getD_swapAt_of_ne d k hne.symm hrp.symm, getD_swapAt_of_ne d k hyq.symm hrq.symm]
  case own =>
    intro k hk hpair
    obtain ⟨hkp, hkq⟩ := Prod.mk.inj hpair
    obtain ⟨hp', hq'⟩ := getD_swapAt d hp.ne (l := k) (by omega) (by omega)
    simp only [hpq, if_pos hp, hp', hq', hkp, hkq]

/-- The swap loop applies the reversal (R165, R166). -/
theorem getD_bitrevSwaps {i : Nat} (hi : i < 2 ^ bits) :
    (bitrevSwaps d bits l).getD i d = l.getD (bitrev bits i) d := by
  have hinv := bitrev_bitrev hi
  rcases lt_trichotomy i (bitrev bits i) with h | h | h
  · exact (getD_bitrevSwaps_pair d hl h rfl hinv).1
  · rw [← h]; exact getD_bitrevSwaps_fixed d hi h.symm
  · exact (getD_bitrevSwaps_pair d hl h hinv rfl).2

end

/-- Settles O33, bit by bit, and for the swap loop pair by pair. -/
theorem bitReversalSwapsEachPairOnce : Obligations.BitReversalSwapsEachPairOnce := by
  unfold Obligations.BitReversalSwapsEachPairOnce
  intro bits i hi
  exact ⟨bitrev_lt bits i, bitrev_bitrev hi, fun b hb => testBit_bitrev i hb,
    fun α d l hl => getD_bitrevSwaps d hl hi⟩

/-! ### FFT -/

/-- What FFT leaves in WORK is the transform of what stood there (R165). -/
theorem workList_runFft (s : State) :
    workList (runFft s) = transform (blockArith s.draws) s.build.log2n (twRom s.build) (workList s) := by
  refine List.ext_getElem (by simp) fun k hk _ => ?_
  rw [length_workList, runFft_build] at hk
  rw [← workEntry_runFft s k hk]
  simp [workList]

/-- Settles O32: FFT writes the transform over the block's arithmetic, each operation with its free NaN. -/
theorem fftTransformsWorkInPlace : Obligations.FftTransformsWorkInPlace := by
  unfold Obligations.FftTransformsWorkInPlace
  refine ⟨issuedBy_encodeWord .fft, fun s => ⟨fun site => ?_, ?_⟩⟩
  · exact ⟨freshNaN s.draws site, isNaN_freshNaN s.draws site, fun a b => ⟨rfl, rfl, rfl⟩⟩
  · have hexec : exec .fft s = .next (completeCommand (runFft s)) := rfl
    exact ⟨_, hexec, exec_completed hexec, (exec_keepsHostInputs hexec).settings, rfl,
      sameBytesOutside_of_forall (ramByte_runFft_outside s), workList_runFft s⟩

end Sys2Proof.Machine
end

section
/-!
PROOFS. The coefficient ROMs: where the enclosures are exact, how far the real numbers lie from 0 elsewhere, and
the correct rounding that follows.
-/
namespace Sys2Proof.Machine

/-! ### Exact enclosures -/

theorem ceilDiv_zero {d : Nat} (hd : 0 < d) : ceilDiv 0 d = 0 := Nat.div_eq_of_lt (by omega)

theorem squareBounds_angleBounds_zero {d : Nat} (hd : 0 < d) :
    angleBounds 0 d = (0, 0) ∧ squareBounds (0, 0) = (0, 0) := by
  have hF : 0 < fixOne := by decide +kernel
  simp [angleBounds, squareBounds, ceilDiv_zero hd, ceilDiv_zero hF]

/-- The series at 0 is its first term. -/
theorem taylorSum_zero (c n i : Nat) : taylorSum c (0, 0) (n + 1) i = (fixOne, fixOne) := by
  have hq : 0 < (2 * i + 1 + c) * (2 * i + 2 + c) * fixOne :=
    Nat.mul_pos (Nat.mul_pos (by omega) (by omega)) (by decide +kernel)
  simp only [taylorSum, Nat.zero_mul, ceilDiv_zero hq, Nat.zero_div, Nat.sub_zero]

theorem cosOctant_zero {d : Nat} (hd : 0 < d) : cosOctant 0 d = (fixOne, fixOne) := by
  obtain ⟨hangle, hsquare⟩ := squareBounds_angleBounds_zero hd
  rw [cosOctant, hangle, hsquare, taylorSum_zero]

theorem sinOctant_zero {d : Nat} (hd : 0 < d) : sinOctant 0 d = (0, 0) := by
  obtain ⟨hangle, -⟩ := squareBounds_angleBounds_zero hd
  simp [sinOctant, hangle, ceilDiv_zero (d := fixOne) (by decide +kernel)]

theorem enclosureOf_one : enclosureOf (fixOne, fixOne) = ⟨1, 1⟩ := by
  have h : mkRat fixOne fixOne = 1 := by decide +kernel
  rw [enclosureOf, h]

theorem enclosureOf_zero : enclosureOf (0, 0) = ⟨0, 0⟩ := by
  simp [enclosureOf]

/-- `cos 0 = 1`, without a gap. -/
theorem cosTurn_zero {d : Nat} (hd : 0 < d) : cosTurn 0 d = ⟨1, 1⟩ := by
  simp [cosTurn, cosQuadrant, cosOctant_zero hd, enclosureOf_one]

/-- The cosine of a quarter of a turn is 0, without a gap. -/
theorem cosTurn_quarter {n : Nat} (hn : 0 < n) : cosTurn n (4 * n) = ⟨0, 0⟩ := by
  simp [cosTurn, cosQuadrant, show 2 * n ≤ 4 * n by omega, show ¬ 8 * n ≤ 4 * n by omega,
    sinOctant_zero (d := 4 * (4 * n)) (by omega), enclosureOf_zero]

/-- The cosine of half a turn is -1, without a gap. -/
theorem cosTurn_half {n : Nat} (hn : 0 < n) : cosTurn n (2 * n) = ⟨-1, -1⟩ := by
  simp [cosTurn, cosQuadrant, show ¬ 4 * n ≤ 2 * n by omega, cosOctant_zero (d := 2 * (2 * n)) (by omega),
    enclosureOf_one, negEnclosure]

/-- The cosine is even about half a turn, and so is its enclosure (R151). -/
theorem cosTurn_sub {n d : Nat} (hn : n ≤ d) : cosTurn (d - n) d = cosTurn n d := by
  have hfold : (if 2 * (d - n) ≤ d then d - n else d - (d - n)) = if 2 * n ≤ d then n else d - n := by
    split <;> split <;> omega
  rw [cosTurn, cosTurn, hfold]

theorem cosVersus_sub {n d : Nat} (hn : n ≤ d) : cosVersus (d - n) d = cosVersus n d := by
  have hfold : (if 2 * (d - n) ≤ d then d - n else d - (d - n)) = if 2 * n ≤ d then n else d - n := by
    split <;> split <;> omega
  funext m
  rw [cosVersus, cosVersus, hfold]

theorem rnBetween_exact (r : Rat) (versus : Rat → Ordering) : rnBetween ⟨r, r⟩ versus = rnRat r := if_pos rfl

theorem rnRat_one : rnRat 1 = 0x3FF0000000000000 := by decide +kernel

theorem rnRat_neg_one : rnRat (-1) = 0xBFF0000000000000 := by decide +kernel

theorem rnRat_zero : rnRat 0 = 0 := by decide +kernel

/-! ### Close enclosures of numbers that are not small -/

/-- An enclosure of a number of at least `2^-32` is close to it. -/
theorem Encloses.closely {e : Enclosure} {x : ℝ} (h : Encloses e x) (hx : 1 / 2 ^ 32 ≤ |x|) :
    EnclosesClosely e x := by
  obtain ⟨hlo, hhi, hwidth⟩ := h
  refine ⟨hlo, hhi, hwidth.trans ?_⟩
  have hF : (60 : ℝ) / fixOne ≤ 1 / 2 ^ 32 / 2 ^ 250 := by
    have hsplit : (fixOne : ℝ) = 2 ^ 38 * (2 ^ 32 * 2 ^ 250) := by
      rw [fixOne, Nat.cast_pow, Nat.cast_ofNat, ← pow_add, ← pow_add]
    rw [hsplit, div_div, div_le_div_iff₀ (by positivity) (by positivity), ← mul_assoc]
    have hP : (0 : ℝ) ≤ 2 ^ 250 := by positivity
    generalize (2 : ℝ) ^ 250 = P at *
    norm_num
    linarith
  exact hF.trans (div_le_div_of_nonneg_right hx (by positivity))

/-- A number enclosed without a gap. -/
theorem enclosesClosely_exact {r : Rat} {x : ℝ} (h : (r : ℝ) = x) : EnclosesClosely ⟨r, r⟩ x := by
  subst h
  refine ⟨le_rfl, le_rfl, ?_⟩
  rw [sub_self]
  positivity

/-- The chord below the sine: no sine of a proper part of half a turn is small. -/
theorem two_div_le_sin {n d : Nat} (hn : 0 < n) (hnd : n < d) : 2 / (d : ℝ) ≤ Real.sin (Real.pi * n / d) := by
  have hd : (0 : ℝ) < d := by exact_mod_cast hn.trans hnd
  have hpi := Real.pi_pos
  have chord {m : Nat} (hm : 0 < m) (hmd : 2 * m ≤ d) : 2 / (d : ℝ) ≤ Real.sin (Real.pi * m / d) := by
    have hm1 : (1 : ℝ) ≤ m := by exact_mod_cast hm
    have hmd' : (2 * m : ℝ) ≤ d := by exact_mod_cast hmd
    have hle : Real.pi * m / d ≤ Real.pi / 2 := by
      rw [div_le_div_iff₀ hd two_pos]
      nlinarith
    refine le_trans ?_ (Real.mul_le_sin (by positivity) hle)
    rw [show 2 / Real.pi * (Real.pi * m / d) = 2 * m / d by field_simp]
    exact div_le_div_of_nonneg_right (by linarith) hd.le
  by_cases hhalf : 2 * n ≤ d
  · exact chord hn hhalf
  · have h := chord (m := d - n) (by omega) (by omega)
    rwa [Nat.cast_sub hnd.le, mul_sub, sub_div, mul_div_cancel_right₀ _ hd.ne', Real.sin_pi_sub] at h

/-- What is said of every ROM entry: it is one end rounded, and the real number rounded (R13). -/
theorem rnBetween_spec {e : Enclosure} {x : ℝ} {versus : Rat → Ordering} (h : EnclosesClosely e x) (hx : |x| ≤ 1)
    (hversus : ∀ m, Compares (versus m) x m) :
    EnclosesClosely e x ∧ (rnBetween e versus = rnRat e.lo ∨ rnBetween e versus = rnRat e.hi) ∧
      IsRounded x (rnBetween e versus) := by
  obtain ⟨hlo, hhi⟩ := h.inRoundingRange (hx.trans (by norm_num))
  exact ⟨h, rnBetween_eq_end _ _, rnBetween_isRounded h hlo hhi hversus⟩

/-! ### The legal transform lengths -/

/-- Every legal transform length is a multiple of 4, and at most `2^16` (R8). -/
theorem transformLength_bounds {b : Build} (h : b.legal = true) :
    4 * (transformLength b / 4) = transformLength b ∧ 0 < transformLength b / 4 ∧ transformLength b ≤ 2 ^ 16 := by
  simp only [Build.legal, Build.log2nLegal, Bool.and_eq_true, decide_eq_true_eq] at h
  obtain ⟨n, hn⟩ : ∃ n, b.log2n = n + 2 := ⟨b.log2n - 2, by omega⟩
  have hpos : 0 < 2 ^ n := Nat.two_pow_pos n
  have hle : 2 ^ b.log2n ≤ 2 ^ 16 := Nat.pow_le_pow_right Nat.two_pos (by omega)
  rw [transformLength]
  refine ⟨?_, ?_, hle⟩ <;> rw [hn, pow_add] <;> omega

/-! ### The window -/

/-- `1/2 - (1/2) cos (2 pi k / D)`, the Hann window (R150). -/
noncomputable def hannValue (b : Build) (k : Nat) : ℝ :=
  1 / 2 - 1 / 2 * Real.cos (2 * Real.pi * k / hannDenominator b)

theorem hannDenominator_symmetric {b : Build} (h : b.hann = .symmetric) :
    hannDenominator b = transformLength b - 1 := by rw [hannDenominator, h]

theorem hannDenominator_periodic {b : Build} (h : b.hann = .periodic) : hannDenominator b = transformLength b := by
  rw [hannDenominator, h]

theorem hannDenominator_bounds {b : Build} (h : b.legal = true) {k : Nat} (hk : k < transformLength b) :
    0 < hannDenominator b ∧ k ≤ hannDenominator b ∧ hannDenominator b ≤ 2 ^ 16 := by
  obtain ⟨h4, hpos, hle⟩ := transformLength_bounds h
  unfold hannDenominator
  split <;> omega

theorem hannValue_bounds (b : Build) (k : Nat) : 0 ≤ hannValue b k ∧ hannValue b k ≤ 1 := by
  have h1 := Real.neg_one_le_cos (2 * Real.pi * k / hannDenominator b)
  have h2 := Real.cos_le_one (2 * Real.pi * k / hannDenominator b)
  unfold hannValue
  constructor <;> linarith

theorem abs_hannValue_le (b : Build) (k : Nat) : |hannValue b k| ≤ 1 := by
  obtain ⟨h0, h1⟩ := hannValue_bounds b k
  rwa [abs_of_nonneg h0]

/-- The window is the square of a sine. -/
theorem hannValue_eq_sq (b : Build) (k : Nat) : hannValue b k = Real.sin (Real.pi * k / hannDenominator b) ^ 2 := by
  rw [hannValue, Real.sin_sq_eq_half_sub]
  ring_nf

/-- Inside the window no value is small. -/
theorem le_hannValue {b : Build} {k : Nat} (hk0 : 0 < k) (hk : k < hannDenominator b)
    (hle : hannDenominator b ≤ 2 ^ 16) : 1 / 2 ^ 32 ≤ |hannValue b k| := by
  have hd : (0 : ℝ) < hannDenominator b := by exact_mod_cast hk0.trans hk
  have hd' : (hannDenominator b : ℝ) ≤ 2 ^ 16 := by exact_mod_cast hle
  have hsin : (1 : ℝ) / 2 ^ 16 ≤ Real.sin (Real.pi * k / hannDenominator b) := by
    refine le_trans ?_ (two_div_le_sin hk0 hk)
    rw [div_le_div_iff₀ (by positivity) hd]
    linarith
  rw [hannValue_eq_sq, abs_of_nonneg (sq_nonneg _)]
  calc (1 : ℝ) / 2 ^ 32 = (1 / 2 ^ 16) ^ 2 := by norm_num
    _ ≤ _ := pow_le_pow_left₀ (by positivity) hsin 2

theorem winEnclosure_of_exact {b : Build} {k : Nat} {r : Rat} (h : cosTurn k (hannDenominator b) = ⟨r, r⟩) :
    winEnclosure b k = ⟨(1 - r) / 2, (1 - r) / 2⟩ := by
  rw [winEnclosure, h]

/-- The window ends at 0, without a gap (R151). -/
theorem winEnclosure_ends {b : Build} (hpos : 0 < hannDenominator b) :
    winEnclosure b 0 = ⟨0, 0⟩ ∧ winEnclosure b (hannDenominator b) = ⟨0, 0⟩ := by
  have hzero := cosTurn_zero hpos
  have hend := cosTurn_sub (Nat.zero_le (hannDenominator b))
  rw [Nat.sub_zero, hzero] at hend
  rw [winEnclosure_of_exact hzero, winEnclosure_of_exact hend, sub_self, zero_div]
  exact ⟨rfl, rfl⟩

theorem hannValue_ends {b : Build} (hpos : 0 < hannDenominator b) :
    hannValue b 0 = 0 ∧ hannValue b (hannDenominator b) = 0 := by
  have hd : (hannDenominator b : ℝ) ≠ 0 := by exact_mod_cast hpos.ne'
  rw [hannValue_eq_sq, hannValue_eq_sq, Nat.cast_zero, mul_zero, zero_div, Real.sin_zero, mul_div_cancel_right₀ _ hd,
    Real.sin_pi]
  simp

theorem winEnclosure_encloses (b : Build) {k : Nat} (hpos : 0 < hannDenominator b) (hk : k ≤ hannDenominator b) :
    Encloses (winEnclosure b k) (hannValue b k) := by
  obtain ⟨hlo, hhi, hwidth⟩ := cosTurn_encloses k (hannDenominator b) hpos hk
  have hF : 0 ≤ 60 / (fixOne : ℝ) := by have := fixOne_pos; positivity
  unfold Encloses winEnclosure hannValue
  push_cast
  exact ⟨by linarith, by linarith, by linarith⟩

theorem winEnclosure_closely {b : Build} (h : b.legal = true) {k : Nat} (hk : k < transformLength b) :
    EnclosesClosely (winEnclosure b k) (hannValue b k) := by
  obtain ⟨hpos, hkd, hle⟩ := hannDenominator_bounds h hk
  obtain ⟨hfirst, hlast⟩ := winEnclosure_ends hpos
  obtain ⟨hfirst', hlast'⟩ := hannValue_ends hpos
  rcases Nat.eq_zero_or_pos k with rfl | hk0
  · rw [hfirst, hfirst']
    exact enclosesClosely_exact Rat.cast_zero
  rcases hkd.eq_or_lt with rfl | hlt
  · rw [hlast, hlast']
    exact enclosesClosely_exact Rat.cast_zero
  · exact (winEnclosure_encloses b hpos hkd).closely (le_hannValue hk0 hlt hle)

/-- The comparison behind the window is exact. -/
theorem winVersus_compares {b : Build} {k : Nat} (hpos : 0 < hannDenominator b) (hk : k ≤ hannDenominator b)
    (m : Rat) : Compares (winVersus b k m) (hannValue b k) m := by
  have h := cosVersus_compares k (hannDenominator b) hpos hk (1 - 2 * m)
  unfold winVersus hannValue
  refine h.swap ?_ ?_ ?_ <;> push_cast <;> constructor <;> intro h' <;> linarith

/-- Every window coefficient is correctly rounded (R150). -/
theorem winRom_spec {b : Build} (h : b.legal = true) {k : Nat} (hk : k < transformLength b) :
    EnclosesClosely (winEnclosure b k) (hannValue b k) ∧
      (winRom b k = rnRat (winEnclosure b k).lo ∨ winRom b k = rnRat (winEnclosure b k).hi) ∧
      IsRounded (hannValue b k) (winRom b k) := by
  obtain ⟨hpos, hkd, -⟩ := hannDenominator_bounds h hk
  exact rnBetween_spec (winEnclosure_closely h hk) (abs_hannValue_le b k) (winVersus_compares hpos hkd)

/-- The denominator in the words of R150. -/
theorem cast_hannDenominator {b : Build} (h : b.legal = true) :
    (hannDenominator b : ℝ) =
      if b.hann = .symmetric then (transformLength b : ℝ) - 1 else (transformLength b : ℝ) := by
  obtain ⟨h4, hpos, -⟩ := transformLength_bounds h
  unfold hannDenominator
  cases b.hann
  · simp [Nat.cast_sub (show 1 ≤ transformLength b by omega)]
  · simp

/-- Settles O28, from the close enclosure of the window and the exact comparison with midpoints. -/
theorem windowRomIsTheRoundedHannWindow : Obligations.WindowRomIsTheRoundedHannWindow := by
  unfold Obligations.WindowRomIsTheRoundedHannWindow
  intro b k hlegal hk
  rw [← cast_hannDenominator hlegal]
  exact winRom_spec hlegal hk

/-! ### The twiddles -/

theorem twRom_fst (b : Build) (k : Nat) :
    (twRom b k).1 = rnBetween (cosTurn k (transformLength b)) (cosVersus k (transformLength b)) := by
  simp only [twRom]

theorem twRom_snd (b : Build) (k : Nat) :
    (twRom b k).2 = rnBetween (negEnclosure (sinTurn k (transformLength b))) (negSinVersus k (transformLength b)) := by
  simp only [twRom]

section
variable {b : Build} (h : b.legal = true) {k : Nat} (hk : k < transformLength b / 2)
include h hk

/-- The cosine of a twiddle is 0 at a quarter of a turn, and not small elsewhere. -/
theorem cosTurn_closely :
    EnclosesClosely (cosTurn k (transformLength b)) (Real.cos (2 * Real.pi * k / transformLength b)) := by
  obtain ⟨h4, hpos, hle⟩ := transformLength_bounds h
  have hN : (0 : ℝ) < transformLength b := by exact_mod_cast (by omega : 0 < transformLength b)
  have hencl := cosTurn_encloses k (transformLength b) (by omega) (by omega)
  have hbound : (1 : ℝ) / 2 ^ 32 ≤ 2 / ((2 * transformLength b : Nat) : ℝ) := by
    have : (transformLength b : ℝ) ≤ 2 ^ 16 := by exact_mod_cast hle
    push_cast
    rw [div_le_div_iff₀ (by positivity) (by positivity)]
    linarith
  rcases lt_trichotomy (4 * k) (transformLength b) with hlt | heq | hgt
  · have hsin := two_div_le_sin (n := transformLength b - 4 * k) (d := 2 * transformLength b) (by omega) (by omega)
    have hangle : Real.pi * ((transformLength b - 4 * k : Nat) : ℝ) / ((2 * transformLength b : Nat) : ℝ) =
        Real.pi / 2 - 2 * Real.pi * k / transformLength b := by
      rw [Nat.cast_sub hlt.le]; push_cast; field_simp; ring
    rw [hangle, Real.sin_pi_div_two_sub] at hsin
    exact hencl.closely (hbound.trans (hsin.trans (le_abs_self _)))
  · have hangle : 2 * Real.pi * k / transformLength b = Real.pi / 2 := by
      rw [div_eq_div_iff hN.ne' two_ne_zero, ← heq]; push_cast; ring
    rw [hangle, Real.cos_pi_div_two, ← heq, cosTurn_quarter (by omega)]
    exact enclosesClosely_exact Rat.cast_zero
  · have hsin := two_div_le_sin (n := 4 * k - transformLength b) (d := 2 * transformLength b) (by omega) (by omega)
    have hangle : Real.pi * ((4 * k - transformLength b : Nat) : ℝ) / ((2 * transformLength b : Nat) : ℝ) =
        2 * Real.pi * k / transformLength b - Real.pi / 2 := by
      rw [Nat.cast_sub hgt.le]; push_cast; field_simp; ring
    rw [hangle, Real.sin_sub_pi_div_two] at hsin
    exact hencl.closely (hbound.trans (hsin.trans (neg_le_abs _)))

/-- The sine of a twiddle is 0 at the start, and not small elsewhere. -/
theorem negSinTurn_closely :
    EnclosesClosely (negEnclosure (sinTurn k (transformLength b)))
      (-Real.sin (2 * Real.pi * k / transformLength b)) := by
  obtain ⟨h4, hpos, hle⟩ := transformLength_bounds h
  have hN : (0 : ℝ) < transformLength b := by exact_mod_cast (by omega : 0 < transformLength b)
  rcases Nat.eq_zero_or_pos k with rfl | hk0
  · have hexact : negEnclosure (sinTurn 0 (transformLength b)) = ⟨0, 0⟩ := by
      simp [sinTurn, cosTurn_quarter (show 0 < transformLength b by omega), negEnclosure]
    rw [hexact]
    exact enclosesClosely_exact (by simp)
  · have hsin := two_div_le_sin (n := 2 * k) (d := transformLength b) (by omega) (by omega)
    rw [Nat.cast_mul, Nat.cast_ofNat, ← mul_assoc, mul_comm Real.pi] at hsin
    refine (negEnclosure_encloses (sinTurn_encloses k _ (by omega) (by omega))).closely ?_
    rw [abs_neg]
    refine le_trans ?_ (hsin.trans (le_abs_self _))
    have : (transformLength b : ℝ) ≤ 2 ^ 16 := by exact_mod_cast hle
    rw [div_le_div_iff₀ (by positivity) hN]
    linarith

/-- Every twiddle cosine is correctly rounded (R155). -/
theorem twRom_fst_spec :
    EnclosesClosely (cosTurn k (transformLength b)) (Real.cos (2 * Real.pi * k / transformLength b)) ∧
      ((twRom b k).1 = rnRat (cosTurn k (transformLength b)).lo ∨
        (twRom b k).1 = rnRat (cosTurn k (transformLength b)).hi) ∧
      IsRounded (Real.cos (2 * Real.pi * k / transformLength b)) (twRom b k).1 := by
  obtain ⟨h4, hpos, -⟩ := transformLength_bounds h
  rw [twRom_fst]
  exact rnBetween_spec (cosTurn_closely h hk) (Real.abs_cos_le_one _) (cosVersus_compares k _ (by omega) (by omega))

/-- Every twiddle sine is correctly rounded (R155). -/
theorem twRom_snd_spec :
    EnclosesClosely (negEnclosure (sinTurn k (transformLength b)))
        (-Real.sin (2 * Real.pi * k / transformLength b)) ∧
      ((twRom b k).2 = rnRat (negEnclosure (sinTurn k (transformLength b))).lo ∨
        (twRom b k).2 = rnRat (negEnclosure (sinTurn k (transformLength b))).hi) ∧
      IsRounded (-Real.sin (2 * Real.pi * k / transformLength b)) (twRom b k).2 := by
  obtain ⟨h4, hpos, -⟩ := transformLength_bounds h
  rw [twRom_snd]
  refine rnBetween_spec (negSinTurn_closely h hk) ?_ (negSinVersus_compares k _ (by omega) (by omega))
  rw [abs_neg]
  exact Real.abs_sin_le_one _

end

/-- Settles O29, from the close enclosures of cosine and sine and the exact comparisons with midpoints. -/
theorem twiddleRomIsTheRoundedRotation : Obligations.TwiddleRomIsTheRoundedRotation := by
  unfold Obligations.TwiddleRomIsTheRoundedRotation
  intro b k hlegal hk
  exact ⟨twRom_fst_spec hlegal hk, twRom_snd_spec hlegal hk⟩

/-! ### Bounds, symmetries and exact entries -/

theorem signedUnits_false (u : Nat) : signedUnits false u = u := if_neg Bool.false_ne_true

theorem signedUnits_true (u : Nat) : signedUnits true u = -u := if_pos rfl

theorem unitsPerOne_ne_zero : (unitsPerOne : ℝ) ≠ 0 := Nat.cast_ne_zero.2 unitsPerOne_pos.ne'

theorem hasValue_zero : HasValue 0 0 :=
  ⟨false, 0, by decide +kernel, by rw [signedUnits_false, Nat.cast_zero, Int.cast_zero, zero_div]⟩

theorem hasValue_one : HasValue 0x3FF0000000000000 1 := by
  refine ⟨false, unitsPerOne, by decide +kernel, ?_⟩
  rw [signedUnits_false, Int.cast_natCast, ← cast_unitsPerOne, div_self unitsPerOne_ne_zero]

theorem hasValue_neg_one : HasValue 0xBFF0000000000000 (-1) := by
  refine ⟨true, unitsPerOne, by decide +kernel, ?_⟩
  rw [signedUnits_true, Int.cast_neg, Int.cast_natCast, ← cast_unitsPerOne, neg_div, div_self unitsPerOne_ne_zero]

/-- Rounding does not leave an interval whose ends are values. -/
theorem IsRounded.mem_interval {x l r : ℝ} {v a b : F64} (h : IsRounded x v) (hl : HasValue a l) (hr : HasValue b r)
    (hlx : l ≤ x) (hxr : x ≤ r) : ∃ y, HasValue v y ∧ l ≤ y ∧ y ≤ r := by
  obtain ⟨y, hy, hnear, -⟩ := h
  have hleft := hnear a l hl
  have hright := hnear b r hr
  rw [abs_of_nonpos (sub_nonpos.2 hlx)] at hleft
  rw [abs_of_nonneg (sub_nonneg.2 hxr)] at hright
  exact ⟨y, hy, by linarith [neg_abs_le (y - x)], by linarith [le_abs_self (y - x)]⟩

/-- Window coefficients lie in `[0, 1]` (R151). -/
theorem winRom_value {b : Build} (h : b.legal = true) {k : Nat} (hk : k < transformLength b) :
    ∃ x, HasValue (winRom b k) x ∧ 0 ≤ x ∧ x ≤ 1 := by
  obtain ⟨h0, h1⟩ := hannValue_bounds b k
  exact (winRom_spec h hk).2.2.mem_interval hasValue_zero hasValue_one h0 h1

/-- Rounding does not leave `[-1, 1]`. -/
theorem IsRounded.abs_le_one {x : ℝ} {v : F64} (h : IsRounded x v) (hx : |x| ≤ 1) : ∃ y, HasValue v y ∧ |y| ≤ 1 := by
  obtain ⟨hlow, hhigh⟩ := abs_le.1 hx
  obtain ⟨y, hy, hly, hyr⟩ := h.mem_interval hasValue_neg_one hasValue_one hlow hhigh
  exact ⟨y, hy, abs_le.2 ⟨hly, hyr⟩⟩

/-- Twiddle components lie in `[-1, 1]` (R155). -/
theorem twRom_value {b : Build} (h : b.legal = true) {k : Nat} (hk : k < transformLength b / 2) :
    (∃ x, HasValue (twRom b k).1 x ∧ |x| ≤ 1) ∧ (∃ x, HasValue (twRom b k).2 x ∧ |x| ≤ 1) :=
  ⟨(twRom_fst_spec h hk).2.2.abs_le_one (Real.abs_cos_le_one _),
    (twRom_snd_spec h hk).2.2.abs_le_one (by rw [abs_neg]; exact Real.abs_sin_le_one _)⟩

/-- The window is symmetric about the middle of its denominator (R151). -/
theorem winRom_sub {b : Build} {k : Nat} (hk : k ≤ hannDenominator b) :
    winRom b (hannDenominator b - k) = winRom b k := by
  have hversus : winVersus b (hannDenominator b - k) = winVersus b k := by
    funext m
    rw [winVersus, winVersus, cosVersus_sub hk]
  rw [winRom, winRom, winEnclosure, winEnclosure, cosTurn_sub hk, hversus]

theorem winRom_zero {b : Build} (hpos : 0 < hannDenominator b) : winRom b 0 = 0 := by
  rw [winRom, (winEnclosure_ends hpos).1, rnBetween_exact, rnRat_zero]

theorem winRom_middle {b : Build} {n : Nat} (hn : 0 < n) (hd : hannDenominator b = 2 * n) :
    winRom b n = 0x3FF0000000000000 := by
  have hhalf := cosTurn_half hn
  rw [← hd] at hhalf
  rw [winRom, winEnclosure_of_exact hhalf, rnBetween_exact, ← rnRat_one]
  congr 1
  norm_num

theorem twRom_zero {b : Build} (hN : 0 < transformLength b) : twRom b 0 = (0x3FF0000000000000, 0) := by
  have hsin : negEnclosure (sinTurn 0 (transformLength b)) = ⟨0, 0⟩ := by
    simp [sinTurn, cosTurn_quarter hN, negEnclosure]
  rw [twRom, cosTurn_zero hN, hsin, rnBetween_exact, rnBetween_exact, rnRat_one, rnRat_zero]

theorem twRom_quarter {b : Build} {n : Nat} (hn : 0 < n) (hN : transformLength b = 4 * n) :
    twRom b n = (0, 0xBFF0000000000000) := by
  have hsin : negEnclosure (sinTurn n (4 * n)) = ⟨-1, -1⟩ := by
    simp [sinTurn, cosTurn_zero (show 0 < 4 * (4 * n) by omega), negEnclosure]
  rw [twRom, hN, cosTurn_quarter hn, hsin, rnBetween_exact, rnBetween_exact, rnRat_neg_one, rnRat_zero]

/-- Settles O30, from the rounding of numbers in `[-1, 1]` and the places where the enclosures are exact. -/
theorem romEntriesAreBoundedAndSymmetric : Obligations.RomEntriesAreBoundedAndSymmetric := by
  unfold Obligations.RomEntriesAreBoundedAndSymmetric
  intro b hlegal
  obtain ⟨h4, hpos, -⟩ := transformLength_bounds hlegal
  have hfirst : winRom b 0 = 0 := winRom_zero (hannDenominator_bounds hlegal (k := 0) (by omega)).1
  refine ⟨fun k hk => winRom_value hlegal hk, hfirst, fun hsym => ⟨?_, fun k hk => ?_⟩,
    fun hper => ⟨?_, fun k _ hk => ?_⟩, fun k hk => twRom_value hlegal hk, twRom_zero (by omega),
    twRom_quarter hpos h4.symm⟩
  · have hsub := winRom_sub (Nat.zero_le (hannDenominator b))
    rwa [Nat.sub_zero, hfirst, hannDenominator_symmetric hsym] at hsub
  · have hsub := winRom_sub (b := b) (k := k) (by rw [hannDenominator_symmetric hsym]; omega)
    rw [hannDenominator_symmetric hsym] at hsub
    exact hsub.symm
  · exact winRom_middle (by omega) (by rw [hannDenominator_periodic hper]; omega)
  · have hsub := winRom_sub (b := b) (k := k) (by rw [hannDenominator_periodic hper]; omega)
    rw [hannDenominator_periodic hper] at hsub
    exact hsub.symm

/-! ### The examples -/

/-- The base address is no part of the coefficients. -/
theorem rom_base (n w height : Nat) (hann : HannForm) (base base' : Word) :
    winRom ⟨n, w, height, hann, base⟩ = winRom ⟨n, w, height, hann, base'⟩ ∧
    twRom ⟨n, w, height, hann, base⟩ = twRom ⟨n, w, height, hann, base'⟩ := ⟨rfl, rfl⟩

/-- Settles O27: the ROMs of base 0 evaluated, one table at a time. -/
theorem romExamples : Obligations.RomExamples := by
  unfold Obligations.RomExamples
  intro base
  rw [(rom_base 2 0 1 .symmetric base 0).1, (rom_base 2 0 1 .periodic base 0).1, (rom_base 3 0 1 .symmetric base 0).1,
    (rom_base 3 0 1 .periodic base 0).1, (rom_base 2 0 1 .symmetric base 0).2, (rom_base 3 0 1 .symmetric base 0).2]
  refine ⟨?_, ?_, ?_, ?_, ?_, ?_⟩ <;> decide +kernel

end Sys2Proof.Machine
end

section
/-!
PROOFS. Binary64 numbers that no rounding changes, and how the comparisons compare the numbers that patterns
stand for: gain, baseline and the constants of the log-power.
-/
namespace Sys2Proof.Machine

/-! ### Exact results -/

theorem nearestEven_mul_right (m : Nat) {d : Nat} (hd : 0 < d) : nearestEven (m * d) d = m := by
  simp [nearestEven, Nat.mul_div_cancel m hd, hd]

/-- A number of units with at most 53 significant bits is rounded to itself. -/
theorem classify_roundUnits_of_small (neg : Bool) {m k : Nat} (hm : m < 2 ^ 53) (hk : k ≤ 2044) :
    classify (roundUnits neg (m * 2 ^ k) 1) = .fin neg (m * 2 ^ k) := by
  have hexcess : excessBits (m * 2 ^ k) 1 ≤ k := by
    rcases Nat.eq_zero_or_pos m with rfl | hm0
    · simp [excessBits]
    · have hlog : Nat.log2 (m * 2 ^ k) < 53 + k := by
        rw [Nat.log2_lt (by positivity), pow_add]
        exact Nat.mul_lt_mul_of_pos_right hm (by positivity)
      rw [excessBits, Nat.div_one]
      omega
  have hfinite : m * 2 ^ k < 1 * ((2 ^ 54 - 1) * 2 ^ 2044) := by
    obtain ⟨c, hc⟩ := Nat.exists_eq_add_of_le hk
    rw [one_mul, hc, pow_add, mul_left_comm, mul_comm m]
    refine Nat.mul_lt_mul_of_pos_left ?_ (Nat.two_pow_pos k)
    exact lt_of_lt_of_le (by omega) (Nat.le_mul_of_pos_right (2 ^ 54 - 1) (Nat.two_pow_pos c))
  rw [classify_roundUnits, if_pos ((roundUnits_finite_iff _ 1 one_pos).2 hfinite)]
  generalize excessBits (m * 2 ^ k) 1 = t at *
  obtain ⟨j, rfl⟩ := Nat.exists_eq_add_of_le hexcess
  rw [pow_add, mul_comm (2 ^ t), ← mul_assoc, one_mul, nearestEven_mul_right _ (Nat.two_pow_pos t)]

theorem signedUnits_natAbs_mul (n : Int) (c : Nat) : signedUnits (decide (n < 0)) (n.natAbs * c) = n * c := by
  by_cases hn : n < 0
  · rw [decide_eq_true hn, signedUnits_true, Nat.cast_mul, Int.ofNat_natAbs_of_nonpos hn.le]
    ring
  · rw [decide_eq_false hn, signedUnits_false, Nat.cast_mul, Int.natAbs_of_nonneg (not_lt.1 hn)]

/-- `f64` is exact on integers of at most 53 bits (R13). -/
theorem classify_f64OfInt {n : Int} (hn : n.natAbs < 2 ^ 53) :
    classify (f64OfInt n) = .fin (decide (n < 0)) (n.natAbs * unitsPerOne) :=
  classify_roundUnits_of_small _ hn (by norm_num)

theorem hasValue_f64OfInt {n : Int} (hn : n.natAbs < 2 ^ 53) : HasValue (f64OfInt n) n := by
  refine ⟨_, _, classify_f64OfInt hn, ?_⟩
  rw [signedUnits_natAbs_mul, Int.cast_mul, Int.cast_natCast, ← cast_unitsPerOne,
    mul_div_cancel_right₀ _ unitsPerOne_ne_zero]

theorem HasValue.isFinite {v : F64} {x : ℝ} (h : HasValue v x) : IsFinite v := by
  obtain ⟨neg, u, hc, -⟩ := h
  exact ⟨neg, u, hc⟩

theorem natAbs_toInt_word_le (d : Word) : d.toInt.natAbs ≤ 2 ^ 31 := by
  have hlow := BitVec.le_toInt d
  have hhigh := BitVec.toInt_lt (x := d)
  omega

theorem classify_twoPowMinus16 : classify 0x3EF0000000000000 = .fin false (2 ^ 1058) := by decide +kernel

/-- A quotient of powers of two of units, as the real number it is. -/
theorem two_pow_div_unitsPerOne {i j : Nat} (h : i + j = 1074) : (2 : ℝ) ^ i / 2 ^ 1074 = 1 / 2 ^ j := by
  rw [← h, pow_add, div_mul_eq_div_div, div_self (by positivity)]

theorem hasValue_twoPowMinus16 : HasValue 0x3EF0000000000000 (1 / 2 ^ 16) := by
  refine ⟨false, 2 ^ 1058, classify_twoPowMinus16, ?_⟩
  rw [signedUnits_false, Int.cast_natCast, Nat.cast_pow, Nat.cast_ofNat]
  exact (two_pow_div_unitsPerOne rfl).symm

/-- The product of an integer and `2^-16` is exact (R172). -/
theorem hasValue_mul_twoPowMinus16 (nan : F64) {n : Int} (hn : n.natAbs < 2 ^ 53) :
    HasValue (mul64 nan (f64OfInt n) 0x3EF0000000000000) ((n : ℝ) / 2 ^ 16) := by
  have hproduct : mul64 nan (f64OfInt n) 0x3EF0000000000000 =
      roundUnits (decide (n < 0)) (n.natAbs * 2 ^ 1058) 1 := by
    rw [mul64_finite (classify_f64OfInt hn) classify_twoPowMinus16, Bool.bne_false]
    exact roundUnits_congr _ unitsPerOne_pos one_pos (by rw [mul_one, mul_right_comm])
  refine ⟨_, _, hproduct ▸ classify_roundUnits_of_small _ hn (by norm_num), ?_⟩
  rw [signedUnits_natAbs_mul, Int.cast_mul, Int.cast_natCast, Nat.cast_pow, Nat.cast_ofNat, mul_div_assoc,
    two_pow_div_unitsPerOne (j := 16) rfl, mul_one_div]

/-- Settles O37: the operands and the product have at most 53 significant bits. -/
theorem gainAndBaselineAreExact : Obligations.GainAndBaselineAreExact := by
  unfold Obligations.GainAndBaselineAreExact
  refine ⟨hasValue_twoPowMinus16, fun nan d => ?_⟩
  have hsmall : d.toInt.natAbs < 2 ^ 53 := (natAbs_toInt_word_le d).trans_lt (by norm_num)
  exact ⟨rfl, hasValue_f64OfInt hsmall, hasValue_mul_twoPowMinus16 nan hsmall⟩

/-! ### Comparisons -/

section
variable {v w : F64} {x y : ℝ} (hv : HasValue v x) (hw : HasValue w y)
include hv hw

/-- `≤` on finite patterns is `≤` on their numbers (R13). -/
theorem le64_iff : le64 v w = true ↔ x ≤ y := by
  obtain ⟨n, u, hc, rfl⟩ := hv
  obtain ⟨n', u', hc', rfl⟩ := hw
  rw [div_le_div_iff_of_pos_right (by positivity), Int.cast_le]
  simp only [le64, hc, hc', decide_eq_true_eq]

/-- `<` on finite patterns is `<` on their numbers (R13). -/
theorem lt64_iff : lt64 v w = true ↔ x < y := by
  obtain ⟨n, u, hc, rfl⟩ := hv
  obtain ⟨n', u', hc', rfl⟩ := hw
  rw [div_lt_div_iff_of_pos_right (by positivity), Int.cast_lt]
  simp only [lt64, hc, hc', decide_eq_true_eq]

end

/-- Infinities lie past every number (R13). -/
theorem le64_finite_inf {a v : F64} {x : ℝ} {neg : Bool} (ha : HasValue a x) (hv : classify v = .inf neg) :
    le64 a v = !neg ∧ le64 v a = neg := by
  obtain ⟨n, u, hc, -⟩ := ha
  simp only [le64, hv, hc, and_self]

/-- Every pattern is NaN, an infinity or a number. -/
theorem classify_cases (v : F64) : classify v = .nan ∨ (∃ neg, classify v = .inf neg) ∨ ∃ x, HasValue v x := by
  cases h : classify v with
  | nan => exact .inl rfl
  | inf neg => exact .inr (.inl ⟨neg, rfl⟩)
  | fin neg u => exact .inr (.inr ⟨_, neg, u, h, rfl⟩)

theorem isNaN_eq_false_iff (v : F64) : isNaN v = false ↔ classify v ≠ .nan := by
  rw [← Bool.not_eq_true, isNaN_iff]

theorem IsFinite.isNaN_eq_false {v : F64} (h : IsFinite v) : isNaN v = false := by
  obtain ⟨neg, u, hc⟩ := h
  rw [isNaN_eq_false_iff, hc]
  simp

theorem HasValue.isNaN_eq_false {v : F64} {x : ℝ} (h : HasValue v x) : isNaN v = false := h.isFinite.isNaN_eq_false

end Sys2Proof.Machine
end

section
/-!
PROOFS. The power of a work element: a sum of squares is not negative.
-/
namespace Sys2Proof.Machine

/-- A number that is not negative, also not `-0.0`, or +Inf. -/
def NotNegative (p : F64) : Prop := (∃ u, classify p = .fin false u) ∨ classify p = .inf false

theorem roundUnits_notNegative (n d : Nat) : NotNegative (roundUnits false n d) := by
  unfold NotNegative
  rw [classify_roundUnits]
  split
  · exact .inl ⟨_, rfl⟩
  · exact .inr rfl

theorem NotNegative.isNaN_eq_false {p : F64} (h : NotNegative p) : isNaN p = false := by
  rw [isNaN_eq_false_iff]
  obtain ⟨u, hu⟩ | hinf := h
  · rw [hu]; simp
  · rw [hinf]; simp

/-- A square is not negative (R173). -/
theorem mul64_self_notNegative (nan : F64) {a : F64} (ha : isNaN a = false) : NotNegative (mul64 nan a a) := by
  rw [isNaN_eq_false_iff] at ha
  cases hc : classify a with
  | nan => exact absurd hc ha
  | inf neg =>
    rw [mul64_inf_inf hc hc, bne_self_eq_false]
    exact .inr (classify_packSign_infPattern false)
  | fin neg u =>
    rw [mul64_finite hc hc, bne_self_eq_false]
    exact roundUnits_notNegative _ _

/-- Nor is a sum of numbers that are not. -/
theorem add64_notNegative (nan : F64) {a b : F64} (ha : NotNegative a) (hb : NotNegative b) :
    NotNegative (add64 nan a b) := by
  obtain ⟨u, ha⟩ | ha := ha <;> obtain ⟨u', hb⟩ | hb := hb
  · have hsign : sumSign false false (signedUnits false u + signedUnits false u') = false := by
      rw [signedUnits_false, signedUnits_false, sumSign]
      split
      · rfl
      · exact decide_eq_false (by omega)
    rw [add64_finite ha hb, hsign]
    exact roundUnits_notNegative _ _
  · rw [(add64_inf_finite hb ha).2]
    exact .inr hb
  · rw [(add64_inf_finite ha hb).1]
    exact .inr ha
  · rw [add64_inf_inf ha hb, if_pos rfl]
    exact .inr ha

/-- The power of components that are no NaN (R173). -/
theorem power_notNegative (nan : F64) {re im : F64} (hre : isNaN re = false) (him : isNaN im = false) :
    NotNegative (power nan (re, im)) :=
  add64_notNegative nan (mul64_self_notNegative nan hre) (mul64_self_notNegative nan him)

/-- A NaN component makes the power NaN (R173). -/
theorem isNaN_power {nan re im : F64} (hnan : isNaN nan = true) (h : isNaN re = true ∨ isNaN im = true) :
    isNaN (power nan (re, im)) = true := by
  have hclass := (isNaN_iff nan).1 hnan
  rw [isNaN_iff, isNaN_iff] at h
  unfold power
  obtain hre | him := h
  · rwa [mul64_nan_left re hre, add64_nan_left _ hclass]
  · rwa [mul64_nan_left im him, add64_nan_right _ hclass]

/-- Settles O38: a square is not negative, nor is the sum of two. -/
theorem powerIsNeverNegative : Obligations.PowerIsNeverNegative := by
  unfold Obligations.PowerIsNeverNegative
  intro nan re im hnan p
  refine ⟨rfl, fun hre him => power_notNegative nan hre.isNaN_eq_false him.isNaN_eq_false,
    fun hp => ?_, isNaN_power hnan⟩
  by_contra hc
  rw [not_or, Bool.not_eq_true, Bool.not_eq_true] at hc
  have hnum := (power_notNegative nan hc.1 hc.2).isNaN_eq_false
  exact absurd hp (Bool.not_eq_true _ ▸ hnum)

end Sys2Proof.Machine
end

section
/-!
PROOFS. The display value: the number truncated, clamped to `[0, H]`.
-/
namespace Sys2Proof.Machine

theorem toDisplay_nan (h : Nat) {v : F64} (hv : isNaN v = true) : toDisplay h v = 0 := by
  simp [toDisplay, hv]

theorem toDisplay_inf_neg (h : Nat) {v : F64} (hv : classify v = .inf true) : toDisplay h v = 0 := by
  rw [toDisplay, if_pos (by rw [(le64_finite_inf hasValue_zero hv).2, Bool.or_true])]

theorem natAbs_natCast_lt {h : Nat} (hh : h < 2 ^ 53) : (h : Int).natAbs < 2 ^ 53 := by rwa [Int.natAbs_natCast]

theorem toDisplay_inf_pos {h : Nat} (hh : h < 2 ^ 53) {v : F64} (hv : classify v = .inf false) :
    toDisplay h v = h := by
  have hnum : isNaN v = false := by rw [isNaN_eq_false_iff, hv]; simp
  have hge := (le64_finite_inf (hasValue_f64OfInt (natAbs_natCast_lt hh)) hv).1
  rw [Bool.not_false] at hge
  rw [toDisplay, hnum, (le64_finite_inf hasValue_zero hv).2, if_neg (by decide), if_pos hge]

/-- Truncation of a positive number is its floor (R12). -/
theorem truncNat_eq_floor {v : F64} {x : ℝ} (hv : HasValue v x) (hx : 0 < x) : truncNat v = ⌊x⌋₊ := by
  obtain ⟨neg, u, hc, rfl⟩ := hv
  cases neg
  · rw [signedUnits_false, Int.cast_natCast, ← cast_unitsPerOne, Nat.floor_div_eq_div]
    simp only [truncNat, hc]
  · refine absurd hx (not_lt.2 (div_nonpos_of_nonpos_of_nonneg ?_ (by positivity)))
    rw [signedUnits_true, Int.cast_neg, Int.cast_natCast]
    exact neg_nonpos.2 (Nat.cast_nonneg u)

/-- The display value of a number (R174). -/
theorem toDisplay_eq_min {h : Nat} (hh : h < 2 ^ 53) {v : F64} {x : ℝ} (hv : HasValue v x) :
    toDisplay h v = min h ⌊x⌋₊ := by
  have hzero := le64_iff hv hasValue_zero
  have hheight := le64_iff (hasValue_f64OfInt (natAbs_natCast_lt hh)) hv
  rw [Int.cast_natCast] at hheight
  unfold toDisplay
  rw [hv.isNaN_eq_false, Bool.false_or]
  split
  case isTrue hle =>
    rw [Nat.floor_of_nonpos (hzero.1 hle), Nat.min_zero]
  case isFalse hle =>
    rw [hzero, not_le] at hle
    split
    case isTrue hge => rw [min_eq_left (Nat.le_floor (hheight.1 hge))]
    case isFalse hge =>
      rw [hheight, not_le] at hge
      rw [truncNat_eq_floor hv hle, min_eq_right (Nat.floor_le_of_le hge.le)]

theorem toDisplay_le {h : Nat} (hh : h < 2 ^ 53) (v : F64) : toDisplay h v ≤ h := by
  obtain hnan | ⟨neg, hinf⟩ | ⟨x, hx⟩ := classify_cases v
  · rw [toDisplay_nan h ((isNaN_iff v).2 hnan)]; exact Nat.zero_le h
  · cases neg
    · exact (toDisplay_inf_pos hh hinf).le
    · rw [toDisplay_inf_neg h hinf]; exact Nat.zero_le h
  · rw [toDisplay_eq_min hh hx]; exact min_le_left _ _

/-- The display value is monotone (R176). -/
theorem toDisplay_mono {h : Nat} (hh : h < 2 ^ 53) {v w : F64} (hle : le64 v w = true) :
    toDisplay h v ≤ toDisplay h w := by
  obtain hnan | ⟨neg, hinf⟩ | ⟨x, hx⟩ := classify_cases v
  · simp [le64, hnan] at hle
  · cases neg
    case true => rw [toDisplay_inf_neg h hinf]; exact Nat.zero_le _
    case false =>
      obtain hnan' | ⟨neg', hinf'⟩ | ⟨y, hy⟩ := classify_cases w
      · simp [le64, hinf, hnan'] at hle
      · have hpos : neg' = false := by simpa [le64, hinf, hinf'] using hle
        rw [toDisplay_inf_pos hh hinf, toDisplay_inf_pos hh (v := w) (hpos ▸ hinf')]
      · rw [(le64_finite_inf hy hinf).2] at hle
        exact absurd hle Bool.false_ne_true
  · obtain hnan' | ⟨neg', hinf'⟩ | ⟨y, hy⟩ := classify_cases w
    · obtain ⟨n, u, hc, -⟩ := hx
      simp [le64, hc, hnan'] at hle
    · have hpos : neg' = false := by
        obtain ⟨n, u, hc, -⟩ := hx
        simpa [le64, hc, hinf'] using hle
      rw [toDisplay_inf_pos hh (v := w) (hpos ▸ hinf')]
      exact toDisplay_le hh v
    · rw [toDisplay_eq_min hh hx, toDisplay_eq_min hh hy]
      exact min_le_min_left h (Nat.floor_mono ((le64_iff hx hy).1 hle))

/-- Settles O40: the display value is `min H ⌊x⌋`. -/
theorem displayValueIsClampedAndMonotone : Obligations.DisplayValueIsClampedAndMonotone := by
  unfold Obligations.DisplayValueIsClampedAndMonotone
  intro h v w hlegal
  have hh : h < 2 ^ 53 := by omega
  refine ⟨toDisplay_le hh v, toDisplay_mono hh, fun x hx => ?_, toDisplay_nan h, toDisplay_inf_pos hh,
    toDisplay_inf_neg h⟩
  rw [toDisplay_eq_min hh hx]
  exact ⟨fun hle => by rw [Nat.floor_of_nonpos hle, Nat.min_zero], fun hge => min_eq_left (Nat.le_floor hge),
    fun _ hlt => min_eq_right (Nat.floor_le_of_le hlt.le)⟩

end Sys2Proof.Machine
end

section
/-!
PROOFS. The log-power, and the command that shows it: whatever NaN arises in between, the same value is shown.
-/
namespace Sys2Proof.Machine

/-! ### The log-power -/

theorem hasValue_ten : HasValue 0x4024000000000000 10 := by
  refine ⟨false, 10 * unitsPerOne, by decide +kernel, ?_⟩
  rw [signedUnits_false, Int.cast_natCast, ← cast_unitsPerOne, Nat.cast_mul, mul_div_cancel_right₀ _ unitsPerOne_ne_zero,
    Nat.cast_ofNat]

theorem hasValue_epsPower : HasValue epsPower (1 / 2 ^ 32) := by
  refine ⟨false, 2 ^ 1042, by decide +kernel, ?_⟩
  rw [signedUnits_false, Int.cast_natCast, Nat.cast_pow, Nat.cast_ofNat]
  exact (two_pow_div_unitsPerOne rfl).symm

theorem isNaN_eq_false_of_lt64 {p q : F64} (h : lt64 p q = true) : isNaN p = false := by
  rw [isNaN_eq_false_iff]
  intro hp
  simp [lt64, hp] at h

theorem lt64_inf_finite {p a : F64} {x : ℝ} {neg : Bool} (hp : classify p = .inf neg) (ha : HasValue a x) :
    lt64 p a = neg := by
  obtain ⟨n, u, hc, -⟩ := ha
  simp only [lt64, hp, hc]

/-- A NaN power gives NaN (R174). -/
theorem logPower_nan (nan g b : F64) {p : F64} (hp : isNaN p = true) : logPower nan g b p = nan := by
  rw [logPower, if_pos hp]

/-- The log-power of a power that is no NaN (R174). -/
theorem logPower_eq (nan g b : F64) {p : F64} (hp : isNaN p = false) :
    logPower nan g b p =
      sub64 nan (mul64 nan g (mul64 nan ten64 (log10F64 (if lt64 p epsPower then epsPower else p)))) b := by
  rw [logPower, hp]
  exact if_neg Bool.false_ne_true

/-- Powers below the floor count as the floor (R174). -/
theorem logPower_floor (nan g b : F64) {p : F64} (hp : lt64 p epsPower = true) :
    logPower nan g b p = logPower nan g b epsPower := by
  rw [logPower_eq nan g b (isNaN_eq_false_of_lt64 hp), logPower_eq nan g b hasValue_epsPower.isNaN_eq_false, if_pos hp,
    ite_self]

/-- Settles O41: the definition written out, with the numbers its constants stand for. -/
theorem logPowerIsTenLogTimesGainMinusBaseline : Obligations.LogPowerIsTenLogTimesGainMinusBaseline := by
  unfold Obligations.LogPowerIsTenLogTimesGainMinusBaseline
  refine ⟨hasValue_ten, hasValue_epsPower, fun nan g b p h => ⟨logPower_eq nan g b, logPower_floor nan g b,
    fun x hx => lt64_iff hx hasValue_epsPower, fun hinf => lt64_inf_finite hinf hasValue_epsPower,
    fun hnan hp => ?_⟩⟩
  rw [logPower_nan nan g b hp]
  exact ⟨hnan, toDisplay_nan h hnan⟩

/-! ### Which NaN arises makes no difference -/

/-- The NaN argument of a sum is its result, or has no part in it (R13, R169). -/
theorem add64_nan_cases (a b : F64) : (∀ nan, add64 nan a b = nan) ∨ ∃ r, ∀ nan, add64 nan a b = r := by
  cases ha : classify a with
  | nan => exact .inl fun _ => add64_nan_left b ha
  | inf na =>
    cases hb : classify b with
    | nan => exact .inl fun _ => add64_nan_right a hb
    | inf nb =>
      by_cases h : na = nb
      · exact .inr ⟨a, fun _ => by rw [add64_inf_inf ha hb, if_pos h]⟩
      · exact .inl fun _ => by rw [add64_inf_inf ha hb, if_neg h]
    | fin nb ub => exact .inr ⟨a, fun _ => (add64_inf_finite ha hb).1⟩
  | fin na ua =>
    cases hb : classify b with
    | nan => exact .inl fun _ => add64_nan_right a hb
    | inf nb => exact .inr ⟨b, fun _ => (add64_inf_finite hb ha).2⟩
    | fin nb ub => exact .inr ⟨_, fun _ => add64_finite ha hb⟩

/-- The same of a product. -/
theorem mul64_nan_cases (a b : F64) : (∀ nan, mul64 nan a b = nan) ∨ ∃ r, ∀ nan, mul64 nan a b = r := by
  cases ha : classify a with
  | nan => exact .inl fun _ => mul64_nan_left b ha
  | inf na =>
    cases hb : classify b with
    | nan => exact .inl fun _ => mul64_nan_right a hb
    | inf nb => exact .inr ⟨_, fun _ => mul64_inf_inf ha hb⟩
    | fin nb ub =>
      by_cases h : ub = 0
      · exact .inl fun _ => by rw [(mul64_inf_finite ha hb).1, if_pos h]
      · exact .inr ⟨_, fun _ => by rw [(mul64_inf_finite ha hb).1, if_neg h]⟩
  | fin na ua =>
    cases hb : classify b with
    | nan => exact .inl fun _ => mul64_nan_right a hb
    | inf nb =>
      by_cases h : ua = 0
      · exact .inl fun _ => by rw [(mul64_inf_finite hb ha).2, if_pos h]
      · exact .inr ⟨_, fun _ => by rw [(mul64_inf_finite hb ha).2, if_neg h]⟩
    | fin nb ub => exact .inr ⟨_, fun _ => mul64_finite ha hb⟩

/-- The same pattern, or both NaN. -/
def SameButNaN (a a' : F64) : Prop := a = a' ∨ isNaN a = true ∧ isNaN a' = true

theorem SameButNaN.refl (a : F64) : SameButNaN a a := .inl rfl

/-- An operation whose NaN argument is its result, or has no part in it. -/
theorem SameButNaN.of_cases {f : F64 → F64} (hf : (∀ nan, f nan = nan) ∨ ∃ r, ∀ nan, f nan = r) {nan nan' : F64}
    (hnan : isNaN nan = true) (hnan' : isNaN nan' = true) : SameButNaN (f nan) (f nan') := by
  obtain hf | ⟨r, hf⟩ := hf
  · rw [hf, hf]; exact .inr ⟨hnan, hnan'⟩
  · rw [hf, hf]; exact .refl r

theorem SameButNaN.isNaN_eq {a a' : F64} (h : SameButNaN a a') : isNaN a = isNaN a' := by
  obtain rfl | ⟨ha, ha'⟩ := h
  · rfl
  · rw [ha, ha']

/-- A NaN shows as 0, whichever it is (R174). -/
theorem SameButNaN.toDisplay_eq {a a' : F64} (h : SameButNaN a a') (height : Nat) :
    toDisplay height a = toDisplay height a' := by
  obtain rfl | ⟨ha, ha'⟩ := h
  · rfl
  · rw [toDisplay_nan height ha, toDisplay_nan height ha']

section
variable {nan nan' a a' b b' : F64} (hnan : isNaN nan = true) (hnan' : isNaN nan' = true)
include hnan hnan'

theorem add64_sameButNaN (ha : SameButNaN a a') (hb : SameButNaN b b') :
    SameButNaN (add64 nan a b) (add64 nan' a' b') := by
  obtain rfl | ⟨ha, ha'⟩ := ha
  · obtain rfl | ⟨hb, hb'⟩ := hb
    · exact .of_cases (add64_nan_cases a b) hnan hnan'
    · rw [isNaN_iff] at hb hb'
      rw [add64_nan_right a hb, add64_nan_right a hb']
      exact .inr ⟨hnan, hnan'⟩
  · rw [isNaN_iff] at ha ha'
    rw [add64_nan_left b ha, add64_nan_left b' ha']
    exact .inr ⟨hnan, hnan'⟩

theorem mul64_sameButNaN (a : F64) (hb : SameButNaN b b') : SameButNaN (mul64 nan a b) (mul64 nan' a b') := by
  obtain rfl | ⟨hb, hb'⟩ := hb
  · exact .of_cases (mul64_nan_cases a b) hnan hnan'
  · rw [isNaN_iff] at hb hb'
    rw [mul64_nan_right a hb, mul64_nan_right a hb']
    exact .inr ⟨hnan, hnan'⟩

theorem power_sameButNaN (z : F64 × F64) : SameButNaN (power nan z) (power nan' z) :=
  add64_sameButNaN hnan hnan' (mul64_sameButNaN hnan hnan' z.1 (.refl _)) (mul64_sameButNaN hnan hnan' z.2 (.refl _))

/-- The log-power of one power, by one gain and one baseline (R174). -/
theorem logPower_sameButNaN (g b p : F64) : SameButNaN (logPower nan g b p) (logPower nan' g b p) := by
  cases hp : isNaN p
  · rw [logPower_eq nan g b hp, logPower_eq nan' g b hp]
    exact add64_sameButNaN hnan hnan'
      (mul64_sameButNaN hnan hnan' g (mul64_sameButNaN hnan hnan' ten64 (.refl _))) (.refl _)
  · rw [logPower_nan nan g b hp, logPower_nan nan' g b hp]
    exact .inr ⟨hnan, hnan'⟩

end

/-- Gain and baseline are no NaN, so no NaN argument shows in them (R172). -/
theorem q16Value_congr (nan nan' : F64) (d : Word) : q16Value nan d = q16Value nan' d := by
  have hsmall : d.toInt.natAbs < 2 ^ 53 := (natAbs_toInt_word_le d).trans_lt (by norm_num)
  exact mul64_finite_congr (hasValue_f64OfInt hsmall).isFinite hasValue_twoPowMinus16.isFinite

/-! ### LOGP -/

theorem isNaN_quietNaN : isNaN quietNaN = true := by decide

/-- The value LOGP shows for an entry, with any NaN in the place of the model's (R174, R175). -/
theorem toDisplay_logEntry {nan : F64} (hnan : isNaN nan = true) (s : State) (i : Nat) :
    toDisplay s.build.height (logPower quietNaN (q16Value quietNaN s.gain) (q16Value quietNaN s.baseline)
        (power quietNaN (workEntry s i))) =
      toDisplay s.build.height (logPower nan (q16Value nan s.gain) (q16Value nan s.baseline)
        (power nan (workEntry s i))) := by
  rw [q16Value_congr quietNaN nan s.gain, q16Value_congr quietNaN nan s.baseline]
  obtain hpower | ⟨hp, hp'⟩ := power_sameButNaN isNaN_quietNaN hnan (workEntry s i)
  · rw [hpower]
    exact (logPower_sameButNaN isNaN_quietNaN hnan _ _ _).toDisplay_eq _
  · rw [logPower_nan _ _ _ hp, logPower_nan _ _ _ hp', toDisplay_nan _ isNaN_quietNaN, toDisplay_nan _ hnan]

/-- A legal display height fits a RES entry (R8). -/
theorem height_le {b : Build} (h : b.legal = true) : b.height ≤ 32767 := by
  simp only [Build.legal, Build.heightLegal, Bool.and_eq_true, decide_eq_true_eq] at h
  exact h.2.2

/-- A RES entry holds a display value unchanged (R175). -/
theorem toInt_ofNat_toDisplay {h : Nat} (hh : h ≤ 32767) (v : F64) :
    (BitVec.ofNat 16 (toDisplay h v)).toInt = (toDisplay h v : Nat) := by
  have hle := toDisplay_le (h := h) (by omega) v
  rw [BitVec.toInt_eq_toNat_of_lt] <;> rw [BitVec.toNat_ofNat] <;> omega

theorem toInt_logEntry {nan : F64} (hnan : isNaN nan = true) {s : State} (hlegal : s.build.legal = true) (i : Nat) :
    (logEntry s i).toInt = (toDisplay s.build.height (logPower nan (q16Value nan s.gain) (q16Value nan s.baseline)
        (power nan (workEntry s i))) : Nat) := by
  rw [logEntry, toInt_ofNat_toDisplay (height_le hlegal), toDisplay_logEntry hnan]

theorem runLogp_sameBytesOutside (s : State) :
    SameBytesOutside s (runLogp s) resBase (2 * transformLength s.build) :=
  sameBytesOutside_of_forall (ramByte_runLogp_outside s)

/-- Settles O42, entry by entry from the log-power with any NaN. -/
theorem logpWritesEveryResult : Obligations.LogpWritesEveryResult := by
  unfold Obligations.LogpWritesEveryResult
  refine ⟨issuedBy_encodeWord .logp, fun s hlegal => ?_⟩
  have hexec : exec .logp s = .next (completeCommand (runLogp s)) := rfl
  refine ⟨_, hexec, exec_completed hexec, (exec_keepsHostInputs hexec).settings, rfl, rfl,
    runLogp_sameBytesOutside s, fun i hi => ?entries⟩
  case entries =>
    rw [resEntry_completeCommand, resEntry_runLogp s i hi]
    have hvalue := toInt_logEntry isNaN_quietNaN hlegal i
    have hle := toDisplay_le (h := s.build.height) (by have := height_le hlegal; omega)
      (logPower quietNaN (q16Value quietNaN s.gain) (q16Value quietNaN s.baseline) (power quietNaN (workEntry s i)))
    refine ⟨by omega, by omega, fun nan hnan =>
      ⟨fun (hp : isNaN (power nan (workEntry s i)) = true) => ?nanPower,
        fun (hp : isNaN (power nan (workEntry s i)) = false) => ?otherPower⟩⟩
    case nanPower =>
      apply BitVec.eq_of_toInt_eq
      rw [toInt_logEntry hnan hlegal, logPower_nan _ _ _ hp, toDisplay_nan _ hnan]
      rfl
    case otherPower =>
      rw [toInt_logEntry hnan hlegal, logPower_eq _ _ _ hp]
      rfl

end Sys2Proof.Machine
end

section
/-!
PROOFS. WIN: every product is one of finite values, so it is no NaN.
-/
namespace Sys2Proof.Machine

theorem sample_lt (b : Byte) : b.toInt.natAbs < 2 ^ 53 := (natAbs_toInt_byte_le b).trans_lt (by norm_num)

/-- The entry of a supplied pair, with any NaN in the place of the model's (R160). -/
theorem winEntry_supplied {s : State} (hlegal : s.build.legal = true) {k : Nat} (hk : k < transformLength s.build)
    (hsupplied : k < pairCount s) (nan : F64) :
    winEntry s k = (mul64 nan (f64OfInt (sampleI s k)) (winRom s.build k),
      mul64 nan (f64OfInt (sampleQ s k)) (winRom s.build k)) := by
  obtain ⟨x, hx, -⟩ := winRom_value hlegal hk
  have hproduct {n : Int} (hn : n.natAbs < 2 ^ 53) :
      mul64 quietNaN (f64OfInt n) (winRom s.build k) = mul64 nan (f64OfInt n) (winRom s.build k) :=
    mul64_finite_congr (hasValue_f64OfInt hn).isFinite hx.isFinite
  rw [winEntry, if_pos hsupplied, hproduct (n := sampleI s k) (sample_lt _), hproduct (n := sampleQ s k) (sample_lt _)]

theorem winEntry_past_pairs {s : State} {k : Nat} (h : pairCount s ≤ k) : winEntry s k = (0, 0) := by
  rw [winEntry, if_neg (not_lt.2 h)]

theorem runWin_sameBytesOutside (s : State) :
    SameBytesOutside s (runWin s) workBase (16 * transformLength s.build) :=
  sameBytesOutside_of_forall (ramByte_runWin_outside s)

@[simp] theorem workEntry_completeCommand (s : State) (k : Nat) :
    workEntry (completeCommand s) k = workEntry s k := rfl

/-- Settles O31, entry by entry from the two products of a pair. -/
theorem winWritesEveryWorkEntry : Obligations.WinWritesEveryWorkEntry := by
  unfold Obligations.WinWritesEveryWorkEntry
  refine ⟨issuedBy_encodeWord .win, fun s hlegal => ?_⟩
  have hexec : exec .win s = .next (completeCommand (runWin s)) := rfl
  refine ⟨_, hexec, exec_completed hexec, (exec_keepsHostInputs hexec).settings, rfl, rfl,
    runWin_sameBytesOutside s, fun k hk => ?entries⟩
  case entries =>
    rw [workEntry_completeCommand, workEntry_runWin s k hk, ← pairCount_eq_suppliedPairs]
    exact ⟨fun hsupplied nan => winEntry_supplied hlegal hk hsupplied nan, winEntry_past_pairs⟩

end Sys2Proof.Machine
end

section
/-!
PROOFS. The transform of windowed samples: how large its numbers can get. Rounding does not leave a bound that is
a power of two, so a stage makes a bound at most four times as large.
-/
namespace Sys2Proof.Machine

/-! ### Operations on numbers, rounded -/

/-- The sum of two numbers is rounded correctly, below the overflow bound (R13). -/
theorem add64_isRounded (nan : F64) {a b : F64} {x y : ℝ} (ha : HasValue a x) (hb : HasValue b y)
    (hrange : InRoundingRange (x + y)) : IsRounded (x + y) (add64 nan a b) := by
  obtain ⟨na, ua, hca, rfl⟩ := ha
  obtain ⟨nb, ub, hcb, rfl⟩ := hb
  have hc : (0 : ℝ) < 2 ^ 1074 := by positivity
  rw [add64_finite hca hcb]
  rw [← add_div, ← Int.cast_add] at hrange ⊢
  generalize signedUnits na ua + signedUnits nb ub = n at *
  refine roundUnits_isRounded one_pos ?size ?sign hrange
  case size =>
    rw [abs_div, abs_of_pos hc, div_mul_cancel₀ _ hc.ne', Nat.cast_one, div_one, Nat.cast_natAbs, Int.cast_abs]
  case sign =>
    unfold sumSign
    rcases lt_trichotomy n 0 with h | rfl | h
    · rw [if_neg h.ne, decide_eq_true h, if_pos rfl]
      exact div_nonpos_of_nonpos_of_nonneg (by exact_mod_cast h.le) hc.le
    · simp
    · rw [if_neg h.ne', decide_eq_false h.not_gt, if_neg Bool.false_ne_true]
      exact div_nonneg (by exact_mod_cast h.le) hc.le

theorem HasValue.neg64 {b : F64} {y : ℝ} (hb : HasValue b y) : HasValue (neg64 b) (-y) := by
  obtain ⟨nb, ub, hcb, rfl⟩ := hb
  exact ⟨!nb, ub, classify_neg64 hcb, by rw [signedUnits_not, Int.cast_neg, neg_div]⟩

/-- The difference of two numbers is rounded correctly. -/
theorem sub64_isRounded (nan : F64) {a b : F64} {x y : ℝ} (ha : HasValue a x) (hb : HasValue b y)
    (hrange : InRoundingRange (x - y)) : IsRounded (x - y) (sub64 nan a b) := by
  rw [sub_eq_add_neg] at *
  exact add64_isRounded nan ha hb.neg64 hrange

theorem signedUnits_mul (na nb : Bool) (ua ub : Nat) :
    signedUnits na ua * signedUnits nb ub = signedUnits (na != nb) (ua * ub) := by
  cases na <;> cases nb <;> simp [signedUnits]

theorem signedUnits_sign (neg : Bool) (u : Nat) : if neg then signedUnits neg u ≤ 0 else 0 ≤ signedUnits neg u := by
  cases neg <;> simp [signedUnits]

/-- The product of two numbers is rounded correctly. -/
theorem mul64_isRounded (nan : F64) {a b : F64} {x y : ℝ} (ha : HasValue a x) (hb : HasValue b y)
    (hrange : InRoundingRange (x * y)) : IsRounded (x * y) (mul64 nan a b) := by
  obtain ⟨na, ua, hca, rfl⟩ := ha
  obtain ⟨nb, ub, hcb, rfl⟩ := hb
  rw [mul64_finite hca hcb]
  rw [div_mul_div_comm, ← Int.cast_mul, signedUnits_mul] at hrange ⊢
  have hsign := signedUnits_sign (na != nb) (ua * ub)
  have hsize := natAbs_signedUnits (na != nb) (ua * ub)
  generalize signedUnits (na != nb) (ua * ub) = n at *
  have hc : (0 : ℝ) < 2 ^ 1074 := by positivity
  refine roundUnits_isRounded unitsPerOne_pos ?size ?sign hrange
  case size =>
    rw [← hsize, cast_unitsPerOne, abs_div, abs_of_pos (mul_pos hc hc), Nat.cast_natAbs, Int.cast_abs]
    field_simp
  case sign =>
    split
    case isTrue h =>
      rw [if_pos h] at hsign
      exact div_nonpos_of_nonpos_of_nonneg (by exact_mod_cast hsign) (mul_pos hc hc).le
    case isFalse h =>
      rw [if_neg h] at hsign
      exact div_nonneg (by exact_mod_cast hsign) (mul_pos hc hc).le

/-! ### Bounds -/

/-- The pattern is a number of size at most `B`. -/
def Within (v : F64) (B : ℝ) : Prop := ∃ x, HasValue v x ∧ |x| ≤ B

theorem Within.mono {v : F64} {B C : ℝ} (h : Within v B) (hle : B ≤ C) : Within v C := by
  obtain ⟨x, hx, hxB⟩ := h
  exact ⟨x, hx, hxB.trans hle⟩

theorem Within.isFinite {v : F64} {B : ℝ} (h : Within v B) : IsFinite v := by
  obtain ⟨x, hx, -⟩ := h
  exact hx.isFinite

/-- A power of two is a number. -/
theorem exists_hasValue_two_pow {k : Nat} (hk : k ≤ 970) : ∃ v, HasValue v (2 ^ k) := by
  refine ⟨_, false, _, classify_roundUnits_of_small false (m := 1) (k := k + 1074) (by norm_num) (by omega), ?_⟩
  rw [signedUnits_false, Int.cast_natCast, one_mul, Nat.cast_pow, Nat.cast_ofNat, pow_add,
    mul_div_cancel_right₀ _ (by positivity)]

section
variable {k : Nat} (hk : k ≤ 970) {x : ℝ} (hx : |x| ≤ 2 ^ k)
include hk hx

theorem inRoundingRange_of_le : InRoundingRange x := by
  obtain ⟨v, hv⟩ := exists_hasValue_two_pow hk
  have h := hv.inRoundingRange
  unfold InRoundingRange at *
  exact hx.trans_lt ((le_abs_self _).trans_lt h)

/-- Rounding does not leave a bound that is a power of two. -/
theorem IsRounded.within {v : F64} (h : IsRounded x v) : Within v (2 ^ k) := by
  obtain ⟨w, hw⟩ := exists_hasValue_two_pow hk
  obtain ⟨hlow, hhigh⟩ := abs_le.1 hx
  obtain ⟨y, hy, hly, hyr⟩ := h.mem_interval hw.neg64 hw hlow hhigh
  exact ⟨y, hy, abs_le.2 ⟨hly, hyr⟩⟩

end

section
variable (nan : F64) {a b : F64} {k : Nat}

theorem add64_within (hk : k + 1 ≤ 970) (ha : Within a (2 ^ k)) (hb : Within b (2 ^ k)) :
    Within (add64 nan a b) (2 ^ (k + 1)) := by
  obtain ⟨x, hx, hxk⟩ := ha
  obtain ⟨y, hy, hyk⟩ := hb
  have hsum : |x + y| ≤ 2 ^ (k + 1) := by
    rw [pow_succ]
    linarith [abs_add_le x y]
  exact (add64_isRounded nan hx hy (inRoundingRange_of_le hk hsum)).within hk hsum

theorem sub64_within (hk : k + 1 ≤ 970) (ha : Within a (2 ^ k)) (hb : Within b (2 ^ k)) :
    Within (sub64 nan a b) (2 ^ (k + 1)) := by
  obtain ⟨y, hy, hyk⟩ := hb
  exact add64_within nan hk ha ⟨-y, hy.neg64, by rwa [abs_neg]⟩

theorem mul64_within (hk : k ≤ 970) (ha : Within a (2 ^ k)) (hb : Within b 1) :
    Within (mul64 nan a b) (2 ^ k) := by
  obtain ⟨x, hx, hxk⟩ := ha
  obtain ⟨y, hy, hy1⟩ := hb
  have hproduct : |x * y| ≤ 2 ^ k := by
    rw [abs_mul]
    exact (mul_le_of_le_one_right (abs_nonneg x) hy1).trans hxk
  exact (mul64_isRounded nan hx hy (inRoundingRange_of_le hk hproduct)).within hk hproduct

end

/-! ### The butterflies -/

/-- Both components are numbers of size at most `B`. -/
def PairWithin (B : ℝ) (z : F64 × F64) : Prop := Within z.1 B ∧ Within z.2 B

theorem PairWithin.mono {B C : ℝ} {z : F64 × F64} (h : PairWithin B z) (hle : B ≤ C) : PairWithin C z :=
  ⟨h.1.mono hle, h.2.mono hle⟩

/-- A butterfly with a twiddle in `[-1, 1]` makes a bound at most four times as large (R167). -/
theorem butterfly_within (draws site : Nat) {k : Nat} (hk : k + 2 ≤ 970) {w u v : F64 × F64} (hw : PairWithin 1 w)
    (hu : PairWithin (2 ^ k) u) (hv : PairWithin (2 ^ k) v) :
    PairWithin (2 ^ (k + 2)) (butterfly (blockArith draws) site w u v).1 ∧
    PairWithin (2 ^ (k + 2)) (butterfly (blockArith draws) site w u v).2 := by
  have hdouble : (2 : ℝ) ^ k ≤ 2 ^ (k + 1) := pow_le_pow_right₀ (by norm_num) (by omega)
  have hmul (nan : F64) {a b : F64} (ha : Within a (2 ^ k)) (hb : Within b 1) : Within (mul64 nan a b) (2 ^ k) :=
    mul64_within nan (by omega) ha hb
  have htr (n n' n'' : F64) : Within (sub64 n (mul64 n' v.1 w.1) (mul64 n'' v.2 w.2)) (2 ^ (k + 1)) :=
    sub64_within n (by omega) (hmul n' hv.1 hw.1) (hmul n'' hv.2 hw.2)
  have hti (n n' n'' : F64) : Within (add64 n (mul64 n' v.1 w.2) (mul64 n'' v.2 w.1)) (2 ^ (k + 1)) :=
    add64_within n (by omega) (hmul n' hv.1 hw.2) (hmul n'' hv.2 hw.1)
  have hu' := hu.mono hdouble
  exact ⟨⟨add64_within _ (by omega) hu'.1 (htr _ _ _), add64_within _ (by omega) hu'.2 (hti _ _ _)⟩,
    ⟨sub64_within _ (by omega) hu'.1 (htr _ _ _), sub64_within _ (by omega) hu'.2 (hti _ _ _)⟩⟩

/-! ### Stages -/

/-- Every place is one of the two of a butterfly of the stage. -/
theorem exists_butterfly {bits s p : Nat} (hs : 1 ≤ s) (hbits : s ≤ bits) (hp : p < 2 ^ bits) :
    ∃ g j, g < 2 ^ bits / 2 ^ s ∧ j < 2 ^ s / 2 ∧ (p = g * 2 ^ s + j ∨ p = g * 2 ^ s + j + 2 ^ s / 2) := by
  have hpos : 0 < 2 ^ s := Nat.two_pow_pos s
  have heven : 2 * (2 ^ s / 2) = 2 ^ s := by
    obtain ⟨n, rfl⟩ := Nat.exists_eq_add_of_le' hs
    rw [pow_succ]; omega
  have hg : p / 2 ^ s < 2 ^ bits / 2 ^ s := Nat.div_lt_div_of_lt_of_dvd (pow_dvd_pow 2 hbits) hp
  have hsplit : p / 2 ^ s * 2 ^ s + p % 2 ^ s = p := Nat.div_add_mod' p _
  have hr := Nat.mod_lt p hpos
  by_cases hlow : p % 2 ^ s < 2 ^ s / 2
  · exact ⟨p / 2 ^ s, p % 2 ^ s, hg, hlow, .inl hsplit.symm⟩
  · exact ⟨p / 2 ^ s, p % 2 ^ s - 2 ^ s / 2, hg, by omega, .inr (by omega)⟩

/-- What holds of both outputs of every butterfly of a stage holds of every element after the stage. -/
theorem forall_fftStage {α : Type} {A : Arith α} {P Q : α × α → Prop} {bits s : Nat} {tw : Nat → α × α}
    {l : List (α × α)} (hs : 1 ≤ s) (hbits : s ≤ bits) (hlength : l.length = 2 ^ bits)
    (hstep : ∀ site k u v, k < 2 ^ bits / 2 → P u → P v →
      Q (butterfly A site (tw k) u v).1 ∧ Q (butterfly A site (tw k) u v).2)
    (hl : ∀ p, p < 2 ^ bits → P (l.getD p (A.zero, A.zero))) :
    ∀ p, p < 2 ^ bits → Q ((fftStage A bits tw l s).getD p (A.zero, A.zero)) := by
  intro p hp
  obtain ⟨g, j, hg, hj, hplace⟩ := exists_butterfly hs hbits hp
  have hin : g * 2 ^ s + j + 2 ^ s / 2 < 2 ^ bits := by
    calc g * 2 ^ s + j + 2 ^ s / 2 < g * 2 ^ s + 2 ^ s := by omega
      _ = (g + 1) * 2 ^ s := (Nat.succ_mul g _).symm
      _ ≤ 2 ^ bits / 2 ^ s * 2 ^ s := Nat.mul_le_mul_right _ hg
      _ ≤ 2 ^ bits := Nat.div_mul_le_self _ _
  have htwiddle : j * (2 ^ bits / 2 ^ s) < 2 ^ bits / 2 := by
    obtain ⟨n, rfl⟩ := Nat.exists_eq_add_of_le' hs
    obtain ⟨m, rfl⟩ := Nat.exists_eq_add_of_le hbits
    rw [pow_succ, Nat.mul_div_cancel _ Nat.two_pos] at hj
    rw [Nat.pow_div (by omega) Nat.two_pos, show n + 1 + m - (n + 1) = m by omega, show n + 1 + m = n + m + 1 by omega,
      pow_succ, Nat.mul_div_cancel _ Nat.two_pos, pow_add]
    exact Nat.mul_lt_mul_of_pos_right hj (Nat.two_pow_pos m)
  have hpair := pairAt_fftStage A bits tw hg hj hlength rfl
  obtain ⟨hfirst, hsecond⟩ := hstep (siteOf s (g * 2 ^ s + j)) _ _ _ htwiddle (hl (g * 2 ^ s + j) (by omega))
    (hl _ hin)
  rw [← hpair] at hfirst hsecond
  obtain rfl | rfl := hplace
  · exact hfirst
  · exact hsecond

/-! ### The transform -/

section
variable {α : Type} (A : Arith α) (bits : Nat) (tw : Nat → α × α) (l : List (α × α))

/-- The first `n` stages (R165, step 2). -/
def stagesUpTo (n : Nat) : List (α × α) := (List.range n).foldl (fun l s => fftStage A bits tw l (s + 1)) l

theorem stagesUpTo_succ (n : Nat) :
    stagesUpTo A bits tw l (n + 1) = fftStage A bits tw (stagesUpTo A bits tw l n) (n + 1) := by
  rw [stagesUpTo, List.range_succ, List.foldl_append, List.foldl_cons, List.foldl_nil, stagesUpTo]

@[simp] theorem length_stagesUpTo (n : Nat) : (stagesUpTo A bits tw l n).length = l.length :=
  length_foldl_of_step _ (fun l s => length_fftStage A bits tw l (s + 1)) _ l

theorem transform_eq_stagesUpTo :
    transform A bits tw l = stagesUpTo A bits tw (bitrevSwaps (A.zero, A.zero) bits l) bits := rfl

end

/-- The bound after `n` stages. -/
theorem stagesUpTo_within (draws : Nat) {bits k n : Nat} {tw : Nat → F64 × F64} {l : List (F64 × F64)} (hn : n ≤ bits)
    (hk : k + 2 * n ≤ 970) (hlength : l.length = 2 ^ bits) (htw : ∀ i, i < 2 ^ bits / 2 → PairWithin 1 (tw i))
    (hl : ∀ p, p < 2 ^ bits → PairWithin (2 ^ k) (l.getD p (0, 0))) :
    ∀ p, p < 2 ^ bits →
      PairWithin (2 ^ (k + 2 * n)) ((stagesUpTo (blockArith draws) bits tw l n).getD p (0, 0)) := by
  induction n with
  | zero => exact hl
  | succ n ih =>
    rw [stagesUpTo_succ]
    exact forall_fftStage (A := blockArith draws) (by omega) hn (by simpa using hlength)
      (fun site i u v hi hu hv => butterfly_within draws site (by omega) (htw i hi) hu hv) (ih (by omega) (by omega))

/-- The transform of numbers that are not large is finite. -/
theorem transform_within (draws : Nat) {bits k : Nat} {tw : Nat → F64 × F64} {l : List (F64 × F64)}
    (hk : k + 2 * bits ≤ 970) (hlength : l.length = 2 ^ bits) (htw : ∀ i, i < 2 ^ bits / 2 → PairWithin 1 (tw i))
    (hl : ∀ p, p < 2 ^ bits → PairWithin (2 ^ k) (l.getD p (0, 0))) {p : Nat} (hp : p < 2 ^ bits) :
    PairWithin (2 ^ (k + 2 * bits)) ((transform (blockArith draws) bits tw l).getD p (0, 0)) := by
  rw [transform_eq_stagesUpTo]
  refine stagesUpTo_within draws le_rfl hk (by simpa using hlength) htw (fun q hq => ?_) p hp
  have hswap := getD_bitrevSwaps (0, 0) hlength hq
  exact hswap ▸ hl _ (bitrev_lt bits q)

/-! ### WIN, then FFT -/

/-- A windowed sample is no larger than the sample (R151, R160). -/
theorem winEntry_within {s : State} (hlegal : s.build.legal = true) {k : Nat} (hk : k < transformLength s.build) :
    PairWithin (2 ^ 7) (winEntry s k) := by
  obtain ⟨x, hx, hx0, hx1⟩ := winRom_value hlegal hk
  have hwindow : Within (winRom s.build k) 1 := ⟨x, hx, by rwa [abs_of_nonneg hx0]⟩
  have hsample (b : Byte) : Within (f64OfInt b.toInt) (2 ^ 7) := by
    refine ⟨_, hasValue_f64OfInt (sample_lt b), ?_⟩
    have hle : |b.toInt| ≤ 2 ^ 7 := by
      rw [Int.abs_eq_natAbs]
      exact_mod_cast natAbs_toInt_byte_le b
    exact_mod_cast hle
  have hzero : Within 0 (2 ^ 7) := ⟨0, hasValue_zero, by rw [abs_zero]; positivity⟩
  rcases lt_or_ge k (pairCount s) with h | h
  · rw [winEntry_supplied hlegal hk h quietNaN]
    exact ⟨mul64_within _ (by norm_num) (hsample _) hwindow, mul64_within _ (by norm_num) (hsample _) hwindow⟩
  · rw [winEntry_past_pairs h]
    exact ⟨hzero, hzero⟩

theorem getD_workList (s : State) {k : Nat} (hk : k < transformLength s.build) (z : F64 × F64) :
    (workList s).getD k z = workEntry s k := by
  simp [workList, hk]

/-- Settles O36: a windowed sample is at most 128, and 16 stages multiply that by at most `4^16`. -/
theorem transformOfWindowedSamplesIsFinite : Obligations.TransformOfWindowedSamplesIsFinite := by
  unfold Obligations.TransformOfWindowedSamplesIsFinite
  intro s hlegal
  refine ⟨_, _, rfl, rfl, fun k hk => ?_⟩
  have hlog : s.build.log2n ≤ 16 := by
    simp only [Build.legal, Build.log2nLegal, Bool.and_eq_true, decide_eq_true_eq] at hlegal
    exact hlegal.1.1.2
  rw [workEntry_completeCommand]
  generalize ht : completeCommand (runWin s) = t
  have hbuild : t.build = s.build := by rw [← ht]; simp
  have hentries (p : Nat) (hp : p < 2 ^ s.build.log2n) : PairWithin (2 ^ 7) ((workList t).getD p (0, 0)) := by
    rw [getD_workList t (by rw [hbuild]; exact hp), ← ht, workEntry_completeCommand, workEntry_runWin s p hp]
    exact winEntry_within hlegal hp
  have hresult := transform_within t.draws (bits := s.build.log2n) (k := 7) (tw := twRom s.build) (l := workList t)
    (by omega) (by rw [length_workList, hbuild, transformLength]) (fun i hi => twRom_value hlegal hi) hentries hk
  rw [workEntry_runFft t k (by rw [hbuild]; exact hk), ← List.getD_eq_getElem _ (0, 0)]
  rw [← hbuild] at hresult
  exact ⟨hresult.1.isFinite, hresult.2.isFinite⟩

end Sys2Proof.Machine
end

section
/-!
PROOFS. The transform in exact arithmetic is the discrete Fourier transform: after stage `s` each group of `2^s`
places holds the transform of the elements one residue class of the input is made of, and a butterfly joins two of
these classes.
-/
namespace Sys2Proof.Machine
open Finset (range)

/-! ### Roots of unity -/

/-- `e^(-j 2 pi k / 2^s)`. -/
noncomputable def unitRoot (s k : Nat) : ℂ := Complex.exp (-(2 * Real.pi * Complex.I * k / 2 ^ s))

theorem unitRoot_add (s j k : Nat) : unitRoot s (j + k) = unitRoot s j * unitRoot s k := by
  rw [unitRoot, unitRoot, unitRoot, ← Complex.exp_add]
  congr 1
  push_cast
  ring

theorem unitRoot_mul_two_pow (s m k : Nat) : unitRoot (s + m) (k * 2 ^ m) = unitRoot s k := by
  rw [unitRoot, unitRoot, pow_add]
  congr 2
  push_cast
  field_simp

theorem unitRoot_half (s : Nat) : unitRoot (s + 1) (2 ^ s) = -1 := by
  have h : -(2 * Real.pi * Complex.I * (2 ^ s : Nat) / 2 ^ (s + 1)) = -(Real.pi * Complex.I) := by
    push_cast
    field_simp
    ring
  rw [unitRoot, h, Complex.exp_neg, Complex.exp_pi_mul_I]
  norm_num

theorem unitRoot_full (s k : Nat) : unitRoot s (k * 2 ^ s) = 1 := by
  have h := unitRoot_mul_two_pow 0 s k
  have hone : unitRoot 0 k = 1 := by
    rw [unitRoot, Complex.exp_eq_one_iff]
    refine ⟨-k, ?_⟩
    push_cast
    ring
  rwa [Nat.zero_add, hone] at h

/-! ### The transform of a residue class -/

/-- The transform, of length `2^s`, of the elements `step` apart from `r` on. -/
noncomputable def partialDft (x : Nat → ℂ) (s step r j : Nat) : ℂ :=
  ∑ n ∈ range (2 ^ s), x (r + step * n) * unitRoot s (j * n)

theorem sum_range_two_mul (f : Nat → ℂ) (m : Nat) :
    ∑ n ∈ range (2 * m), f n = ∑ n ∈ range m, f (2 * n) + ∑ n ∈ range m, f (2 * n + 1) := by
  induction m with
  | zero => simp
  | succ m ih =>
    rw [Nat.mul_succ, Finset.sum_range_succ, Finset.sum_range_succ, ih, Finset.sum_range_succ, Finset.sum_range_succ]
    ring

/-- Even and odd places: the two halves of a decimation in time. -/
theorem partialDft_succ (x : Nat → ℂ) (s step r j : Nat) :
    partialDft x (s + 1) step r j =
      partialDft x s (step * 2) r j + partialDft x s (step * 2) (r + step) j * unitRoot (s + 1) j := by
  rw [partialDft, pow_succ, mul_comm, sum_range_two_mul, partialDft, partialDft, Finset.sum_mul]
  refine congr_arg₂ (· + ·) (Finset.sum_congr rfl fun n _ => ?even) (Finset.sum_congr rfl fun n _ => ?odd)
  case even =>
    rw [← mul_assoc step, ← unitRoot_mul_two_pow s 1 (j * n), pow_one]
    congr 2
    ring
  case odd =>
    rw [← unitRoot_mul_two_pow s 1 (j * n), pow_one, mul_assoc, ← unitRoot_add]
    congr 2
    · ring
    · ring

theorem partialDft_add_period (x : Nat → ℂ) (s step r j : Nat) :
    partialDft x s step r (j + 2 ^ s) = partialDft x s step r j := by
  refine Finset.sum_congr rfl fun n _ => ?_
  rw [add_mul, unitRoot_add, mul_comm (2 ^ s), unitRoot_full, mul_one]

/-- The second output of a butterfly: half a turn on, the odd places change their sign. -/
theorem partialDft_succ_half (x : Nat → ℂ) (s step r j : Nat) :
    partialDft x (s + 1) step r (j + 2 ^ s) =
      partialDft x s (step * 2) r j - partialDft x s (step * 2) (r + step) j * unitRoot (s + 1) j := by
  rw [partialDft_succ, partialDft_add_period, partialDft_add_period, unitRoot_add, unitRoot_half]
  ring

/-! ### The butterflies -/

/-- A pair of reals as a complex number. -/
def toComplex (z : ℝ × ℝ) : ℂ := ⟨z.1, z.2⟩

/-- A butterfly in exact arithmetic (R167). -/
theorem toComplex_butterfly (site : Nat) (w u v : ℝ × ℝ) :
    toComplex (butterfly exactArith site w u v).1 = toComplex u + toComplex v * toComplex w ∧
    toComplex (butterfly exactArith site w u v).2 = toComplex u - toComplex v * toComplex w := by
  constructor <;> apply Complex.ext <;> simp [toComplex, butterfly, exactArith]

/-- The exact rotations (R155). -/
noncomputable def exactTwiddle (bits k : Nat) : ℝ × ℝ :=
  (Real.cos (2 * Real.pi * k / 2 ^ bits), -Real.sin (2 * Real.pi * k / 2 ^ bits))

theorem toComplex_exactTwiddle (bits k : Nat) : toComplex (exactTwiddle bits k) = unitRoot bits k := by
  have h : -(2 * Real.pi * Complex.I * k / 2 ^ bits) = ((-(2 * Real.pi * k / 2 ^ bits) : ℝ) : ℂ) * Complex.I := by
    push_cast
    ring
  rw [unitRoot, h]
  apply Complex.ext
  · rw [Complex.exp_ofReal_mul_I_re, Real.cos_neg]; rfl
  · rw [Complex.exp_ofReal_mul_I_im, Real.sin_neg]; rfl

/-! ### The stages -/

theorem bitrev_even (m g : Nat) : bitrev (m + 1) (2 * g) = bitrev m g := by
  rw [bitrev, Nat.mul_mod_right, Nat.mul_div_cancel_left _ Nat.two_pos, Nat.zero_mul, Nat.zero_add]

theorem bitrev_odd (m g : Nat) : bitrev (m + 1) (2 * g + 1) = bitrev m g + 2 ^ m := by
  rw [bitrev, show (2 * g + 1) % 2 = 1 by omega, show (2 * g + 1) / 2 = g by omega, Nat.one_mul, Nat.add_comm]

/-- What stands in the places after the stages up to `s`, `m` of them to come: in group `g` the transform of the
residue class `bitrev g`. -/
def HoldsPartialDfts (x : Nat → ℂ) (s m : Nat) (l : List (ℝ × ℝ)) : Prop :=
  ∀ g j, g < 2 ^ m → j < 2 ^ s →
    toComplex (l.getD (g * 2 ^ s + j) (0, 0)) = partialDft x s (2 ^ m) (bitrev m g) j

/-- The swap loop sets up classes of one element. -/
theorem holdsPartialDfts_bitrevSwaps {bits : Nat} {l : List (ℝ × ℝ)} (hlength : l.length = 2 ^ bits) :
    HoldsPartialDfts (fun n => toComplex (l.getD n (0, 0))) 0 bits (bitrevSwaps (0, 0) bits l) := by
  intro g j hg hj
  obtain rfl : j = 0 := by omega
  rw [pow_zero, mul_one, add_zero, getD_bitrevSwaps (0, 0) hlength hg]
  simp [partialDft, unitRoot]

/-- A butterfly joins two classes: `h` places on stands the class of the odd elements. -/
theorem HoldsPartialDfts.butterfly {x : Nat → ℂ} {s m : Nat} {l : List (ℝ × ℝ)}
    (hlength : l.length = 2 ^ (s + 1 + m)) (h : HoldsPartialDfts x s (m + 1) l) {g j : Nat} (hg : g < 2 ^ m)
    (hj : j < 2 ^ s) :
    let after := fftStage exactArith (s + 1 + m) (exactTwiddle (s + 1 + m)) l (s + 1)
    toComplex (after.getD (g * 2 ^ (s + 1) + j) (0, 0)) = partialDft x (s + 1) (2 ^ m) (bitrev m g) j ∧
    toComplex (after.getD (g * 2 ^ (s + 1) + (j + 2 ^ s)) (0, 0)) =
      partialDft x (s + 1) (2 ^ m) (bitrev m g) (j + 2 ^ s) := by
  intro after
  have hgroups : 2 ^ (s + 1 + m) / 2 ^ (s + 1) = 2 ^ m := by
    rw [pow_add, Nat.mul_div_cancel_left _ (Nat.two_pow_pos _)]
  have hhalf : 2 ^ (s + 1) / 2 = 2 ^ s := by rw [pow_succ, Nat.mul_div_cancel _ Nat.two_pos]
  have hpair := pairAt_fftStage exactArith (s + 1 + m) (exactTwiddle (s + 1 + m)) (s := s + 1) (g := g) (j := j)
    (by rwa [hgroups]) (by rwa [hhalf]) hlength rfl
  obtain ⟨hfirst, hsecond⟩ := Prod.ext_iff.1 hpair
  have hclass : 2 * g + 1 < 2 ^ (m + 1) := by rw [pow_succ]; omega
  have heven := h (2 * g) j (by omega) hj
  have hodd := h (2 * g + 1) j hclass hj
  rw [bitrev_even, show 2 * g * 2 ^ s + j = g * 2 ^ (s + 1) + j by rw [pow_succ]; ring] at heven
  rw [bitrev_odd, show (2 * g + 1) * 2 ^ s + j = g * 2 ^ (s + 1) + j + 2 ^ s by rw [pow_succ]; ring] at hodd
  have houtputs := toComplex_butterfly (siteOf (s + 1) (g * 2 ^ (s + 1) + j)) (exactTwiddle (s + 1 + m) (j * 2 ^ m))
    (l.getD (g * 2 ^ (s + 1) + j) (0, 0)) (l.getD (g * 2 ^ (s + 1) + j + 2 ^ s) (0, 0))
  rw [heven, hodd, toComplex_exactTwiddle, unitRoot_mul_two_pow, pow_succ 2 m, ← partialDft_succ,
    ← partialDft_succ_half] at houtputs
  rw [hgroups, hhalf] at hfirst hsecond
  rw [← Nat.add_assoc]
  exact ⟨(congrArg toComplex hfirst).trans houtputs.1, (congrArg toComplex hsecond).trans houtputs.2⟩

/-- A stage joins the classes in pairs. -/
theorem HoldsPartialDfts.fftStage {x : Nat → ℂ} {s m : Nat} {l : List (ℝ × ℝ)}
    (hlength : l.length = 2 ^ (s + 1 + m)) (h : HoldsPartialDfts x s (m + 1) l) :
    HoldsPartialDfts x (s + 1) m (fftStage exactArith (s + 1 + m) (exactTwiddle (s + 1 + m)) l (s + 1)) := by
  intro g j hg hj
  rcases lt_or_ge j (2 ^ s) with hlow | hhigh
  · exact (h.butterfly hlength hg hlow).1
  · obtain ⟨i, rfl⟩ := Nat.exists_eq_add_of_le' hhigh
    exact (h.butterfly hlength hg (by rw [pow_succ] at hj; omega)).2

theorem holdsPartialDfts_stagesUpTo {bits : Nat} {x : Nat → ℂ} {l : List (ℝ × ℝ)} (hlength : l.length = 2 ^ bits)
    (h : HoldsPartialDfts x 0 bits l) {s m : Nat} (hs : s + m = bits) :
    HoldsPartialDfts x s m (stagesUpTo exactArith bits (exactTwiddle bits) l s) := by
  induction s generalizing m with
  | zero =>
    obtain rfl : m = bits := by omega
    exact h
  | succ s ih =>
    obtain rfl := hs.symm
    rw [stagesUpTo_succ]
    exact (ih (m := m + 1) (by omega)).fftStage (by rwa [length_stagesUpTo])

/-- Settles O35: after the last stage one class is left, the whole input. -/
theorem exactTransformIsTheForwardDft : Obligations.ExactTransformIsTheForwardDft := by
  unfold Obligations.ExactTransformIsTheForwardDft
  intro bits x hlength tw i hi y
  have hstages := holdsPartialDfts_stagesUpTo (s := bits) (m := 0)
    ((length_bitrevSwaps (0, 0) bits x).trans hlength) (holdsPartialDfts_bitrevSwaps hlength) rfl
  have hy := hstages 0 i Nat.one_pos hi
  rw [Nat.zero_mul, Nat.zero_add] at hy
  refine hy.trans (Finset.sum_congr rfl fun n _ => ?_)
  rw [bitrev, Nat.zero_add, pow_zero, Nat.one_mul, unitRoot, Nat.cast_mul, ← mul_assoc]
  rfl

end Sys2Proof.Machine
end

section
/-!
PROOFS. DECIM: the stride and the count of a legal build, and the points the command leaves in FRAME_RAM.
-/
namespace Sys2Proof.Machine

/-! ### Stride and count -/

section
variable {b : Build} (h : b.legal = true)
include h

theorem log2w_le_log2n : b.log2w ≤ b.log2n := by
  simp only [Build.legal, Build.log2wLegal, Bool.and_eq_true, decide_eq_true_eq] at h
  exact h.1.2

/-- Both lengths are powers of two, so the stride is one (R201). -/
theorem stride_eq_two_pow : stride b = 2 ^ (b.log2n - b.log2w) :=
  Nat.pow_div (log2w_le_log2n h) Nat.two_pos

theorem pointCount_mul_stride : pointCount b * stride b = transformLength b := by
  rw [pointCount_eq b h, stride_eq_two_pow h, displayWidth, transformLength, ← pow_add,
    Nat.add_sub_cancel' (log2w_le_log2n h)]

theorem stride_pos : 0 < stride b := by
  rw [stride_eq_two_pow h]
  exact Nat.two_pow_pos _

/-- DECIM samples inside RES (R201). -/
theorem mul_stride_lt_transformLength {j : Nat} (hj : j < pointCount b) : j * stride b < transformLength b := by
  rw [← pointCount_mul_stride h]
  exact Nat.mul_lt_mul_of_pos_right hj (stride_pos h)

/-- The frame has at most `2^16` points, so a word holds their number and each X (R8). -/
theorem toNat_ofNat_of_le_pointCount {n : Nat} (hn : n ≤ pointCount b) : (BitVec.ofNat 32 n).toNat = n := by
  obtain ⟨-, -, hmax⟩ := transformLength_bounds h
  have hcount : pointCount b ≤ pointCount b * stride b := Nat.le_mul_of_pos_right _ (stride_pos h)
  rw [pointCount_mul_stride h] at hcount
  rw [BitVec.toNat_ofNat, Nat.mod_eq_of_lt (by omega)]

end

/-- Settles O46: the quotient of two powers of two. -/
theorem strideAndCountOfLegalBuilds : Obligations.StrideAndCountOfLegalBuilds := by
  unfold Obligations.StrideAndCountOfLegalBuilds
  intro b hlegal
  exact ⟨stride_eq_two_pow hlegal, pointCount_eq b hlegal, pointCount_mul_stride hlegal, stride_pos hlegal,
    fun j hj => mul_stride_lt_transformLength hlegal hj⟩

/-! ### The points -/

/-- A signed RES entry taken from a legal height fits a word, so Y is neither clamped nor wrapped (R202). -/
theorem toInt_ofInt_height_sub {b : Build} (h : b.legal = true) (r : Half) :
    (BitVec.ofInt 32 ((b.height : Int) - r.toInt)).toInt = (b.height : Int) - r.toInt := by
  have hheight := height_le h
  have hlow := BitVec.le_toInt r
  have hhigh := BitVec.toInt_lt (x := r)
  exact BitVec.toInt_ofInt_eq_self (by decide) (by omega) (by omega)

/-- The points DECIM leaves (R202, R204). -/
theorem frame_runDecim_values {s : State} (hlegal : s.build.legal = true) {j : Nat} (hj : j < pointCount s.build) :
    (frameX (runDecim s) j).toNat = j ∧
    (frameY (runDecim s) j).toInt = (s.build.height : Int) - (resEntry s (j * stride s.build)).toInt := by
  obtain ⟨hx, hy⟩ := Prod.ext_iff.1 (frame_runDecim s j hj)
  constructor
  · exact (congrArg BitVec.toNat hx).trans (toNat_ofNat_of_le_pointCount hlegal hj.le)
  · exact (congrArg BitVec.toInt hy).trans (toInt_ofInt_height_sub hlegal _)

theorem toNat_runDecim_frameCount {s : State} (hlegal : s.build.legal = true) :
    (runDecim s).frameCount.toNat = displayWidth s.build := by
  rw [runDecim_frameCount, toNat_ofNat_of_le_pointCount hlegal le_rfl, pointCount_eq _ hlegal]

theorem runDecim_sameBytesOutside {s : State} (hlegal : s.build.legal = true) :
    SameBytesOutside s (runDecim s) frameBase (8 * displayWidth s.build) := by
  rw [← pointCount_eq s.build hlegal]
  exact sameBytesOutside_of_forall (ramByte_runDecim_outside s)

@[simp] theorem frameX_completeCommand (s : State) (j : Nat) : frameX (completeCommand s) j = frameX s j := rfl

@[simp] theorem frameY_completeCommand (s : State) (j : Nat) : frameY (completeCommand s) j = frameY s j := rfl

/-- Settles O47, point by point from the stored frame. -/
theorem decimWritesEveryPoint : Obligations.DecimWritesEveryPoint := by
  unfold Obligations.DecimWritesEveryPoint
  refine ⟨issuedBy_encodeWord .decim, fun s hlegal => ?_⟩
  have hexec : exec .decim s = .next (completeCommand (runDecim s)) := rfl
  refine ⟨_, hexec, exec_completed hexec, (exec_keepsHostInputs hexec).settings, rfl,
    toNat_runDecim_frameCount hlegal, runDecim_sameBytesOutside hlegal, fun j hj => ?points⟩
  case points =>
    rw [frameX_completeCommand, frameY_completeCommand, ← stride_eq_two_pow hlegal]
    exact frame_runDecim_values hlegal (by rwa [pointCount_eq s.build hlegal])

end Sys2Proof.Machine
end

section
/-!
PROOFS. The step: which event it serves, that it always has a next state, and that it brings every accepted command
to its completion. NOP, which does nothing else.
-/
namespace Sys2Proof.Machine

/-! ### NOP -/

/-- Settles O20: the engine step of NOP is the completion alone. -/
theorem nopOnlyCompletes : Obligations.NopOnlyCompletes := by
  unfold Obligations.NopOnlyCompletes
  refine ⟨issuedBy_encodeWord .nop, fun s => ?_⟩
  have hexec : exec .nop s = .next (completeCommand s) := rfl
  exact ⟨_, hexec, exec_completed hexec, rfl⟩

/-! ### The Engine's turn -/

/-- The Engine has no step when IDLE (R220). -/
theorem engineStep_idle {s : State} (hidle : s.status.busy = false) : engineStep s = .next s := by
  simp [engineStep, engineOf, hidle]

/-- The BUSY Engine runs the command whose opcode is latched (R220). -/
theorem engineStep_busy {s : State} {i : Instr} (hbusy : s.status.busy = true)
    (hop : decodeOpcode s.status.curOp = some i) : engineStep s = exec i s := by
  simp [engineStep, engineOf, hbusy, hop]

/-! ### The event a step serves -/

section
variable {s : State} {rest : List Event}

theorem step_nil (h : s.inputs = []) : step s = engineStep s := by rw [step, h]

theorem step_cons {e : Event} (h : s.inputs = e :: rest) : step s = serveEvent e (s.setInputs rest) := by
  rw [step, h]

theorem step_busRead {x : Word} (h : s.inputs = .busRead x :: rest) :
    step s = .next (busRead (s.setInputs rest) (busOffset s.build x)) := step_cons h

theorem step_busWrite {x d : Word} (h : s.inputs = .busWrite x d :: rest) :
    step s = .next (busWrite (s.setInputs rest) (busOffset s.build x) d) := step_cons h

theorem step_engineTurn (h : s.inputs = .engineTurn :: rest) : step s = engineStep (s.setInputs rest) := step_cons h

end

/-- Settles O4, clause by clause from the event that is next. -/
theorem stepServesEventsAndRunsTheDecodedCommand : Obligations.StepServesEventsAndRunsTheDecodedCommand := by
  unfold Obligations.StepServesEventsAndRunsTheDecodedCommand
  intro s rest
  refine ⟨fun i _ hbusy hop => ⟨fun h => ?_, fun h => ?_⟩, fun hidle => ⟨fun h => ?_, fun h => ?_⟩,
    fun a h => ?read, fun a d h => ?write, step_reset⟩
  · rw [step_nil h, engineStep_busy hbusy hop]
  · rw [step_engineTurn h, engineStep_busy (s := s.setInputs rest) hbusy hop]
  · rw [step_nil h, engineStep_idle hidle]
  · rw [step_engineTurn h, engineStep_idle (s := s.setInputs rest) hidle]
  case read => rw [step_busRead h, (busOffset_eq_iff s.build _ a).2 rfl]
  case write => rw [step_busWrite h, (busOffset_eq_iff s.build _ a).2 rfl]

/-! ### Every step has a next state -/

/-- A BUSY engine whose latched opcode is that of a command completes it (R220). -/
theorem engineStep_busy_next {s : State} (hbusy : s.status.busy = true)
    (hop : (decodeOpcode s.status.curOp).isSome = true) :
    ∃ t, engineStep s = .next t ∧ t.status = completeStatus s.status := by
  obtain ⟨i, hi⟩ := Option.isSome_iff_exists.1 hop
  obtain ⟨t, ht⟩ := exec_next i s
  exact ⟨t, (engineStep_busy hbusy hi).trans ht, exec_status ht⟩

theorem engineStep_next {s : State} (hop : (decodeOpcode s.status.curOp).isSome = true) :
    ∃ t, engineStep s = .next t := by
  cases hb : s.status.busy
  · exact ⟨s, engineStep_idle hb⟩
  · obtain ⟨t, ht, -⟩ := engineStep_busy_next hb hop
    exact ⟨t, ht⟩

/-- Settles O55: only the Engine's turn could stop the block, and the invariant keeps CUR_OP in the opcode map. -/
theorem noStepStopsTheBlock : Obligations.NoStepStopsTheBlock := by
  unfold Obligations.NoStepStopsTheBlock
  intro s h
  cases hin : s.inputs with
  | nil => rw [step_nil hin]; exact engineStep_next h.opLegal
  | cons e rest =>
    cases e with
    | busRead x => exact ⟨_, step_busRead hin⟩
    | busWrite x d => exact ⟨_, step_busWrite hin⟩
    | engineTurn => rw [step_engineTurn hin]; exact engineStep_next (s := s.setInputs rest) h.opLegal
    | reset => exact ⟨_, step_reset hin⟩

/-! ### Every accepted command completes -/

/-- A step with a next state is the first of the steps of a run. -/
theorem run_succ {s t : State} (k : Nat) (h : step s = .next t) : core.run (k + 1) s = core.run k t := by
  have hstep : core.step s = .next t := h
  simp only [Host.Core.run, hstep]

/-- A host transaction while BUSY leaves the command in flight and takes its event off the list. -/
theorem hostTransaction_in_flight {s t : State} {a d : Word} (hbusy : s.status.busy = true)
    (ht : t = busRead s a ∨ t = busWrite s a d) :
    t.status.busy = true ∧ t.status.curOp = s.status.curOp ∧ t.inputs = s.inputs := by
  obtain ⟨hb, hop, -⟩ := hostCannotDisturbCommandInFlight s a d hbusy t ht
  refine ⟨hb, hop, ?_⟩
  obtain rfl | rfl := ht
  · obtain ⟨r, heq⟩ := busRead_cases s a
    rw [heq, State.setResp_inputs]
  · exact (busWrite_keepsBlockState s a d).inputs

/-- From `s`, BUSY, to `t`: the command completes, or one event is taken off the list and the command stays in flight
(R220, R282). -/
def CompletesOrServes (s t : State) : Prop :=
  t.status.curOp = s.status.curOp ∧
    (t.status.busy = false ∧ t.status.done = true ∨ t.status.busy = true ∧ ∃ e, s.inputs = e :: t.inputs)

/-- The Engine's turn, at whatever place of the event list it stands. -/
theorem engineStep_completes {s s' : State} (hstatus : s'.status = s.status) (hbusy : s.status.busy = true)
    (hop : (decodeOpcode s.status.curOp).isSome = true) :
    ∃ t, engineStep s' = .next t ∧ CompletesOrServes s t := by
  rw [← hstatus] at hbusy hop
  obtain ⟨t, ht, hst⟩ := engineStep_busy_next hbusy hop
  refine ⟨t, ht, ?_, .inl ?_⟩ <;> simp [hst, hstatus]

/-- A step of a BUSY block that is no reset completes the command or serves a host transaction. -/
theorem step_in_flight {s : State} (h : s.Inv) (hbusy : s.status.busy = true) (hreset : Event.reset ∉ s.inputs) :
    ∃ t, step s = .next t ∧ CompletesOrServes s t := by
  have serves {t : State} {e : Event} {rest : List Event} (hin : s.inputs = e :: rest)
      (ht : t.status.busy = true ∧ t.status.curOp = s.status.curOp ∧ t.inputs = rest) : CompletesOrServes s t := by
    obtain ⟨hb, hop, hrest⟩ := ht
    exact ⟨hop, .inr ⟨hb, e, by rw [hin, hrest]⟩⟩
  cases hin : s.inputs with
  | nil => rw [step_nil hin]; exact engineStep_completes rfl hbusy h.opLegal
  | cons e rest =>
    cases e with
    | busRead x =>
      exact ⟨_, step_busRead hin,
        serves hin (hostTransaction_in_flight (s := s.setInputs rest) (d := 0) hbusy (.inl rfl))⟩
    | busWrite x d =>
      exact ⟨_, step_busWrite hin, serves hin (hostTransaction_in_flight (s := s.setInputs rest) hbusy (.inr rfl))⟩
    | engineTurn => rw [step_engineTurn hin]; exact engineStep_completes (s' := s.setInputs rest) rfl hbusy h.opLegal
    | reset => simp [hin] at hreset

/-- Settles O5, by induction on the number of events left: a step completes the command or serves one of them. -/
theorem everyAcceptedCommandCompletes : Obligations.EveryAcceptedCommandCompletes := by
  unfold Obligations.EveryAcceptedCommandCompletes
  intro s
  induction hlen : s.inputs.length generalizing s with
  | zero =>
    intro h hbusy hreset
    obtain ⟨t, hstep, hop, ⟨hb, hd⟩ | ⟨_, e, he⟩⟩ := step_in_flight h hbusy hreset
    · exact ⟨1, le_rfl, t, run_succ 0 hstep, hb, hd, hop⟩
    · simp [he] at hlen
  | succ n ih =>
    intro h hbusy hreset
    obtain ⟨t, hstep, hop, ⟨hb, hd⟩ | ⟨hb, e, he⟩⟩ := step_in_flight h hbusy hreset
    · exact ⟨1, by omega, t, run_succ 0 hstep, hb, hd, hop⟩
    · rw [he, List.length_cons, Nat.succ_inj] at hlen
      rw [he, List.mem_cons, not_or] at hreset
      obtain ⟨k, hk, u, hrun, hdone⟩ := ih t hlen (everyStepKeepsTheInvariant s t h hstep) hb hreset.2
      rw [hop] at hdone
      exact ⟨k + 1, by omega, u, (run_succ k hstep).trans hrun, hdone⟩

end Sys2Proof.Machine
end

section
/-!
PROOFS. A frame command is its primitives one after another: what a command computes rests on neither STATUS nor the
event list nor the bus response, so acceptances and completions between the primitives make no difference to it.
-/
namespace Sys2Proof.Machine

/-! ### The pseudocode of a command -/

/-- What a command does before its completion (R220). -/
def pseudocode (i : Instr) (s : State) : State :=
  match i with
  | .nop => s
  | .mag => runMag s
  | .win => runWin s
  | .fft => runFft s
  | .logp => runLogp s
  | .shift => runShift s
  | .decim => runDecim s
  | .magFrame => runMagFrame s
  | .specFrame => runSpecFrame s

theorem exec_eq_pseudocode (i : Instr) (s : State) : exec i s = .next (completeCommand (pseudocode i s)) := by
  cases i <;> rfl

theorem pseudocode_magFrame (s : State) : pseudocode .magFrame s = pseudocode .decim (pseudocode .mag s) := rfl

theorem pseudocode_specFrame (s : State) :
    pseudocode .specFrame s =
      pseudocode .decim (pseudocode .shift (pseudocode .logp (pseudocode .fft (pseudocode .win s)))) := rfl

section
variable (i : Instr) (s : State)

@[simp] theorem pseudocode_build : (pseudocode i s).build = s.build := by cases i <;> simp [pseudocode]

@[simp] theorem pseudocode_status : (pseudocode i s).status = s.status := by cases i <;> simp [pseudocode]

@[simp] theorem pseudocode_inputs : (pseudocode i s).inputs = s.inputs := by cases i <;> simp [pseudocode]

@[simp] theorem pseudocode_resp : (pseudocode i s).resp = s.resp := by cases i <;> simp [pseudocode]

end

/-! ### What no command reads -/

/-- The same block with another STATUS, event list and bus response. -/
def State.withPort (s : State) (st : Status) (es : List Event) (r : Option Response) : State :=
  { s with status := st, inputs := es, resp := r }

section
variable (s : State) (st : Status) (es : List Event) (r : Option Response)

theorem runMag_withPort : runMag (s.withPort st es r) = (runMag s).withPort st es r := rfl
theorem runWin_withPort : runWin (s.withPort st es r) = (runWin s).withPort st es r := rfl
theorem runFft_withPort : runFft (s.withPort st es r) = (runFft s).withPort st es r := rfl
theorem runLogp_withPort : runLogp (s.withPort st es r) = (runLogp s).withPort st es r := rfl
theorem runShift_withPort : runShift (s.withPort st es r) = (runShift s).withPort st es r := rfl
theorem runDecim_withPort : runDecim (s.withPort st es r) = (runDecim s).withPort st es r := rfl

/-- Every command does the same to the rest of the block, whatever these three are. -/
theorem pseudocode_withPort (i : Instr) : pseudocode i (s.withPort st es r) = (pseudocode i s).withPort st es r := by
  cases i
  case nop => rfl
  case mag => exact runMag_withPort s st es r
  case win => exact runWin_withPort s st es r
  case fft => exact runFft_withPort s st es r
  case logp => exact runLogp_withPort s st es r
  case shift => exact runShift_withPort s st es r
  case decim => exact runDecim_withPort s st es r
  case magFrame => simp only [pseudocode, runMagFrame, runMag_withPort, runDecim_withPort]
  case specFrame =>
    simp only [pseudocode, runSpecFrame, runWin_withPort, runFft_withPort, runLogp_withPort, runShift_withPort,
      runDecim_withPort]

end

/-! ### SPEC_FRAME -/

/-- A command after another's completion: the completions are one (R220, R221). -/
theorem pseudocode_completeCommand (i : Instr) (s : State) :
    pseudocode i (completeCommand s) = completeCommand (pseudocode i s) := by
  calc pseudocode i (completeCommand s)
      = (pseudocode i s).withPort (completeStatus s.status) s.inputs s.resp := pseudocode_withPort s _ _ _ i
    _ = (pseudocode i s).withPort (completeStatus (pseudocode i s).status) (pseudocode i s).inputs
          (pseudocode i s).resp := by rw [pseudocode_status, pseudocode_inputs, pseudocode_resp]
    _ = completeCommand (pseudocode i s) := rfl

theorem exec_completeCommand (i : Instr) (s : State) :
    exec i (completeCommand s) = .next (completeCommand (pseudocode i s)) := by
  rw [exec_eq_pseudocode, pseudocode_completeCommand]
  rfl

/-- SPEC_FRAME leaves every byte outside WORK, RES and FRAME. -/
theorem ramByte_runSpecFrame_outside {s : State} (hlegal : s.build.legal = true) {x : Nat}
    (hwork : ¬ inRange workBase (16 * transformLength s.build) x)
    (hres : ¬ inRange resBase (2 * transformLength s.build) x)
    (hframe : ¬ inRange frameBase (8 * displayWidth s.build) x) : ramByte (runSpecFrame s) x = ramByte s x := by
  have hfft : SameBytesOutside (runWin s) (runFft (runWin s)) workBase (16 * transformLength (runWin s).build) :=
    sameBytesOutside_of_forall (ramByte_runFft_outside (runWin s))
  calc ramByte (runSpecFrame s) x
      = ramByte (runShift (runLogp (runFft (runWin s)))) x :=
        runDecim_sameBytesOutside (by simpa using hlegal) x (by simpa using hframe)
    _ = ramByte (runLogp (runFft (runWin s))) x := runShift_sameBytesOutside _ x (by simpa using hres)
    _ = ramByte (runFft (runWin s)) x := runLogp_sameBytesOutside _ x (by simpa using hres)
    _ = ramByte (runWin s) x := hfft x (by simpa using hwork)
    _ = ramByte s x := runWin_sameBytesOutside s x hwork

theorem toNat_ofNat_pointCount {b : Build} (hlegal : b.legal = true) :
    (BitVec.ofNat 32 (pointCount b)).toNat = displayWidth b := by
  rw [toNat_ofNat_of_le_pointCount hlegal le_rfl, pointCount_eq b hlegal]

/-- Settles O49: each primitive runs from the completion of the one before it. -/
theorem specFrameRunsItsFivePrimitives : Obligations.SpecFrameRunsItsFivePrimitives := by
  unfold Obligations.SpecFrameRunsItsFivePrimitives
  refine ⟨issuedBy_encodeWord .specFrame, fun s hlegal => ?_⟩
  have hexec := exec_eq_pseudocode .specFrame s
  refine ⟨_, hexec, exec_completed hexec, (exec_keepsHostInputs hexec).settings, ?count,
    fun x hwork hres hframe => ?bytes, _, _, _, _, exec_eq_pseudocode .win s, exec_completeCommand .fft _,
    exec_completeCommand .logp _, exec_completeCommand .shift _, ?last⟩
  case count =>
    rw [completeCommand_frameCount, pseudocode, runSpecFrame_frameCount]
    exact toNat_ofNat_pointCount hlegal
  case bytes =>
    rw [ramByte_completeCommand]
    exact ramByte_runSpecFrame_outside hlegal hwork hres hframe
  case last => rw [exec_completeCommand, pseudocode_specFrame]

/-! ### Issuing one command after another -/

/-- STATUS after the acceptance and the completion of a command (R220, R240). -/
def completedAs (i : Instr) (st : Status) : Status := ⟨false, true, st.illegal, st.overrun, i.opcode⟩

/-- A CTRL write of the word of a command, then the end of its LATENCY. -/
def issueEvents (b : Build) (i : Instr) : List Event := [.busWrite (b.base + 0x00C) (encodeWord i), .engineTurn]

/-- An idle CTRL write of the word of a command is answered OKAY and accepts it (R240). -/
theorem busWrite_encodeWord {s : State} (hidle : s.status.busy = false) (i : Instr) :
    busWrite s 0x00C (encodeWord i) =
      s.withPort ⟨true, false, s.status.illegal, s.status.overrun, i.opcode⟩ s.inputs (some .okay) := by
  obtain ⟨-, hissue⟩ := issuedBy_encodeWord i
  rw [busWrite, (hissue s).1 hidle]
  rfl

/-- Two steps issue and complete one command. -/
theorem run_issue (k : Nat) (s : State) {st : Status} (hidle : st.busy = false) (i : Instr) (rest : List Event)
    (r : Option Response) :
    core.run (k + 2) (s.withPort st (issueEvents s.build i ++ rest) r) =
      core.run k ((pseudocode i s).withPort (completedAs i st) rest (some .okay)) := by
  have haccept : step (s.withPort st (issueEvents s.build i ++ rest) r) =
      .next (s.withPort ⟨true, false, st.illegal, st.overrun, i.opcode⟩ (.engineTurn :: rest) (some .okay)) := by
    refine (step_busWrite rfl).trans (congrArg _ ?_)
    change busWrite _ (busOffset s.build (s.build.base + 0x00C)) _ = _
    rw [(busOffset_eq_iff s.build _ 0x00C).2 rfl]
    exact busWrite_encodeWord hidle i
  have hcomplete : step (s.withPort ⟨true, false, st.illegal, st.overrun, i.opcode⟩ (.engineTurn :: rest) (some .okay)) =
      .next ((pseudocode i s).withPort (completedAs i st) rest (some .okay)) := by
    rw [step_engineTurn (s := s.withPort _ _ _) rfl, engineStep_busy rfl ((decodeOpcode_eq_some_iff i.opcode i).2 rfl),
      exec_eq_pseudocode]
    exact congrArg (fun t => (.next (completeCommand t) : Result)) (pseudocode_withPort s _ rest _ i)
  rw [run_succ (k + 1) haccept, run_succ k hcomplete]

/-- Commands issued and completed one by one leave what their pseudocodes leave one after another, and the STATUS
of the last. -/
theorem run_issues (before : List Instr) (last : Instr) (s : State) {st : Status} (hidle : st.busy = false)
    (r : Option Response) :
    core.run (2 * (before.length + 1)) (s.withPort st ((before ++ [last]).flatMap (issueEvents s.build)) r) =
      .next ((pseudocode last (before.foldl (fun s i => pseudocode i s) s)).withPort (completedAs last st) []
        (some .okay)) := by
  induction before generalizing s st r with
  | nil => exact run_issue 0 s hidle last [] r
  | cons i before ih =>
    rw [List.cons_append, List.flatMap_cons, List.length_cons, Nat.mul_succ, run_issue _ s hidle, ← pseudocode_build i s]
    exact ih (pseudocode i s) rfl _

/-- A command whose pseudocode is that of others one after another, against these (R221). -/
theorem issue_eq_issues {f last : Instr} {before : List Instr} {s : State} (hidle : s.status.busy = false)
    (hf : pseudocode f s = pseudocode last (before.foldl (fun s i => pseudocode i s) s)) :
    ∃ t u, core.run 2 (s.setInputs (issueEvents s.build f)) = .next t ∧
      core.run (2 * (before.length + 1)) (s.setInputs ((before ++ [last]).flatMap (issueEvents s.build))) = .next u ∧
      u = t.setStatus { t.status with curOp := last.opcode } := by
  refine ⟨_, _, run_issues [] f s hidle s.resp, run_issues before last s hidle s.resp, ?_⟩
  rw [← hf]
  rfl

/-- Settles O50: the pseudocode of a frame command is that of its primitives one after another. -/
theorem frameCommandsEqualTheirPrimitives : Obligations.FrameCommandsEqualTheirPrimitives := by
  unfold Obligations.FrameCommandsEqualTheirPrimitives
  intro s hidle
  exact ⟨issue_eq_issues (f := .magFrame) (last := .decim) (before := [.mag]) hidle (pseudocode_magFrame s),
    issue_eq_issues (f := .specFrame) (last := .decim) (before := [.win, .fft, .logp, .shift]) hidle
      (pseudocode_specFrame s)⟩

end Sys2Proof.Machine
end

section
/-!
PROOFS. Elements that a command leaves alone, and the frame of MAG_FRAME.
-/
namespace Sys2Proof.Machine

/-! ### Elements outside the bytes that change -/

section
variable {s t : State}

/-- A RES entry is two bytes (R51). -/
theorem resEntry_congr {i : Nat} (h : ∀ j, j < 2 → ramByte t (resBase + 2 * i + j) = ramByte s (resBase + 2 * i + j)) :
    resEntry t i = resEntry s i := by
  have h0 := h 0 (by decide)
  rw [Nat.add_zero] at h0
  rw [resEntry, h0, h 1 (by decide), resEntry]

theorem ramWord_congr {a : Nat} (h : ∀ j, j < 4 → ramByte t (a + j) = ramByte s (a + j)) :
    ramWord t a = ramWord s a := by
  have h0 := h 0 (by decide)
  rw [Nat.add_zero] at h0
  rw [ramWord, h0, h 1 (by decide), h 2 (by decide), h 3 (by decide), ramWord]

theorem ramF64_congr {a : Nat} (h : ∀ j, j < 8 → ramByte t (a + j) = ramByte s (a + j)) : ramF64 t a = ramF64 s a := by
  have hhigh (j : Nat) (hj : j < 4) : ramByte t (a + 4 + j) = ramByte s (a + 4 + j) := by
    rw [Nat.add_assoc]
    exact h (4 + j) (by omega)
  rw [ramF64, ramWord_congr hhigh, ramWord_congr fun j hj => h j (by omega), ramF64]

/-- A WORK entry is sixteen bytes (R52). -/
theorem workEntry_congr {k : Nat}
    (h : ∀ j, j < 16 → ramByte t (workBase + 16 * k + j) = ramByte s (workBase + 16 * k + j)) :
    workEntry t k = workEntry s k := by
  have him (j : Nat) (hj : j < 8) : ramByte t (workBase + 16 * k + 8 + j) = ramByte s (workBase + 16 * k + 8 + j) := by
    rw [Nat.add_assoc _ 8 j]
    exact h (8 + j) (by omega)
  rw [workEntry, ramF64_congr him, ramF64_congr fun j hj => h j (by omega), workEntry]

/-- Changes below WORK_RAM leave WORK. -/
theorem workEntry_of_sameBytesOutside {a n : Nat} (h : SameBytesOutside s t a n) (hbelow : a + n ≤ workBase) (k : Nat) :
    workEntry t k = workEntry s k := by
  refine workEntry_congr fun j _ => h _ ?_
  unfold inRange
  omega

variable (hlegal : s.build.legal = true)
include hlegal

/-- Changes of RES leave WORK. -/
theorem workEntry_of_resChanges (h : SameBytesOutside s t resBase (2 * transformLength s.build)) (k : Nat) :
    workEntry t k = workEntry s k := by
  have hsize : 2 * transformLength s.build ≤ 0x00100000 := regionBytes_le hlegal .resRam
  refine workEntry_of_sameBytesOutside h ?_ k
  unfold resBase workBase
  omega

/-- DECIM leaves WORK. -/
theorem workEntry_runDecim (k : Nat) : workEntry (runDecim s) k = workEntry s k := by
  have hsize : 8 * displayWidth s.build ≤ 0x00100000 := regionBytes_le hlegal .frameRam
  refine workEntry_of_sameBytesOutside (runDecim_sameBytesOutside hlegal) ?_ k
  unfold frameBase workBase
  omega

/-- DECIM leaves RES. -/
theorem resEntry_runDecim {i : Nat} (hi : i < transformLength s.build) : resEntry (runDecim s) i = resEntry s i := by
  have hsize : 2 * transformLength s.build ≤ 0x00100000 := regionBytes_le hlegal .resRam
  refine resEntry_congr fun j hj => runDecim_sameBytesOutside hlegal _ ?_
  unfold inRange resBase frameBase
  omega

end

/-! ### MAG_FRAME -/

/-- The RES entries MAG leaves (R133, R134). -/
theorem resEntry_runMag_values {s : State} {i : Nat} (hi : i < transformLength s.build) :
    (i < suppliedPairs s → (resEntry (runMag s) i).toInt = magnitude (sampleI s i) (sampleQ s i)) ∧
    (suppliedPairs s ≤ i → resEntry (runMag s) i = 0) := by
  rw [resEntry_runMag s i hi, ← pairCount_eq_suppliedPairs]
  exact ⟨toInt_magEntry, magEntry_past_pairs⟩

/-- MAG_FRAME leaves every byte outside RES and FRAME. -/
theorem ramByte_runMagFrame_outside {s : State} (hlegal : s.build.legal = true) {x : Nat}
    (hres : ¬ inRange resBase (2 * transformLength s.build) x)
    (hframe : ¬ inRange frameBase (8 * displayWidth s.build) x) : ramByte (runMagFrame s) x = ramByte s x :=
  calc ramByte (runMagFrame s) x
      = ramByte (runMag s) x := runDecim_sameBytesOutside (s := runMag s) hlegal x hframe
    _ = ramByte s x := runMag_sameBytesOutside s x hres

/-- Settles O48: DECIM samples the magnitudes MAG left in RES. -/
theorem magFrameClosedForm : Obligations.MagFrameClosedForm := by
  unfold Obligations.MagFrameClosedForm
  refine ⟨issuedBy_encodeWord .magFrame, fun s hlegal => ?_⟩
  have hexec : exec .magFrame s = .next (completeCommand (runMagFrame s)) := rfl
  refine ⟨_, hexec, exec_completed hexec, (exec_keepsHostInputs hexec).settings, runMagFrame_draws s,
    toNat_runDecim_frameCount (s := runMag s) hlegal, fun x => ramByte_runMagFrame_outside hlegal,
    fun i hi => ?entries, fun j hj => ?points⟩
  case entries =>
    rw [resEntry_completeCommand, runMagFrame, resEntry_runDecim (s := runMag s) hlegal hi]
    exact resEntry_runMag_values hi
  case points =>
    have hcount : j < pointCount s.build := by rwa [pointCount_eq s.build hlegal]
    obtain ⟨hx, hy⟩ := frame_runDecim_values (s := runMag s) hlegal hcount
    obtain ⟨hsupplied, hpast⟩ := resEntry_runMag_values (mul_stride_lt_transformLength hlegal hcount)
    rw [frameX_completeCommand, frameY_completeCommand, runMagFrame, hy, runMag_build, ← stride_eq_two_pow hlegal]
    refine ⟨hx, fun h => by rw [hsupplied h], fun h => ?_⟩
    rw [hpast h]
    exact sub_zero _

end Sys2Proof.Machine
end

section
/-!
PROOFS. The free NaN patterns of a transform: two runs of it on one list give, place by place, the same pattern or
NaN twice, because every operation hands a NaN on.
-/
namespace Sys2Proof.Machine

/-! ### The operations -/

/-- A pattern is NaN by its exponent and its fraction (R13). -/
theorem isNaN_iff_fields (a : F64) :
    isNaN a = true ↔ a.toNat / 2 ^ 52 % 2048 = 2047 ∧ a.toNat % 2 ^ 52 ≠ 0 := by
  rw [isNaN_iff, classify]
  generalize a.toNat / 2 ^ 52 % 2048 = e, a.toNat % 2 ^ 52 = f
  by_cases hexp : e = 2047
  · by_cases hfrac : f = 0 <;> simp [hexp, hfrac]
  · by_cases hzero : e = 0 <;> simp [hexp, hzero]

/-- The sign of a NaN is no part of its being one. -/
theorem isNaN_neg64 {b : F64} (hb : isNaN b = true) : isNaN (neg64 b) = true := by
  obtain ⟨hlow, -⟩ := toNat_neg64 b
  rw [isNaN_iff_fields] at hb ⊢
  omega

theorem SameButNaN.neg64 {b b' : F64} (h : SameButNaN b b') : SameButNaN (neg64 b) (neg64 b') := by
  obtain rfl | ⟨hb, hb'⟩ := h
  · exact .refl _
  · exact .inr ⟨isNaN_neg64 hb, isNaN_neg64 hb'⟩

/-- A pattern that is no NaN is the other one too. -/
theorem SameButNaN.eq_of_isFinite {a a' : F64} (h : SameButNaN a a') (ha : IsFinite a) : a = a' := by
  obtain heq | ⟨hnan, -⟩ := h
  · exact heq
  · rw [ha.isNaN_eq_false] at hnan
    cases hnan

section
variable {nan nan' a a' b b' : F64} (hnan : isNaN nan = true) (hnan' : isNaN nan' = true)
include hnan hnan'

theorem sub64_sameButNaN (ha : SameButNaN a a') (hb : SameButNaN b b') :
    SameButNaN (sub64 nan a b) (sub64 nan' a' b') := add64_sameButNaN hnan hnan' ha hb.neg64

theorem mul64_sameButNaN_left (ha : SameButNaN a a') (b : F64) : SameButNaN (mul64 nan a b) (mul64 nan' a' b) := by
  obtain rfl | ⟨ha, ha'⟩ := ha
  · exact mul64_sameButNaN hnan hnan' a (.refl b)
  · rw [isNaN_iff] at ha ha'
    rw [mul64_nan_left b ha, mul64_nan_left b ha']
    exact .inr ⟨hnan, hnan'⟩

end

/-! ### Pairs and lists -/

/-- Component by component the same pattern, or both NaN. -/
def SamePair (z z' : F64 × F64) : Prop := SameButNaN z.1 z'.1 ∧ SameButNaN z.2 z'.2

theorem SamePair.refl (z : F64 × F64) : SamePair z z := ⟨.refl _, .refl _⟩

/-- Element by element the same pattern, or both NaN. -/
def SameList (l l' : List (F64 × F64)) : Prop := List.Forall₂ SamePair l l'

theorem SameList.refl (l : List (F64 × F64)) : SameList l l := List.forall₂_same.2 fun z _ => .refl z

theorem SameList.getD {l l' : List (F64 × F64)} (h : SameList l l') (p : Nat) :
    SamePair (l.getD p (0, 0)) (l'.getD p (0, 0)) := by
  induction h generalizing p with
  | nil => exact .refl _
  | cons hz _ ih =>
    cases p with
    | zero => exact hz
    | succ p => exact ih p

theorem SameList.set {l l' : List (F64 × F64)} {z z' : F64 × F64} (h : SameList l l') (hz : SamePair z z') (p : Nat) :
    SameList (l.set p z) (l'.set p z') := by
  induction h generalizing p with
  | nil => exact .nil
  | cons hw htail ih =>
    cases p with
    | zero => exact .cons hz htail
    | succ p => exact .cons hw (ih p)

/-! ### The transform -/

section
variable (draws draws' : Nat)

theorem butterfly_samePair (site : Nat) (w : F64 × F64) {u u' v v' : F64 × F64} (hu : SamePair u u')
    (hv : SamePair v v') :
    SamePair (butterfly (blockArith draws) site w u v).1 (butterfly (blockArith draws') site w u' v').1 ∧
    SamePair (butterfly (blockArith draws) site w u v).2 (butterfly (blockArith draws') site w u' v').2 := by
  have hadd (n : Nat) {a a' b b' : F64} (ha : SameButNaN a a') (hb : SameButNaN b b') :
      SameButNaN ((blockArith draws).add n a b) ((blockArith draws').add n a' b') :=
    add64_sameButNaN (isNaN_freshNaN _ _) (isNaN_freshNaN _ _) ha hb
  have hsub (n : Nat) {a a' b b' : F64} (ha : SameButNaN a a') (hb : SameButNaN b b') :
      SameButNaN ((blockArith draws).sub n a b) ((blockArith draws').sub n a' b') :=
    sub64_sameButNaN (isNaN_freshNaN _ _) (isNaN_freshNaN _ _) ha hb
  have hmul (n : Nat) {a a' : F64} (ha : SameButNaN a a') (b : F64) :
      SameButNaN ((blockArith draws).mul n a b) ((blockArith draws').mul n a' b) :=
    mul64_sameButNaN_left (isNaN_freshNaN _ _) (isNaN_freshNaN _ _) ha b
  have htr := hsub (site + 2) (hmul site hv.1 w.1) (hmul (site + 1) hv.2 w.2)
  have hti := hadd (site + 5) (hmul (site + 3) hv.1 w.2) (hmul (site + 4) hv.2 w.1)
  exact ⟨⟨hadd _ hu.1 htr, hadd _ hu.2 hti⟩, ⟨hsub _ hu.1 htr, hsub _ hu.2 hti⟩⟩

theorem butterflyAt_sameList (site : Nat) (w : F64 × F64) (i h : Nat) {l l' : List (F64 × F64)} (hl : SameList l l') :
    SameList (butterflyAt (blockArith draws) site w i h l) (butterflyAt (blockArith draws') site w i h l') := by
  obtain ⟨hfirst, hsecond⟩ := butterfly_samePair draws draws' site w (hl.getD i) (hl.getD (i + h))
  exact (hl.set hfirst i).set hsecond (i + h)

variable (bits : Nat) (tw : Nat → F64 × F64)

theorem fftStage_sameList (s : Nat) {l l' : List (F64 × F64)} (hl : SameList l l') :
    SameList (fftStage (blockArith draws) bits tw l s) (fftStage (blockArith draws') bits tw l' s) :=
  List.foldl_rel hl fun _ _ _ _ hgroup =>
    List.foldl_rel hgroup fun _ _ _ _ h => butterflyAt_sameList draws draws' _ _ _ _ h

/-- Which NaN patterns a transform draws shows in NaN results alone (R169). -/
theorem transform_sameList (l : List (F64 × F64)) :
    SameList (transform (blockArith draws) bits tw l) (transform (blockArith draws') bits tw l) :=
  List.foldl_rel (.refl (bitrevSwaps (0, 0) bits l)) fun _ _ _ _ h => fftStage_sameList draws draws' bits tw _ h

end

end Sys2Proof.Machine
end

section
/-!
PROOFS. What a frame depends on: the supplied samples and the configuration registers, and on no NaN pattern, because
the transform of windowed samples is finite.
-/
namespace Sys2Proof.Machine

/-! ### States that agree on what a command reads -/

/-- The same build, IN_COUNT and supplied bytes of IN_RAM (R227). -/
structure SameSamples (s s' : State) : Prop where
  build : s'.build = s.build
  inCount : s'.inCount = s.inCount
  bytes : ∀ j, j < 2 * suppliedPairs s → inByte s' j = inByte s j

/-- The same build and WORK. -/
structure SameWork (s s' : State) : Prop where
  build : s'.build = s.build
  entries : ∀ k, k < transformLength s.build → workEntry s' k = workEntry s k

/-- The same build and RES. -/
structure SameRes (s s' : State) : Prop where
  build : s'.build = s.build
  entries : ∀ i, i < transformLength s.build → resEntry s' i = resEntry s i

section
variable {s s' : State}

theorem SameSamples.pairCount_eq (h : SameSamples s s') : pairCount s' = pairCount s := by
  rw [pairCount, h.build, h.inCount, pairCount]

/-- The samples of a supplied pair are supplied bytes (R130, R131). -/
theorem SameSamples.sample_eq (h : SameSamples s s') {k : Nat} (hk : k < pairCount s) :
    sampleI s' k = sampleI s k ∧ sampleQ s' k = sampleQ s k := by
  rw [pairCount_eq_suppliedPairs] at hk
  rw [sampleI, sampleQ, h.bytes _ (by omega), h.bytes _ (by omega)]
  exact ⟨rfl, rfl⟩

theorem SameSamples.mag (h : SameSamples s s') : SameRes (runMag s) (runMag s') where
  build := h.build
  entries i hi := by
    rw [resEntry_runMag s i hi, resEntry_runMag s' i (by rwa [h.build]), magEntry, magEntry, h.pairCount_eq]
    split
    case isTrue hsupplied => rw [(h.sample_eq hsupplied).1, (h.sample_eq hsupplied).2]
    case isFalse => rfl

theorem SameSamples.win (h : SameSamples s s') : SameWork (runWin s) (runWin s') where
  build := h.build
  entries k hk := by
    rw [workEntry_runWin s k hk, workEntry_runWin s' k (by rwa [h.build]), winEntry, winEntry, h.pairCount_eq, h.build]
    split
    case isTrue hsupplied => rw [(h.sample_eq hsupplied).1, (h.sample_eq hsupplied).2]
    case isFalse => rfl

theorem SameWork.workList_eq (h : SameWork s s') : workList s' = workList s := by
  rw [workList, h.build]
  exact List.map_congr_left fun k hk => h.entries k (List.mem_range.1 hk)

/-- A finite transform is the same on the same WORK, whatever NaN patterns it may draw (R169). -/
theorem SameWork.fft (h : SameWork s s')
    (hfinite : ∀ k, k < transformLength s.build →
      IsFinite (workEntry (runFft s) k).1 ∧ IsFinite (workEntry (runFft s) k).2) :
    SameWork (runFft s) (runFft s') where
  build := h.build
  entries k hk := by
    have hsame := (transform_sameList s.draws s'.draws s.build.log2n (twRom s.build) (workList s)).getD k
    rw [← workList_runFft s, ← h.workList_eq, ← h.build, ← workList_runFft s', getD_workList _ hk,
      getD_workList (runFft s') (by rw [runFft_build, h.build]; exact hk)] at hsame
    obtain ⟨hre, him⟩ := hfinite k hk
    exact Prod.ext (hsame.1.eq_of_isFinite hre).symm (hsame.2.eq_of_isFinite him).symm

theorem SameWork.logp (h : SameWork s s') (hgain : s'.gain = s.gain) (hbaseline : s'.baseline = s.baseline) :
    SameRes (runLogp s) (runLogp s') where
  build := h.build
  entries i hi := by
    rw [resEntry_runLogp s i hi, resEntry_runLogp s' i (by rwa [h.build]), logEntry, h.build, hgain, hbaseline,
      h.entries i hi, logEntry]

theorem SameRes.shift (h : SameRes s s') (hlegal : s.build.legal = true) : SameRes (runShift s) (runShift s') where
  build := h.build
  entries i hi := by
    rw [resEntry_runShift s hlegal i hi, resEntry_runShift s' (by rwa [h.build]) i (by rwa [h.build]), h.build]
    exact h.entries _ (perm_perm s.build hlegal i hi).1

/-- DECIM draws the same frame from the same RES (R202). -/
theorem SameRes.decim (h : SameRes s s') (hlegal : s.build.legal = true) : SameFrame (runDecim s) (runDecim s') := by
  have hlegal' : s'.build.legal = true := by rwa [h.build]
  refine ⟨by rw [runDecim_frameCount, runDecim_frameCount, h.build], fun i hi => ?entries, fun j hj => ?points⟩
  case entries =>
    rw [resEntry_runDecim hlegal hi, resEntry_runDecim hlegal' (by rw [h.build]; exact hi)]
    exact h.entries i hi
  case points =>
    have hcount : j < pointCount s.build := (pointCount_eq s.build hlegal).symm ▸ hj
    have hpoint : framePoint s' j = framePoint s j := by
      rw [framePoint, h.build, h.entries _ (mul_stride_lt_transformLength hlegal hcount), framePoint]
    rw [← frame_runDecim s j hcount, ← frame_runDecim s' j (by rwa [h.build])] at hpoint
    exact Prod.mk.inj hpoint

end

/-! ### SPEC_FRAME -/

/-- The transform of windowed samples is finite (R169). -/
theorem workEntry_runFft_runWin_isFinite {s : State} (hlegal : s.build.legal = true) {k : Nat}
    (hk : k < transformLength s.build) :
    IsFinite (workEntry (runFft (runWin s)) k).1 ∧ IsFinite (workEntry (runFft (runWin s)) k).2 := by
  obtain ⟨t, u, hwin, hfft, hfinite⟩ := transformOfWindowedSamplesIsFinite s hlegal
  rw [exec_eq_pseudocode] at hwin
  cases hwin
  rw [exec_completeCommand] at hfft
  cases hfft
  simpa only [workEntry_completeCommand, pseudocode] using hfinite k hk

/-- The commands after FFT leave WORK (R175, R181, R204). -/
theorem workEntry_runSpecFrame {s : State} (hlegal : s.build.legal = true) (k : Nat) :
    workEntry (runSpecFrame s) k = workEntry (runFft (runWin s)) k := by
  calc workEntry (runSpecFrame s) k
      = workEntry (runShift (runLogp (runFft (runWin s)))) k := workEntry_runDecim (by simpa using hlegal) k
    _ = workEntry (runLogp (runFft (runWin s))) k :=
        workEntry_of_resChanges (by simpa using hlegal) (runShift_sameBytesOutside _) k
    _ = workEntry (runFft (runWin s)) k :=
        workEntry_of_resChanges (by simpa using hlegal) (runLogp_sameBytesOutside _) k

/-- A completion shows in STATUS alone. -/
theorem SameFrame.completed {t t' : State} (h : SameFrame t t') :
    SameFrame (completeCommand t) (completeCommand t') := h

section
variable {s s' : State} (h : SameSamples s s') (hlegal : s.build.legal = true)
include h hlegal

theorem SameSamples.magFrame : SameFrame (runMagFrame s) (runMagFrame s') := h.mag.decim hlegal

theorem SameSamples.win_fft : SameWork (runFft (runWin s)) (runFft (runWin s')) :=
  h.win.fft fun _ hk => workEntry_runFft_runWin_isFinite hlegal hk

theorem SameSamples.specFrame (hgain : s'.gain = s.gain) (hbaseline : s'.baseline = s.baseline) :
    SameFrame (runSpecFrame s) (runSpecFrame s') ∧
    ∀ k, k < transformLength s.build → workEntry (runSpecFrame s') k = workEntry (runSpecFrame s) k := by
  have hwork := h.win_fft hlegal
  have hres : SameRes (runLogp (runFft (runWin s))) (runLogp (runFft (runWin s'))) :=
    hwork.logp (by simpa using hgain) (by simpa using hbaseline)
  refine ⟨(hres.shift (by simpa using hlegal)).decim (by simpa using hlegal), fun k hk => ?_⟩
  rw [workEntry_runSpecFrame hlegal, workEntry_runSpecFrame (by rwa [h.build])]
  exact hwork.entries k (by simpa using hk)

end

/-- Settles O51: each primitive of a frame command makes the same of the same. -/
theorem framesDependOnTheirInputsAlone : Obligations.FramesDependOnTheirInputsAlone := by
  unfold Obligations.FramesDependOnTheirInputsAlone
  intro s s' hlegal hbuild hcount hbytes
  have h : SameSamples s s' := ⟨hbuild, hcount, hbytes⟩
  refine ⟨⟨_, _, rfl, rfl, (h.magFrame hlegal).completed⟩, fun hgain hbaseline => ?spectrum⟩
  case spectrum =>
    obtain ⟨hframe, hwork⟩ := h.specFrame hlegal hgain hbaseline
    refine ⟨_, _, rfl, rfl, hframe.completed, fun k hk => ?_⟩
    rw [workEntry_completeCommand, workEntry_completeCommand]
    exact hwork k hk

/-- Settles O52: SPEC_FRAME leaves the inputs its frame depends on as they were. -/
theorem specFrameTwiceGivesTheSameFrame : Obligations.SpecFrameTwiceGivesTheSameFrame := by
  unfold Obligations.SpecFrameTwiceGivesTheSameFrame
  intro s hlegal
  obtain ⟨t, ht⟩ := exec_next .specFrame s
  obtain ⟨hbytes, hsettings⟩ := commandsLeaveTheHostsInputsAlone .specFrame s t hlegal ht
  have hpairs : suppliedPairs s ≤ transformLength s.build := min_le_right _ _
  obtain ⟨-, hspectrum⟩ := framesDependOnTheirInputsAlone s t hlegal hsettings.build hsettings.inCount
    fun j hj => hbytes j (by omega)
  obtain ⟨t', u, ht', hu, hsame⟩ := hspectrum hsettings.gain hsettings.baseline
  obtain rfl : t = t' := Host.Outcome.next.inj (ht.symm.trans ht')
  exact ⟨t, u, ht, hu, hsame⟩

end Sys2Proof.Machine
end

section
/-!
PROOFS. The answers of the bus port: what a CTRL write does in each of its three cases, and which reads and
writes get OKAY, so that the others are the ERROR cases of R243.
-/
namespace Sys2Proof.Machine

/-! ### Command issue -/

section
variable {s : State} {d : Word}

/-- A CTRL write while BUSY is an OVERRUN, whatever the word (R242, R247). -/
theorem issueCommand_busy (hbusy : s.status.busy = true) : issueCommand d s = rejectCommand .overrun d s := by
  simp [issueCommand, hbusy]

theorem issueCommand_idle_invalid (hidle : s.status.busy = false) (hinvalid : validCommand d = false) :
    issueCommand d s = rejectCommand .illegal d s := by
  simp [issueCommand, hidle, hinvalid]

theorem issueCommand_idle_valid (hidle : s.status.busy = false) (hvalid : validCommand d = true) :
    issueCommand d s = s.setStatus (acceptStatus (opField d) s.status) := by
  simp [issueCommand, hidle, hvalid]

end

/-- Settles O7: a CTRL write is a command issue, which rejects the word or accepts it. -/
theorem ctrlWriteIssuesOrRejects : Obligations.CtrlWriteIssuesOrRejects := by
  unfold Obligations.CtrlWriteIssuesOrRejects
  intro s d
  rw [memWrite_CTRL]
  refine ⟨fun hbusy => ?overrun, fun hidle hinvalid => ?illegal, fun hidle hvalid => ?accepted⟩
  case overrun => rw [issueCommand_busy hbusy]; rfl
  case illegal => rw [issueCommand_idle_invalid hidle hinvalid]; rfl
  case accepted => rw [issueCommand_idle_valid hidle hvalid]; rfl

/-! ### Where an offset lies -/

/-- An offset of a ROM byte lies in one of the two ROMs (R49, R89). -/
theorem exists_rom_of_romAddress {b : Build} {a : Nat} (h : romAddress b a) :
    ∃ r : Region, r ≠ .regs ∧ r.isRam = false ∧ inRange r.base (regionBytes b r) a := by
  obtain h | h := h
  · exact ⟨.winRom, nofun, rfl, h⟩
  · exact ⟨.twRom, nofun, rfl, h⟩

/-- An aligned offset inside a region is the region's start and an aligned offset of it. -/
theorem exists_offset_of_inRange {b : Build} {a : Word} {r : Region} (haligned : a.toNat % 4 = 0)
    (hin : inRange r.base (regionBytes b r) a.toNat) :
    ∃ off, off % 4 = 0 ∧ off < regionBytes b r ∧ a = BitVec.ofNat 32 (r.base + off) := by
  obtain ⟨hge, hlt⟩ := hin
  obtain ⟨off, ha⟩ := Nat.exists_eq_add_of_le hge
  have hbase := r.base_aligned
  refine ⟨off, by omega, by omega, ?_⟩
  rw [← ha, BitVec.ofNat_toNat, BitVec.setWidth_eq]

/-- No register is a RAM byte: the RAMs begin at IN_RAM (R89). -/
theorem not_registerAddress_of_ramAddress {b : Build} {a : Nat} (h : ramAddress b a) : ¬ registerAddress a := by
  unfold ramAddress inRange inBase resBase frameBase workBase at h
  omega

/-- No register is a ROM byte (R89). -/
theorem not_registerAddress_of_romAddress {b : Build} {a : Nat} (h : romAddress b a) : ¬ registerAddress a := by
  unfold romAddress inRange winBase twBase at h
  omega

/-- Every RAM of a legal build ends before WIN_ROM begins (R49, R89). -/
theorem lt_winBase_of_ramAddress {b : Build} {a : Nat} (hlegal : b.legal = true) (h : ramAddress b a) :
    a < winBase := by
  obtain ⟨r, hr, -, hlt⟩ := exists_ram_of_ramAddress h
  have hsize := regionBytes_le hlegal r
  have hend : r.base + 0x00100000 ≤ winBase := by
    cases r
    case regs | winRom | twRom => cases hr
    all_goals decide
  omega

theorem winBase_le_of_romAddress {b : Build} {a : Nat} (h : romAddress b a) : winBase ≤ a := by
  unfold romAddress inRange winBase twBase at *
  omega

/-- No ROM byte of a legal build is a RAM byte (R89). -/
theorem not_romAddress_of_ramAddress {b : Build} {a : Nat} (hlegal : b.legal = true) (h : ramAddress b a) :
    ¬ romAddress b a :=
  fun hrom => (lt_winBase_of_ramAddress hlegal h).not_ge (winBase_le_of_romAddress hrom)

/-- An offset inside a ROM region and below its byte size is the offset of a ROM byte. -/
theorem romAddress_of_region {b : Build} {a : Word} {r : Region} (h : regionOf a = some r)
    (hregs : r ≠ .regs) (hr : r.isRam = false) (ho : regionOffset a < regionBytes b r) : romAddress b a.toNat := by
  unfold romAddress inRange
  obtain ⟨rfl, _⟩ | ⟨rfl, _⟩ | ⟨rfl, _⟩ | ⟨rfl, _⟩ | ⟨rfl, _⟩ | ⟨rfl, ha⟩ | ⟨rfl, ha⟩ := regionOf_eq_some h
  case inr.inr.inr.inr.inr.inl => exact .inl (by simp only [regionBytes] at ho; omega)
  case inr.inr.inr.inr.inr.inr => exact .inr (by simp only [regionBytes] at ho; omega)
  case inl => contradiction
  all_goals cases hr

/-! ### Reads -/

/-- The registers a read finds (R33, R85). -/
theorem regRead_isSome_iff (s : State) (a : Word) : (regRead s a).isSome ↔ registerAddress a.toNat := by
  constructor
  · intro h
    unfold regRead at h
    split at h
    case h_12 => cases h
    all_goals omega
  · rintro ⟨haligned, hle⟩
    obtain h | h | h | h | h | h | h | h | h | h | h : a.toNat = 0x000 ∨ a.toNat = 0x004 ∨ a.toNat = 0x008 ∨
        a.toNat = 0x00C ∨ a.toNat = 0x010 ∨ a.toNat = 0x014 ∨ a.toNat = 0x018 ∨ a.toNat = 0x01C ∨
        a.toNat = 0x020 ∨ a.toNat = 0x024 ∨ a.toNat = 0x028 := by omega
    all_goals simp [regRead, h]

/-- A read in a region of bytes gets OKAY unless the busy lock covers it (R85, R90). -/
theorem memRead_isSome_of_region {s : State} {a : Word} {r : Region} (hlegal : s.build.legal = true)
    (hregs : r ≠ .regs) (haligned : a.toNat % 4 = 0) (hin : inRange r.base (regionBytes s.build r) a.toNat)
    (hopen : (r.isRam && s.status.busy) = false) : (memRead s a).isSome := by
  obtain ⟨off, hoff, hinside, rfl⟩ := exists_offset_of_inRange haligned hin
  rw [memRead_base_add hlegal hregs hoff hinside hopen]
  cases r
  case regs => contradiction
  all_goals rfl

/-- All that an OKAY read can be of (R85, R90): a register, a ROM word, or, when idle, a RAM word. -/
theorem memRead_isSome_cases {s : State} {a : Word} (h : (memRead s a).isSome) :
    a.toNat % 4 = 0 ∧ (registerAddress a.toNat ∨ romAddress s.build a.toNat ∨
      (ramAddress s.build a.toNat ∧ s.status.busy = false)) := by
  unfold memRead at h
  split at h
  · cases h
  refine ⟨by omega, ?_⟩
  split at h
  · cases h
  rename_i r hr
  split at h
  · cases h
  split at h
  · cases h
  rename_i hinside hopen
  have ho : regionOffset a < regionBytes s.build r := not_le.1 hinside
  by_cases hregs : r = .regs
  · subst hregs
    exact .inl ((regRead_isSome_iff s a).1 h)
  cases hkind : r.isRam
  · exact .inr (.inl (romAddress_of_region hr hregs hkind ho))
  · exact .inr (.inr ⟨ramAddress_of_region hr hkind ho, by simpa [hkind] using hopen⟩)

/-- Which reads of a legal build get OKAY (R85, R90). -/
theorem memRead_isSome_iff {s : State} (hlegal : s.build.legal = true) (a : Word) :
    (memRead s a).isSome ↔ a.toNat % 4 = 0 ∧ (registerAddress a.toNat ∨ romAddress s.build a.toNat ∨
      (ramAddress s.build a.toNat ∧ s.status.busy = false)) := by
  refine ⟨memRead_isSome_cases, ?_⟩
  rintro ⟨haligned, hreg | hrom | ⟨hram, hidle⟩⟩
  · rw [memRead_register s haligned (by omega)]
    exact (regRead_isSome_iff s a).2 hreg
  · obtain ⟨r, hregs, hr, hin⟩ := exists_rom_of_romAddress hrom
    exact memRead_isSome_of_region hlegal hregs haligned hin (by rw [hr, Bool.false_and])
  · obtain ⟨r, hr, hin⟩ := exists_ram_of_ramAddress hram
    exact memRead_isSome_of_region hlegal (by rintro rfl; cases hr) haligned hin (by rw [hidle, Bool.and_false])

/-- Settles O13: the reads that do not get OKAY, a RAM byte being neither a register nor a ROM byte. -/
theorem readErrorsAreExactlyTheListedCases : Obligations.ReadErrorsAreExactlyTheListedCases := by
  unfold Obligations.ReadErrorsAreExactlyTheListedCases
  intro s a hlegal
  rw [← Option.not_isSome_iff_eq_none, memRead_isSome_iff hlegal]
  by_cases hram : ramAddress s.build a.toNat
  · have hreg := not_registerAddress_of_ramAddress hram
    have hrom := not_romAddress_of_ramAddress hlegal hram
    simp only [hram, hreg, hrom, true_or, or_true, not_true, false_or, true_and, Bool.not_eq_false, not_and_or, ne_eq]
  · simp only [hram, false_and, or_false, false_or, not_and_or, ne_eq]

/-! ### Writes -/

/-- ID, PARAM0, PARAM1, FRAME_COUNT and ERR_CMD: a host write gets ERROR (R34). -/
abbrev readOnlyRegisters : List Nat := [0x000, 0x004, 0x008, 0x024, 0x028]

/-- CTRL, STATUS and IRQ_EN: a host write gets OKAY at any time (R40, R41, R240). -/
abbrev eventRegisters : List Nat := [0x00C, 0x010, 0x014]

/-- IN_COUNT, GAIN and BASELINE: a host write gets OKAY when idle (R42 to R44). -/
abbrev configRegisters : List Nat := [0x018, 0x01C, 0x020]

/-- Of the eleven registers some are read-only, some take a write at any time, some when idle (R33, R34). -/
theorem registerAddress_iff (a : Nat) :
    registerAddress a ↔ a ∈ readOnlyRegisters ∨ a ∈ eventRegisters ∨ a ∈ configRegisters := by
  simp only [registerAddress, List.mem_cons, List.not_mem_nil, or_false]
  omega

/-- A register gets no write exactly when it is read-only or, while BUSY, a configuration register (R34). -/
theorem not_writable_iff_of_registerAddress {a : Nat} (h : registerAddress a) (busy : Bool) :
    ¬ (a ∈ eventRegisters ∨ (busy = false ∧ a ∈ configRegisters)) ↔
      a ∈ readOnlyRegisters ∨ (busy = true ∧ a ∈ configRegisters) := by
  unfold registerAddress at h
  cases busy <;> simp only [List.mem_cons, List.not_mem_nil, or_false, reduceCtorEq, true_and, false_and] <;> omega

/-- The registers a write finds (R34, R86): CTRL, STATUS and IRQ_EN at any time, the configuration
registers when idle. -/
theorem regWrite_isSome_iff (s : State) (a d : Word) :
    (regWrite s a d).isSome ↔ a.toNat ∈ eventRegisters ∨ (s.status.busy = false ∧ a.toNat ∈ configRegisters) := by
  constructor
  · intro h
    obtain ⟨t, ht⟩ := Option.isSome_iff_exists.1 h
    obtain ⟨rfl, _⟩ | ⟨rfl, _⟩ | ⟨rfl, _⟩ | ⟨hidle, rfl, _⟩ | ⟨hidle, rfl, _⟩ | ⟨hidle, rfl, _⟩ := regWrite_cases ht
    case inr.inr.inr.inl | inr.inr.inr.inr.inl | inr.inr.inr.inr.inr => exact .inr ⟨hidle, by decide⟩
    all_goals exact .inl (by decide)
  · simp only [List.mem_cons, List.not_mem_nil, or_false]
    rintro (hevent | ⟨hidle, hconfig⟩)
    · obtain h | h | h := hevent <;> simp [regWrite, h]
    · obtain h | h | h := hconfig <;> simp [regWrite, h, hidle]

theorem memWrite_isSome_of_register {s : State} {a d : Word}
    (h : a.toNat ∈ eventRegisters ∨ (s.status.busy = false ∧ a.toNat ∈ configRegisters)) :
    (memWrite s a d).isSome := by
  have hreg : registerAddress a.toNat := (registerAddress_iff _).2 (.inr (h.imp_right And.right))
  rw [memWrite_register s d hreg.1 (hreg.2.trans_lt (by decide))]
  exact (regWrite_isSome_iff s a d).2 h

/-- Which writes of a legal build get OKAY (R86, R90). -/
theorem memWrite_isSome_iff {s : State} (hlegal : s.build.legal = true) (a d : Word) :
    (memWrite s a d).isSome ↔ a.toNat % 4 = 0 ∧ (a.toNat ∈ eventRegisters ∨
      (s.status.busy = false ∧ (ramAddress s.build a.toNat ∨ a.toNat ∈ configRegisters))) := by
  constructor
  · intro h
    obtain ⟨t, ht⟩ := Option.isSome_iff_exists.1 h
    obtain ⟨haligned, hreg | ⟨hidle, hram, _⟩⟩ := memWrite_cases ht
    · have hplace := (regWrite_isSome_iff s a d).1 (Option.isSome_of_eq_some hreg)
      exact ⟨haligned, hplace.imp_right fun ⟨hidle, hconfig⟩ => ⟨hidle, .inr hconfig⟩⟩
    · exact ⟨haligned, .inr ⟨hidle, .inl hram⟩⟩
  · rintro ⟨haligned, hevent | ⟨hidle, hram | hconfig⟩⟩
    · exact memWrite_isSome_of_register (.inl hevent)
    · obtain ⟨r, hr, hin⟩ := exists_ram_of_ramAddress hram
      obtain ⟨off, hoff, hinside, rfl⟩ := exists_offset_of_inRange haligned hin
      rw [memWrite_ram d hlegal hidle hr hoff hinside]
      rfl
    · exact memWrite_isSome_of_register (.inr ⟨hidle, hconfig⟩)

/-- Settles O14: the writes that do not get OKAY, by where an aligned offset lies. -/
theorem writeErrorsAreExactlyTheListedCases : Obligations.WriteErrorsAreExactlyTheListedCases := by
  unfold Obligations.WriteErrorsAreExactlyTheListedCases
  intro s a d hlegal
  rw [← Option.not_isSome_iff_eq_none, memWrite_isSome_iff hlegal]
  by_cases haligned : a.toNat % 4 = 0
  case neg => simp only [haligned, false_and, not_false_iff, ne_eq, true_or]
  by_cases hreg : registerAddress a.toNat
  case pos =>
    have hram : ¬ ramAddress s.build a.toNat := fun h => not_registerAddress_of_ramAddress h hreg
    have hrom : ¬ romAddress s.build a.toNat := fun h => not_registerAddress_of_romAddress h hreg
    simpa only [haligned, iff_true_intro hreg, hram, hrom, true_and, false_or, true_or, not_true, ne_eq] using
      not_writable_iff_of_registerAddress hreg s.status.busy
  obtain ⟨hreadOnly, hevent, hconfig⟩ : a.toNat ∉ readOnlyRegisters ∧ a.toNat ∉ eventRegisters ∧
      a.toNat ∉ configRegisters := by
    rwa [registerAddress_iff, not_or, not_or] at hreg
  by_cases hram : ramAddress s.build a.toNat
  case pos =>
    have hrom := not_romAddress_of_ramAddress hlegal hram
    simp only [haligned, hreg, hram, hrom, hreadOnly, hevent, hconfig, true_and, and_true, false_or, or_false,
      not_true, ne_eq, Bool.not_eq_false]
  case neg =>
    by_cases hrom : romAddress s.build a.toNat <;>
      simp only [haligned, hreg, hram, hrom, hreadOnly, hevent, hconfig, and_false, or_false, or_true,
        not_true, not_false_iff, ne_eq]

end Sys2Proof.Machine
end
